-- ==== Sys2Proof/Word.lean ====
section
/-! DEFINITION. The words and small data types of the LED transmit block: bytes, binary32 words, colours, symbols,
strip modes and agents (spec 00 R6, R8, R13; 10 R23, R24, R26, R27; 30 R90). -/

namespace Sys2Proof

/-- An unsigned byte, the width of every datagram field (00 R8). -/
abbrev Byte := BitVec 8

/-- The 32 bits of one IEEE 754 binary32 value (00 R8, R13). -/
abbrev F32 := BitVec 32

/-- Strip operating mode, in the declaration order that gives its 2-bit code (10 R24). -/
inductive StripMode where
  | off
  | effects
  | dynamic
  | hybrid
  deriving DecidableEq, Repr, Inhabited

/-- The encoder's input pixel: three unsigned bytes (10 R26). -/
structure Rgb8 where
  r : Byte
  g : Byte
  b : Byte
  deriving DecidableEq, Repr, Inhabited

/-- One payload quad of a SetBufferToManyAlpha record (30 R84). -/
structure Rgba8 where
  r : Byte
  g : Byte
  b : Byte
  a : Byte
  deriving DecidableEq, Repr, Inhabited

/-- A premultiplied colour of four binary32 channels (10 R27). -/
structure RgbaF32 where
  r : F32
  g : F32
  b : F32
  a : F32
  deriving DecidableEq, Repr, Inhabited

/-- A timing symbol: `pulse hi lo` drives the line high for `hi` ticks and then low for `lo` ticks;
`endMark` is the sentinel `End`, which carries no bit (30 R90). -/
inductive Symbol where
  | pulse (hi lo : Nat)
  | endMark
  deriving DecidableEq, Repr, Inhabited

/-- The three agents of the block (00 R6). -/
inductive Agent where
  | tx
  | ing
  | ctl
  deriving DecidableEq, Repr, Inhabited

/-- A strip's static geometry (10 R23). -/
structure StripInfo where
  ledCount : Nat
  reversed : Bool
  deriving DecidableEq, Repr, Inhabited

/-- `int8(b)`: a byte read as a two's-complement integer in `-128..127` (00 R9). -/
abbrev int8 (b : Byte) : Int := b.toInt

/-- `sat(x) = max(x, 0)` on integers (00 R9). -/
abbrev sat (x : Int) : Nat := x.toNat

end Sys2Proof
end

