-- ==== Sys2Proof/Config.lean ====
section
/-! DEFINITION. What is fixed for one block (the parameters of spec 00 R7, read-only for every agent, 10 R22) and the
values the spec leaves open, as constants with no body. -/

namespace Sys2Proof

/-- The order in which a colour's channels go on the wire; `grb` is the reference protocol's (00 R7 `WIRE_ORDER`). -/
inductive WireOrder where
  | rgb
  | rbg
  | grb
  | gbr
  | brg
  | bgr
  deriving DecidableEq, Repr, Inhabited

/-- Lock granularity of ingestion (00 R7 `INGEST_ATOMICITY`). -/
inductive Atomicity where
  | perDatagram
  | perRecord
  deriving DecidableEq, Repr, Inhabited

/-- One configured strip: its geometry and its mode at reset (00 R7 `LED_COUNT`, `REVERSED`, `INIT_MODE`). -/
structure StripConfig where
  info : StripInfo
  initMode : StripMode
  deriving DecidableEq, Repr, Inhabited

/-- The parameters of 00 R7 that are data (10 R22). `S` is the number of entries of `strips`.
The one parameter that is a function, `EFFECT`, is `Config.effectPixel` below. -/
structure Config where
  strips : List StripConfig
  maxLeds : Nat
  nEffects : Nat
  t0h : Nat
  t0l : Nat
  t1h : Nat
  t1l : Nat
  tickHz : Nat
  durMax : Nat
  wireOrder : WireOrder
  latchUs : Nat
  fallbackUs : Nat
  cores : Nat
  maxDgram : Nat
  atomicity : Atomicity
  dataPort : Nat
  controlPort : Nat
  deriving DecidableEq, Repr, Inhabited

/-- `S`, the number of configured strips (00 R7). -/
def Config.nStrips (cfg : Config) : Nat := cfg.strips.length

/-- `info[s]`, absent for `s >= S` (10 R22, R23). -/
def Config.info? (cfg : Config) (s : Nat) : Option StripInfo := (cfg.strips[s]?).map (·.info)

/-- `n_s`, the `ledCount` of strip `s`, absent for `s >= S` (10 R23). -/
def Config.ledCount? (cfg : Config) (s : Nat) : Option Nat := (cfg.strips[s]?).map (·.info.ledCount)

/-- The symbol `LO = Pulse(T0H, T0L)` (30 R91). -/
def Config.lo (cfg : Config) : Symbol := .pulse cfg.t0h cfg.t0l

/-- The symbol `HI = Pulse(T1H, T1L)` (30 R91). -/
def Config.hi (cfg : Config) : Symbol := .pulse cfg.t1h cfg.t1l

/-- What the schedule and the environment choose for one step: which agent moves, and what `CLK`, `HW` or `NET`
answers it. `tx dt ok`: the next `now()` read returns `dt` µs more than the last one `TX` saw, and a completion that
`HW` reports carries `ok`. `ing` and `ctl`: the bytes `NET` delivers if the port is idle (00 R6; 44 R191; 20 R75). -/
inductive Choice where
  | tx (dt : Nat) (ok : Bool)
  | ing (bytes : List Byte)
  | ctl (bytes : List Byte)
  deriving DecidableEq, Repr, Inhabited

/-- OPEN parameter `EFFECT` (00 R10): pixel `i` of `EFFECT(k, info, tms)`. No body: nothing is assumed of it
beyond being total and pure. -/
opaque Config.effectPixel (k : Nat) (info : StripInfo) (tms : Nat) (i : Nat) : Rgb8

/-- Free value (93 U14 to U19): the choice of schedule and environment for draw number `n`. -/
opaque Config.freeChoice (n : Nat) : Choice

/-- Free value (93 U2): what slot `j` of the encoder built at draw `n` holds before it is written. -/
opaque Config.freeSymbol (n j : Nat) : Symbol

/-- Free value: the sign bit and the 22 payload bits of the NaN that binary32 operation `op` yields
on operands `x` and `y` (neither the spec nor IEEE 754 states them). -/
opaque Config.nanBits (op : Nat) (x y : F32) : BitVec 23

/-- A free symbol within the durations 30 R90 allows, `1 <= hi, lo <= DUR_MAX`. -/
def Config.anySymbol (cfg : Config) (n j : Nat) : Symbol :=
  match Config.freeSymbol n j with
  | .pulse hi lo => .pulse (1 + hi % cfg.durMax) (1 + lo % cfg.durMax)
  | .endMark => .endMark

/-- DESIGN CHOICE (log entry 1), unsafe for claims about `State.reset` alone: an admissible value of every OPEN
parameter. The values the spec does give are used as they stand: `WIRE_ORDER` G, R, B, `FALLBACK_US`, `PerDatagram` and the
ports (00 R7). Strips, modes, `N_EFFECTS` and `LATCH_US` are those of the spec's own vectors (95 sections 2.4, 2.6, 2.7). -/
def Config.reference : Config where
  strips := [⟨⟨3, false⟩, .dynamic⟩, ⟨⟨1, false⟩, .hybrid⟩]
  maxLeds := 3
  nEffects := 3
  t0h := 7
  t0l := 16
  t1h := 14
  t1l := 12
  tickHz := 20000000
  durMax := 16
  wireOrder := .grb
  latchUs := 300
  fallbackUs := 1000000
  cores := 1
  maxDgram := 64
  atomicity := .perDatagram
  dataPort := 1337
  controlPort := 1338

end Sys2Proof
end

