-- ==== Sys2Proof/Syntax.lean ====
section
/-! DEFINITION. The instructions: one constructor per mnemonic of spec/opcode_table.json. Records and control messages
carry their decoded fields; the internal operations carry their operands and the draws of their rule. -/

namespace Sys2Proof

/-- A decoded datagram record (30 R80 to R87). -/
inductive Record where
  /-- SetBufferToMany: target and one RGB triple per pixel (30 R83). -/
  | sbm (tgt : Byte) (px : List Rgb8)
  /-- SetBufferToSingle: target and one RGB triple (30 R83). -/
  | sbs (tgt : Byte) (p : Rgb8)
  /-- Code 2, reserved (30 R87). -/
  | rsv2 (tgt : Byte)
  /-- SetBufferToManyAlpha: target and one RGBA quad per pixel (30 R84). -/
  | sbma (tgt : Byte) (px : List Rgba8)
  /-- Code 4, reserved (30 R87). -/
  | rsv4 (tgt : Byte)
  /-- Codes 5 to 255, unrecognised (30 R87). -/
  | unrec (cmd tgt : Byte)
  deriving DecidableEq, Repr, Inhabited

/-- A decoded control message (30 R88, R89). -/
inductive ControlMsg where
  | setStripMode (idx : Byte) (m : StripMode)
  | shiftEffectMode (delta : Byte)
  deriving DecidableEq, Repr, Inhabited

/-- One constructor per mnemonic of spec/opcode_table.json. -/
inductive Instr where
  -- datagram records (45 R207 to R212)
  | sbm (tgt : Byte) (px : List Rgb8)
  | sbs (tgt : Byte) (p : Rgb8)
  | rsv2 (tgt : Byte)
  | sbma (tgt : Byte) (px : List Rgba8)
  | rsv4 (tgt : Byte)
  | unrec (cmd tgt : Byte)
  -- control messages (46 R233, R234)
  | ssm (idx : Byte) (m : StripMode)
  | sem (delta : Byte)
  -- bit encoder (42)
  | encodeBit (b : Bool)
  | encodeByte (v : Byte)
  | construct (i : Nat)
  | flush (a : Agent) (i : Nat)
  | writeColor (a : Agent) (i : Nat) (p : Rgb8)
  -- colour datapath (40)
  | b2f (c : Byte)
  | rgbaNew (r g b a : F32)
  | rgbaNewPremultiplied (r g b a : F32)
  | fromRgb8 (p : Rgb8)
  | blendOver (fg bg : RgbaF32)
  | toByte (x : F32)
  | toRgb8 (v : RgbaF32)
  -- render (41)
  | renderStrip (a : Agent) (i : Nat)
  -- transmission controller (43); `t` is the value the step's `now()` read returns
  | txStart (t : Nat)
  | txLock
  | txRender
  | txUnlock
  | txSubmit
  | txComplete (ok : Bool) (t : Nat)
  | txWaitcalc (t : Nat)
  | txWake (t : Nat)
  -- lock (44)
  | acquire (a : Agent)
  | release (a : Agent)
  -- ingestion port (45); `bytes` is the datagram NET delivers
  | ingReceive (bytes : List Byte)
  | ingLock
  | ingParse
  | ingUnlock
  -- control port and effect selector (46); `bytes` is the message NET delivers
  | ctlReceive (bytes : List Byte)
  | ctlLock
  | ctlUnlock
  | nextEffect (a : Agent)
  | prevEffect (a : Agent)
  | setEffect (a : Agent) (k : Nat)
  | currentEffect (a : Agent)
  deriving DecidableEq, Repr, Inhabited

/-- The instruction a decoded record is. -/
def Record.toInstr : Record → Instr
  | .sbm tgt px => .sbm tgt px
  | .sbs tgt p => .sbs tgt p
  | .rsv2 tgt => .rsv2 tgt
  | .sbma tgt px => .sbma tgt px
  | .rsv4 tgt => .rsv4 tgt
  | .unrec cmd tgt => .unrec cmd tgt

/-- The instruction a decoded control message is. -/
def ControlMsg.toInstr : ControlMsg → Instr
  | .setStripMode idx m => .ssm idx m
  | .shiftEffectMode delta => .sem delta

end Sys2Proof
end

