-- ==== Sys2Proof/WellFormed.lean ====
section
/-! DEFINITION. Which instructions are well-formed for a configuration: strip indices in range, payloads of the length
the target needs (30 R82, R85), command codes in the class of their constructor (30 R86), datagrams within MAX_DGRAM (45 R201). -/

namespace Sys2Proof

/-- A target byte names a configured strip (30 R85). -/
def targetOk (cfg : Config) (tgt : Byte) : Bool := tgt.toNat < cfg.nStrips

/-- Well-formedness of an instruction for a configuration. -/
def WellFormed (cfg : Config) : Instr → Bool
  | .sbm tgt px => targetOk cfg tgt && cfg.ledCount? tgt.toNat == some px.length
  | .sbs tgt _ => targetOk cfg tgt
  | .rsv2 tgt => targetOk cfg tgt
  | .sbma tgt px => targetOk cfg tgt && cfg.ledCount? tgt.toNat == some px.length
  | .rsv4 tgt => targetOk cfg tgt
  | .unrec cmd tgt => decide (5 ≤ cmd.toNat) && targetOk cfg tgt
  | .ssm _ _ => true
  | .sem _ => true
  | .encodeBit _ => true
  | .encodeByte _ => true
  | .construct i => i < cfg.nStrips
  | .flush _ i => i < cfg.nStrips
  | .writeColor _ i _ => i < cfg.nStrips
  | .b2f _ => true
  | .rgbaNew _ _ _ _ => true
  | .rgbaNewPremultiplied _ _ _ _ => true
  | .fromRgb8 _ => true
  | .blendOver _ _ => true
  | .toByte _ => true
  | .toRgb8 _ => true
  | .renderStrip _ i => i < cfg.nStrips
  | .txStart _ => true
  | .txLock => true
  | .txRender => true
  | .txUnlock => true
  | .txSubmit => true
  | .txComplete _ _ => true
  | .txWaitcalc _ => true
  | .txWake _ => true
  | .acquire _ => true
  | .release _ => true
  | .ingReceive bytes => bytes.length ≤ cfg.maxDgram
  | .ingLock => true
  | .ingParse => true
  | .ingUnlock => true
  | .ctlReceive _ => true
  | .ctlLock => true
  | .ctlUnlock => true
  | .nextEffect _ => true
  | .prevEffect _ => true
  | .setEffect _ _ => true
  | .currentEffect _ => true

end Sys2Proof
end

