-- ==== Sys2Proof/Decode.lean ====
section
/-! DEFINITION. The decoders of the two encoded spaces (datagram records, 30 R80 to R87; control messages, 30 R88, R89),
total on any bytes and rejecting by name, and after them the encoder. -/

namespace Sys2Proof

/-- Why bytes do not decode. -/
inductive DecodeError where
  /-- Fewer than two bytes remain: the datagram has ended (45 R203). -/
  | tooShort
  /-- The target byte is not below `S` (30 R85). -/
  | targetOutOfRange
  /-- Fewer payload bytes remain than the command needs (45 R206). -/
  | shortPayload (tgt : Byte)
  /-- Byte 0 of a control message is neither `0x00` nor `0x01` (30 R88). -/
  | unknownType
  /-- A control message has the wrong length (30 R88). -/
  | badLength
  /-- The mode byte of a SetStripMode message is above 3 (30 R89). -/
  | badMode
  deriving DecidableEq, Repr

/-- The 2-bit code of a mode (10 R24). -/
def StripMode.code : StripMode → Byte
  | .off => 0
  | .effects => 1
  | .dynamic => 2
  | .hybrid => 3

/-- The mode of a mode byte; values 4 to 255 name none (30 R89). -/
def modeOfByte (b : Byte) : Option StripMode :=
  match b.toNat with
  | 0 => some .off
  | 1 => some .effects
  | 2 => some .dynamic
  | 3 => some .hybrid
  | _ => none

/-- `need(cmd, n)`, the payload length; undefined for every code but 0, 1 and 3 (30 R82). -/
def payloadNeed (cmd : Byte) (n : Nat) : Option Nat :=
  match cmd.toNat with
  | 0 => some (3 * n)
  | 1 => some 3
  | 3 => some (4 * n)
  | _ => none

/-- Read `n` RGB triples and the bytes after them (30 R83). -/
def takeRgb : Nat → List Byte → Option (List Rgb8 × List Byte)
  | 0, bs => some ([], bs)
  | n + 1, r :: g :: b :: bs => (takeRgb n bs).map fun (px, rest) => (⟨r, g, b⟩ :: px, rest)
  | _ + 1, _ => none

/-- Read `n` RGBA quads and the bytes after them (30 R84). -/
def takeRgba : Nat → List Byte → Option (List Rgba8 × List Byte)
  | 0, bs => some ([], bs)
  | n + 1, r :: g :: b :: a :: bs => (takeRgba n bs).map fun (px, rest) => (⟨r, g, b, a⟩ :: px, rest)
  | _ + 1, _ => none

/-- Decode the record at the head of a byte sequence, for a target of `n` LEDs (30 R81 to R87). -/
def decodePayload (cmd tgt : Byte) (n : Nat) (bs : List Byte) : Except DecodeError (Record × List Byte) :=
  match cmd.toNat with
  | 0 =>
    match takeRgb n bs with
    | some (px, rest) => .ok (.sbm tgt px, rest)
    | none => .error (.shortPayload tgt)
  | 1 =>
    match bs with
    | r :: g :: b :: rest => .ok (.sbs tgt ⟨r, g, b⟩, rest)
    | _ => .error (.shortPayload tgt)
  | 2 => .ok (.rsv2 tgt, bs)
  | 3 =>
    match takeRgba n bs with
    | some (px, rest) => .ok (.sbma tgt px, rest)
    | none => .error (.shortPayload tgt)
  | 4 => .ok (.rsv4 tgt, bs)
  | _ => .ok (.unrec cmd tgt, bs)

/-- Decode the record at the head of a datagram's remaining bytes. Its length is known only with the configuration
(30 R85). A reserved or unrecognised code has no payload, so decoding stops after the two header bytes (30 R82, R87). -/
def decodeRecordHead (cfg : Config) : List Byte → Except DecodeError (Record × List Byte)
  | cmd :: tgt :: bs =>
    match cfg.ledCount? tgt.toNat with
    | some n => decodePayload cmd tgt n bs
    | none => .error .targetOutOfRange
  | _ => .error .tooShort

/-- The record decoder as an instruction decoder: the instruction and the bytes after it. -/
def decodeRecord (cfg : Config) (bs : List Byte) : Except DecodeError (Instr × List Byte) :=
  (decodeRecordHead cfg bs).map fun (r, rest) => (r.toInstr, rest)

/-- Decode a control message, already deframed: exactly these bytes (30 R88, R89). -/
def decodeControlMsg : List Byte → Except DecodeError ControlMsg
  | [] => .error .badLength
  | ty :: args =>
    match ty.toNat with
    | 0 =>
      match args with
      | [idx, m] =>
        match modeOfByte m with
        | some mode => .ok (.setStripMode idx mode)
        | none => .error .badMode
      | _ => .error .badLength
    | 1 =>
      match args with
      | [delta] => .ok (.shiftEffectMode delta)
      | _ => .error .badLength
    | _ => .error .unknownType

/-- The control decoder as an instruction decoder. -/
def decodeControl (bs : List Byte) : Except DecodeError Instr := (decodeControlMsg bs).map ControlMsg.toInstr

/-- The bytes of an RGB payload (30 R83). -/
def rgbBytes (px : List Rgb8) : List Byte := px.flatMap fun p => [p.r, p.g, p.b]

/-- The bytes of an RGBA payload (30 R84). -/
def rgbaBytes (px : List Rgba8) : List Byte := px.flatMap fun p => [p.r, p.g, p.b, p.a]

/-- The bytes of an instruction; the internal operations have no binary encoding (30 R88, R93, R94). -/
def encode : Instr → Option (List Byte)
  | .sbm tgt px => some (0x00 :: tgt :: rgbBytes px)
  | .sbs tgt p => some [0x01, tgt, p.r, p.g, p.b]
  | .rsv2 tgt => some [0x02, tgt]
  | .sbma tgt px => some (0x03 :: tgt :: rgbaBytes px)
  | .rsv4 tgt => some [0x04, tgt]
  | .unrec cmd tgt => some [cmd, tgt]
  | .ssm idx m => some [0x00, idx, m.code]
  | .sem delta => some [0x01, delta]
  | .encodeBit _ => none
  | .encodeByte _ => none
  | .construct _ => none
  | .flush _ _ => none
  | .writeColor _ _ _ => none
  | .b2f _ => none
  | .rgbaNew _ _ _ _ => none
  | .rgbaNewPremultiplied _ _ _ _ => none
  | .fromRgb8 _ => none
  | .blendOver _ _ => none
  | .toByte _ => none
  | .toRgb8 _ => none
  | .renderStrip _ _ => none
  | .txStart _ => none
  | .txLock => none
  | .txRender => none
  | .txUnlock => none
  | .txSubmit => none
  | .txComplete _ _ => none
  | .txWaitcalc _ => none
  | .txWake _ => none
  | .acquire _ => none
  | .release _ => none
  | .ingReceive _ => none
  | .ingLock => none
  | .ingParse => none
  | .ingUnlock => none
  | .ctlReceive _ => none
  | .ctlLock => none
  | .ctlUnlock => none
  | .nextEffect _ => none
  | .prevEffect _ => none
  | .setEffect _ _ => none
  | .currentEffect _ => none

/-! ### The host's table words -/

/-- The low `n` bytes of a number, byte 0 first (bit 0 is the least significant bit of the first byte). -/
def leBytes : Nat → Nat → List Byte
  | 0, _ => []
  | n + 1, w => BitVec.ofNat 8 w :: leBytes n (w / 256)

/-- The most LEDs any strip of a configuration has. -/
def maxLedCount (cfg : Config) : Nat := (cfg.strips.map (·.info.ledCount)).foldl max 0

/-- The length of the longest record of a configuration (30 R82, R85). -/
def longestRecord (cfg : Config) : Nat := max 5 (2 + 4 * maxLedCount cfg)

/-- A table word laid out as a datagram: its bytes, then zero bytes up to the longest record. -/
def tableDatagram (cfg : Config) (nbits w : Nat) : List Byte :=
  let bs := leBytes (nbits / 8) w
  bs ++ List.replicate (longestRecord cfg - bs.length) 0

/-- The control message a table word is, when its bytes are exactly one message. Both encoded spaces use the first
bytes 00 and 01; a word of one byte is read as a record (log entry 9). -/
def tableMessage (nbits w : Nat) : Option ControlMsg :=
  match decodeControlMsg (leBytes (nbits / 8) w) with
  | .ok m => some m
  | .error _ => none

/-- The instruction the decoder reads from a word of spec/opcode_table.json, at the reference configuration. -/
def decodeTableWord (nbits w : Nat) : Option Instr :=
  match tableMessage nbits w with
  | some m => some m.toInstr
  | none =>
    match decodeRecord Config.reference (tableDatagram Config.reference nbits w) with
    | .ok (i, _) => some i
    | .error _ => none

end Sys2Proof
end

