-- ==== Sys2Proof/Machine/State.lean ====
section
/-! DEFINITION. The state of the block (spec 10), the reasons a step can stop, and reset (10 R48, 70 R281). -/

namespace Sys2Proof.Machine

/-- The phases of the transmission controller, in code order 0 to 7 (10 R32). -/
inductive TxPhase where
  | tStart
  | tLock
  | tRender
  | tUnlock
  | tSubmit
  | tXmit
  | tWaitcalc
  | tSleep
  deriving DecidableEq, Repr, Inhabited

/-- The phases of the ingestion port, in code order 0 to 3 (10 R41). -/
inductive IngPhase where
  | iIdle
  | iLock
  | iParse
  | iUnlock
  deriving DecidableEq, Repr, Inhabited

/-- The phases of the control port, in code order 0 to 3 (10 R42). -/
inductive CtlPhase where
  | cIdle
  | cLock
  | cApply
  | cUnlock
  deriving DecidableEq, Repr, Inhabited

/-- The source's error kinds, codes 1 to 4 (60 R251). -/
inductive ErrorKind where
  | configurationError
  | transportError
  | protocolRangeError
  | hardwareTransmitError
  deriving DecidableEq, Repr, Inhabited

/-- The model-fault kinds of the spec, codes 16 to 20 (10 R44, 60 R251). They are bits of the state, not stops. -/
inductive FaultKind where
  | encoderOverflow
  | lockMisuse
  | accessWithoutLock
  | ownershipViolation
  | unmodelled
  deriving DecidableEq, Repr, Inhabited

/-- The event kinds of the history (00 R11). -/
inductive Event where
  | submit (s n : Nat)
  | complete (s : Nat) (ok : Bool) (t : Nat)
  | acquire (a : Agent)
  | release (a : Agent)
  | apply (cmd tgt : Byte)
  | abort (kind : ErrorKind) (cursor : Nat)
  | mode (s : Nat) (m : StripMode)
  | select (k : Nat)
  | wake (t : Nat)
  deriving DecidableEq, Repr, Inhabited

/-- The value an operation that changes no state hands to its caller (the model's own field, log entry 6). -/
inductive OpResult where
  | none
  | channel (x : F32)
  | colour (v : RgbaF32)
  | byte (b : Byte)
  | pixel (p : Rgb8)
  | symbol (y : Symbol)
  | symbols (ys : List Symbol)
  | index (k : Nat)
  deriving DecidableEq, Repr, Inhabited

/-- The single mutual-exclusion lock (10 R31). -/
structure Lock where
  holder : Option Agent
  deriving DecidableEq, Repr, Inhabited

/-- The transmission controller's private state (10 R32 to R40); the lists have one entry per strip. -/
structure TxState where
  phase : TxPhase
  k : Nat
  tIter : Nat
  rendered : List Bool
  tFirst : Option Nat
  deadline : Nat
  tb : List (List Symbol)
  cur : List Nat
  degraded : List Bool
  deriving DecidableEq, Repr, Inhabited

/-- The ingestion port's private state (10 R41). -/
structure IngState where
  phase : IngPhase
  dg : List Byte
  c : Nat
  deriving DecidableEq, Repr, Inhabited

/-- The control port's private state (10 R42). -/
structure CtlState where
  phase : CtlPhase
  msg : Option ControlMsg
  deriving DecidableEq, Repr, Inhabited

/-- The set of fault kinds that have been raised, one bit each (10 R44). -/
structure FaultBits where
  encoderOverflow : Bool
  lockMisuse : Bool
  accessWithoutLock : Bool
  ownershipViolation : Bool
  unmodelled : Bool
  deriving DecidableEq, Repr, Inhabited

/-- The whole state of the block (10 R20). `cfg` to `hist` are the spec's. The rest is the model's own: `clk` is the
latest time `TX` has read (20 R75), `hw` the sequence handed to `HW` and not yet reported complete (43 R155, R165),
`out` the last value-only operation's value, `sched` the schedule and environment choices already fixed, oldest first
(44 R191), and `draws` the count of free values drawn. -/
structure State where
  cfg : Config
  mode : List StripMode
  cb : List (List RgbaF32)
  sel : Nat
  lk : Lock
  tx : TxState
  ing : IngState
  ctl : CtlState
  fault : FaultBits
  hist : List Event
  clk : Nat
  hw : Option (List Symbol)
  out : OpResult
  sched : List Choice
  draws : Nat
  deriving DecidableEq, Repr, Inhabited

/-- Why the machine stops. -/
inductive Fault where
  /-- Raised by `step` when the configuration is invalid (60 R252): the block never leaves reset, no agent takes a step
  and no symbol is transmitted. The spec's own fatal error, so safe. -/
  | configurationError
  deriving DecidableEq, Repr

/-- Why an instruction is given no meaning. -/
inductive Refusal where
  /-- Raised by `exec`'s arm of an instruction that has no meaning yet; safe. No arm raises it now. -/
  | notModelled (mnemonic : String)
  deriving DecidableEq, Repr

/-- The outcome type of every meaning. -/
abbrev Outcome := Host.Outcome State Fault Refusal

/-- Transparent black, the colour buffer's reset value (10 R48). -/
def transparentBlack : RgbaF32 := ⟨0, 0, 0, 0⟩

/-- No fault bit set (10 R48). -/
def FaultBits.clear : FaultBits := ⟨false, false, false, false, false⟩

/-- A new transmit buffer for `n` LEDs built at draw `d`: `24 n` slots of any symbol, then `End` (42 R133). -/
def freshBuffer (cfg : Config) (d n : Nat) : List Symbol := (List.range (24 * n)).map (cfg.anySymbol d) ++ [.endMark]

/-- The transmit buffers of the strips `infos`, the first built at draw `d` (70 R281 step 3). -/
def freshBuffers (cfg : Config) : Nat → List StripConfig → List (List Symbol)
  | _, [] => []
  | d, sc :: rest => freshBuffer cfg d sc.info.ledCount :: freshBuffers cfg (d + 1) rest

/-- The state right after reset for a configuration (10 R48, 70 R281 steps 2 to 4). `tIter` and `deadline` are 0, which
the spec leaves unspecified (DESIGN CHOICE, log entry 3); so are the model's own fields (log entries 5 to 7). -/
def State.resetWith (cfg : Config) : State where
  cfg := cfg
  mode := cfg.strips.map (·.initMode)
  cb := cfg.strips.map fun sc => List.replicate sc.info.ledCount transparentBlack
  sel := 0
  lk := ⟨none⟩
  tx :=
    { phase := .tStart
      k := 0
      tIter := 0
      rendered := cfg.strips.map fun _ => false
      tFirst := none
      deadline := 0
      tb := freshBuffers cfg 0 cfg.strips
      cur := cfg.strips.map fun _ => 0
      degraded := cfg.strips.map fun _ => false }
  ing := ⟨.iIdle, [], 0⟩
  ctl := ⟨.cIdle, none⟩
  fault := .clear
  hist := []
  clk := 0
  hw := none
  out := .none
  sched := []
  draws := cfg.strips.length

/-- The machine right after reset, at the reference configuration (log entry 1). -/
def State.reset : State := State.resetWith Config.reference

/-- The canonical shape of the storage spaces: every per-strip list has `S` entries, `cb[s]` has `n_s` (10 R28) and
`tb[s]` has `24 n_s + 1` (10 R38). The block has no byte-addressed memory (20 R60, R62). -/
def Memory.wf (s : State) : Bool :=
  s.mode.length == s.cfg.nStrips
    && s.cb.map List.length == s.cfg.strips.map (·.info.ledCount)
    && s.tx.tb.map List.length == s.cfg.strips.map (fun sc => 24 * sc.info.ledCount + 1)
    && s.tx.cur.length == s.cfg.nStrips
    && s.tx.rendered.length == s.cfg.nStrips
    && s.tx.degraded.length == s.cfg.nStrips

end Sys2Proof.Machine
end

