-- ==== Sys2Proof/Machine/Flags.lean ====
section
/-! DEFINITION. The flags of the block (spec 10 R46): the fault bits (R44), `rendered` (R35) and `degraded` (R40). There are
no condition codes. -/

namespace Sys2Proof.Machine

/-- The numeric code of an error kind (60 R251). -/
def ErrorKind.code : ErrorKind → Nat
  | .configurationError => 1
  | .transportError => 2
  | .protocolRangeError => 3
  | .hardwareTransmitError => 4

/-- The numeric code of a model fault (60 R251). -/
def FaultKind.code : FaultKind → Nat
  | .encoderOverflow => 16
  | .lockMisuse => 17
  | .accessWithoutLock => 18
  | .ownershipViolation => 19
  | .unmodelled => 20

/-- The fault bits with one kind added; no bit is ever cleared (10 R44). -/
def FaultBits.add (f : FaultBits) : FaultKind → FaultBits
  | .encoderOverflow => { f with encoderOverflow := true }
  | .lockMisuse => { f with lockMisuse := true }
  | .accessWithoutLock => { f with accessWithoutLock := true }
  | .ownershipViolation => { f with ownershipViolation := true }
  | .unmodelled => { f with unmodelled := true }

/-- Whether a kind is in the set. -/
def FaultBits.has (f : FaultBits) : FaultKind → Bool
  | .encoderOverflow => f.encoderOverflow
  | .lockMisuse => f.lockMisuse
  | .accessWithoutLock => f.accessWithoutLock
  | .ownershipViolation => f.ownershipViolation
  | .unmodelled => f.unmodelled

/-- All `rendered` flags cleared (43 R151). -/
def clearFlags (flags : List Bool) : List Bool := flags.map fun _ => false

/-- Flag `i` set; an index no strip has is `Fault(Unmodelled)` (20 R60). -/
def setFlag (i : Nat) (flags : List Bool) : Except FaultKind (List Bool) :=
  if i < flags.length then .ok (flags.set i true) else .error .unmodelled

/-- Flag `i`; an index no strip has is `Fault(Unmodelled)` (20 R60). -/
def getFlag (i : Nat) (flags : List Bool) : Except FaultKind Bool :=
  match flags[i]? with
  | some b => .ok b
  | none => .error .unmodelled

/-- The least index `i` with `from <= i < n` whose flag is set (43 R155). -/
def leastSet (start n : Nat) (flags : List Bool) : Option Nat :=
  (List.range n).find? fun i => decide (start ≤ i) && flags.getD i false

end Sys2Proof.Machine
end

