-- ==== Sys2Proof/Machine/Ops.lean ====
section
/-! DEFINITION. The named operations every rule is written over: enabling (spec 00 R12), raising a fault and aborting a
datagram (00 R9, 45 R214, 60 R256, R257), the history, the lock (44), and the guarded accesses to the shared state (44 R185)
and to the transmit path (44 R189). An operation that can fault answers in `Except FaultKind`. -/

namespace Sys2Proof.Machine

/-! ### Steps, enabling, faults -/

/-- `record(e)`: append an event to the history (00 R9, R11). -/
def State.record (s : State) (e : Event) : State := { s with hist := s.hist ++ [e] }

/-- Hand a value to the caller of a value-only operation (the model's own field, log entry 6). -/
def State.yield (s : State) (v : OpResult) : State := { s with out := v }

/-- `raise Fault(k)`: add the fault bit and nothing else (00 R9, 10 R44, 60 R256). -/
def State.raise (s : State) (k : FaultKind) : State := { s with fault := s.fault.add k }

/-- End a step begun in `s`: its new state, or, when it raised a fault, `s` with that bit added and no other effect
(60 R256). -/
def commit (s : State) : Except FaultKind State → Outcome
  | .ok s' => .next s'
  | .error k => .next (s.raise k)

/-- A step with an enabling condition. A step that is not enabled waits: the state is unchanged (00 R12, log entry 10). -/
def whenEnabled (p : Bool) (s : State) (body : Except FaultKind State) : Outcome := if p then commit s body else .next s

/-- Whether the schedule lets agent `a` step: with one core, only `TX` while a transmission is in flight (44 R191). -/
def State.mayStep (s : State) (a : Agent) : Bool := a == .tx || s.cfg.cores != 1 || s.tx.phase != .tXmit

/-- Whether `now()` may return `t` to `TX`: successive reads do not decrease (20 R75). -/
def State.mayRead (s : State) (t : Nat) : Bool := decide (s.clk ≤ t)

/-- `TX` has read the time `t`. -/
def State.sawTime (s : State) (t : Nat) : State := { s with clk := t }

/-- The end of a state-changing step whose agent's phase changes. -/
def State.setTxPhase (s : State) (p : TxPhase) : State := { s with tx := { s.tx with phase := p } }

/-- Set `TX`'s strip index. -/
def State.setK (s : State) (k : Nat) : State := { s with tx := { s.tx with k := k } }

/-- Set `ING`'s phase. -/
def State.setIngPhase (s : State) (p : IngPhase) : State := { s with ing := { s.ing with phase := p } }

/-- Set `CTL`'s phase. -/
def State.setCtlPhase (s : State) (p : CtlPhase) : State := { s with ctl := { s.ctl with phase := p } }

/-! ### Taking an error and returning from it -/

/-- `abort(k)` in `I_PARSE`: record the kind and the failing record's cursor, apply nothing, skip the rest of the datagram
(45 R214, 60 R257). The return is `ing_unlock` (60 R258). -/
def State.abort (s : State) (k : ErrorKind) : State := (s.record (.abort k s.ing.c)).setIngPhase .iUnlock

/-! ### The lock -/

/-- The lock is free: the enabling condition of every acquire (44 R181). -/
def State.lockFree (s : State) : Bool := s.lk.holder == none

/-- `acquire(a)` once enabled (44 R181). -/
def State.acquire (s : State) (a : Agent) : State := { s with lk := ⟨some a⟩ }.record (.acquire a)

/-- `release(a)`: `LockMisuse` when `a` is not the holder (44 R182). -/
def State.release (s : State) (a : Agent) : Except FaultKind State :=
  if s.lk.holder = some a then .ok ({ s with lk := ⟨none⟩ }.record (.release a)) else .error .lockMisuse

/-! ### Shared state, guarded by the lock -/

/-- Access discipline: an access to the shared state by an agent that does not hold the lock raises
`AccessWithoutLock` (44 R185). -/
def State.guard (s : State) (a : Agent) : Except FaultKind Unit :=
  if s.lk.holder = some a then .ok () else .error .accessWithoutLock

/-- An indexed element; an index out of range is `Fault(Unmodelled)` (20 R60). -/
def element {α : Type} (xs : List α) (i : Nat) : Except FaultKind α :=
  match xs[i]? with
  | some x => .ok x
  | none => .error .unmodelled

/-- `n_s`, read without the lock (10 R22). -/
def State.leds (s : State) (i : Nat) : Except FaultKind Nat :=
  match s.cfg.ledCount? i with
  | some n => .ok n
  | none => .error .unmodelled

/-- `info[s]`, read without the lock (10 R22). -/
def State.info (s : State) (i : Nat) : Except FaultKind StripInfo :=
  match s.cfg.info? i with
  | some x => .ok x
  | none => .error .unmodelled

/-- Read `mode[i]` as agent `a`: first the lock, then the index (DESIGN CHOICE, log entry 24). -/
def State.readMode (s : State) (a : Agent) (i : Nat) : Except FaultKind StripMode :=
  (s.guard a).bind fun _ => element s.mode i

/-- Write `mode[i]` as agent `a`. -/
def State.writeMode (s : State) (a : Agent) (i : Nat) (m : StripMode) : Except FaultKind State :=
  (s.guard a).bind fun _ =>
    if i < s.mode.length then .ok { s with mode := s.mode.set i m } else .error .unmodelled

/-- Read the colour buffer of strip `i` as agent `a`. -/
def State.readCb (s : State) (a : Agent) (i : Nat) : Except FaultKind (List RgbaF32) :=
  (s.guard a).bind fun _ => element s.cb i

/-- Write elements `0 .. len-1` of the colour buffer of strip `i`, in index order, as agent `a` (20 R67). -/
def State.writeCb (s : State) (a : Agent) (i : Nat) (vs : List RgbaF32) : Except FaultKind State :=
  (s.guard a).bind fun _ =>
    (element s.cb i).bind fun old =>
      if vs.length ≤ old.length then .ok { s with cb := s.cb.set i (vs ++ old.drop vs.length) } else .error .unmodelled

/-- Read the effect selector as agent `a`. -/
def State.readSel (s : State) (a : Agent) : Except FaultKind Nat := (s.guard a).bind fun _ => .ok s.sel

/-- Write the effect selector as agent `a`. That any holder of the lock may, and not `CTL` alone (10 R29), is a DESIGN
CHOICE (log entry 23). -/
def State.writeSel (s : State) (a : Agent) (k : Nat) : Except FaultKind State :=
  (s.guard a).bind fun _ => .ok { s with sel := k }

/-! ### The transmit path, owned by `TX` -/

/-- Ownership: an access to the transmit path by `ING` or `CTL` raises `OwnershipViolation` (44 R189). -/
def owned (a : Agent) : Except FaultKind Unit := if a = .tx then .ok () else .error .ownershipViolation

/-- Read the cursor of strip `i`: first the owner, then the index (DESIGN CHOICE, log entry 24). -/
def State.readCur (s : State) (a : Agent) (i : Nat) : Except FaultKind Nat := (owned a).bind fun _ => element s.tx.cur i

/-- The state with other transmit buffers and cursors. -/
def State.withEncoders (s : State) (tb : List (List Symbol)) (cur : List Nat) : State :=
  { s with tx := { s.tx with tb := tb, cur := cur } }

/-- Write the cursor of strip `i`: first the owner, then the index (DESIGN CHOICE, log entry 24). -/
def State.writeCur (s : State) (a : Agent) (i c : Nat) : Except FaultKind State :=
  (owned a).bind fun _ =>
    if i < s.tx.cur.length then .ok (s.withEncoders s.tx.tb (s.tx.cur.set i c)) else .error .unmodelled

/-- A list with the elements from index `at` on replaced by `ys`, as many as `ys` has. -/
def splice {α : Type} (xs : List α) (start : Nat) (ys : List α) : List α :=
  xs.take start ++ ys ++ xs.drop (start + ys.length)

/-- Write the slots `c .. c + len - 1` of the transmit buffer of strip `i`. -/
def State.writeTb (s : State) (a : Agent) (i c : Nat) (ys : List Symbol) : Except FaultKind State :=
  (owned a).bind fun _ =>
    (element s.tx.tb i).bind fun old =>
      if c + ys.length ≤ old.length then .ok (s.withEncoders (s.tx.tb.set i (splice old c ys)) s.tx.cur)
      else .error .unmodelled

/-- The slots `0 .. m - 1` of the transmit buffer of strip `i`. -/
def State.readTb (s : State) (a : Agent) (i m : Nat) : Except FaultKind (List Symbol) :=
  (owned a).bind fun _ =>
    (element s.tx.tb i).bind fun ys => if m ≤ ys.length then .ok (ys.take m) else .error .unmodelled

/-- `HW.transmit(ys)`: hand a sequence to the transmitter (43 R155, 60 R265). -/
def State.transmit (s : State) (ys : List Symbol) : State := { s with hw := some ys }

/-- `HW` has reported completion of the submission in flight, exactly once (43 R165). -/
def State.completed (s : State) : State := { s with hw := none }

/-! ### Configuration check -/

/-- A symbol half's duration is admissible (60 R252). -/
def durationOk (cfg : Config) (d : Nat) : Bool := decide (1 ≤ d) && decide (d ≤ cfg.durMax)

/-- The configuration passes every check of 60 R252; otherwise it is a ConfigurationError. -/
def configValid (cfg : Config) : Bool :=
  decide (cfg.nStrips ≤ 256)
    && cfg.strips.all (fun sc => decide (sc.info.ledCount ≤ cfg.maxLeds))
    && decide (1 ≤ cfg.nEffects)
    && durationOk cfg cfg.t0h && durationOk cfg cfg.t0l && durationOk cfg cfg.t1h && durationOk cfg cfg.t1l
    && !(cfg.t0h == cfg.t1h && cfg.t0l == cfg.t1l)
    && (cfg.cores == 1 || cfg.cores == 2)

end Sys2Proof.Machine
end

