-- ==== Sys2Proof/Machine/Operands.lean ====
section
/-! DEFINITION. The operand forms of the ports' commands: the target check (spec 45 R204), the length check (R206), the end of
an applied record (R213, R217), and the selector arithmetic (46 R234 to R237). -/

namespace Sys2Proof.Machine

/-- `ING` may take its parse step (45 R200, 44 R191). -/
def State.parsing (s : State) : Bool := s.mayStep .ing && s.ing.phase == .iParse

/-- `CTL` may take its apply step (46 R230, 44 R191). -/
def State.applying (s : State) : Bool := s.mayStep .ctl && s.ctl.phase == .cApply

/-- A mode that streamed data may write to (45 R204). -/
def acceptsData : StripMode → Bool
  | .off => false
  | .effects => false
  | .dynamic => true
  | .hybrid => true

/-- Target validation, first the range and then the mode, read under the lock (45 R204, 60 R259). A record that fails it
aborts with ProtocolRangeError; otherwise `body` runs with `n_tgt`. -/
def onTarget (s : State) (tgt : Byte) (body : Nat → Except FaultKind State) : Except FaultKind State :=
  match s.cfg.ledCount? tgt.toNat with
  | none => .ok (s.abort .protocolRangeError)
  | some n =>
    (s.readMode .ing tgt.toNat).bind fun m => if acceptsData m then body n else .ok (s.abort .protocolRangeError)

/-- The end of an applied record: history, cursor past `need` payload bytes (45 R203, R213), and under PerRecord the lock
released before the next record (R217). -/
def State.endRecord (s : State) (cmd tgt : Byte) (need : Nat) : Except FaultKind State :=
  let s1 := s.record (.apply cmd tgt)
  let s2 := { s1 with ing := { s1.ing with c := s1.ing.c + 2 + need } }
  match s.cfg.atomicity with
  | .perDatagram => .ok s2
  | .perRecord => (s2.release .ing).bind fun s3 => .ok (s3.setIngPhase .iLock)

/-- Length check and application of a record whose payload is `avail` bytes and that needs `need` (45 R206 to R209). -/
def State.applyRecord (s : State) (cmd tgt : Byte) (need avail : Nat) (vs : List RgbaF32) : Except FaultKind State :=
  if avail < need then .ok (s.abort .transportError)
  else (s.writeCb .ing tgt.toNat vs).bind fun s1 => s1.endRecord cmd tgt need

/-- The selector after a move by `d`, with Euclidean wraparound (46 R234). -/
def shiftedSel (sel : Nat) (d : Int) (n : Nat) : Nat := (((sel : Int) + d) % (n : Int)).toNat

end Sys2Proof.Machine
end

