-- ==== Sys2Proof/Machine/Binary32.lean ====
section
/-! DEFINITION. IEEE 754 binary32 arithmetic, round to nearest, ties to even (spec 00 R13), computed exactly on integers
and rounded once. Every finite binary32 value is a whole number of units of 2^-149. -/

namespace Sys2Proof.Machine

/-- The sign bit. -/
def F32.neg (x : F32) : Bool := x.msb

/-- The 8-bit biased exponent field. -/
def F32.expo (x : F32) : Nat := x.toNat / 2 ^ 23 % 256

/-- The 23-bit fraction field. -/
def F32.frac (x : F32) : Nat := x.toNat % 2 ^ 23

/-- Not a number. -/
def F32.isNaN (x : F32) : Bool := F32.expo x == 255 && F32.frac x != 0

/-- Plus or minus infinity. -/
def F32.isInf (x : F32) : Bool := F32.expo x == 255 && F32.frac x == 0

/-- A finite value: neither infinite nor a NaN. -/
def F32.isFinite (x : F32) : Bool := F32.expo x != 255

/-- The magnitude of a finite value in units of 2^-149. -/
def F32.mag (x : F32) : Nat :=
  if F32.expo x = 0 then F32.frac x else (2 ^ 23 + F32.frac x) * 2 ^ (F32.expo x - 1)

/-- A finite value as a signed whole number of units of 2^-149. -/
def F32.units (x : F32) : Int := if F32.neg x then -(F32.mag x : Int) else F32.mag x

/-- Units of 2^-149 in 1.0. -/
def F32.oneUnits : Nat := 2 ^ 149

/-- A sign and the 31 magnitude bits. -/
def F32.pack (neg : Bool) (bits : Nat) : F32 := BitVec.ofNat 32 (bits + if neg then 2 ^ 31 else 0)

/-- `n / d` rounded to a whole number, ties to even. -/
def roundTiesEven (n d : Nat) : Nat :=
  let q := n / d
  let r := n % d
  if d < 2 * r ∨ (2 * r = d ∧ q % 2 = 1) then q + 1 else q

/-- The magnitude bits of the binary32 value nearest to `n / d` units, ties to even; a magnitude past the largest
finite one gives the bits of infinity. Below 2^24 units the bits are the count itself; each doubling above adds 2^23. -/
def roundBits (n d : Nat) : Nat :=
  let k := Nat.log2 (n / d) - 23
  min (k * 2 ^ 23 + roundTiesEven n (d * 2 ^ k)) 0x7F800000

/-- The binary32 value nearest to `n / d` units of 2^-149, with the given sign. -/
def F32.round (neg : Bool) (n d : Nat) : F32 := F32.pack neg (roundBits n d)

/-- The NaN an operation yields: quiet, its sign and payload a free value (log entry 8). -/
def F32.freeNaN (op : Nat) (x y : F32) : F32 :=
  let bits := Config.nanBits op x y
  (0x7FC00000 ||| ((bits.extractLsb' 0 22).zeroExtend 32)) ||| ((bits.extractLsb' 22 1).zeroExtend 32 <<< 31)

/-- Plus or minus infinity. -/
def F32.inf (neg : Bool) : F32 := F32.pack neg 0x7F800000

/-- `fadd` on two finite values: the exact sum rounded once. An exact zero is -0 only when both addends are -0. -/
def F32.addFinite (x y : F32) : F32 :=
  let z := F32.units x + F32.units y
  if z = 0 then F32.pack (F32.neg x && F32.neg y) 0 else F32.round (decide (z < 0)) z.natAbs 1

/-- `fadd`, with `op` naming the operation for a free NaN. -/
def F32.addAs (op : Nat) (x y : F32) : F32 :=
  if F32.isNaN x || F32.isNaN y then F32.freeNaN op x y
  else if F32.isInf x then
    if F32.isInf y && F32.neg x != F32.neg y then F32.freeNaN op x y else x
  else if F32.isInf y then y
  else F32.addFinite x y

/-- `fadd` (00 R13). -/
def fadd (x y : F32) : F32 := F32.addAs 0 x y

/-- The sign bit flipped. -/
def F32.negate (x : F32) : F32 := x ^^^ 0x80000000

/-- `fsub` (00 R13): the sum with the second operand's sign flipped. -/
def fsub (x y : F32) : F32 := F32.addAs 1 x (F32.negate y)

/-- `fmul` (00 R13): the exact product is a whole number of units of 2^-298. -/
def fmul (x y : F32) : F32 :=
  let neg := F32.neg x != F32.neg y
  if F32.isNaN x || F32.isNaN y then F32.freeNaN 2 x y
  else if F32.isInf x || F32.isInf y then
    if (F32.isFinite x && F32.mag x == 0) || (F32.isFinite y && F32.mag y == 0) then F32.freeNaN 2 x y
    else F32.inf neg
  else F32.round neg (F32.mag x * F32.mag y) F32.oneUnits

/-- `fdiv` (00 R13). A finite non-zero value over zero is infinite; 0/0 and inf/inf are NaN. -/
def fdiv (x y : F32) : F32 :=
  let neg := F32.neg x != F32.neg y
  if F32.isNaN x || F32.isNaN y then F32.freeNaN 3 x y
  else if F32.isInf x then
    if F32.isInf y then F32.freeNaN 3 x y else F32.inf neg
  else if F32.isInf y then F32.pack neg 0
  else if F32.mag y = 0 then
    if F32.mag x = 0 then F32.freeNaN 3 x y else F32.inf neg
  else F32.round neg (F32.mag x * F32.oneUnits) (F32.mag y)

/-- `f32(n)`: a natural number as binary32, exact for `n <= 255` (00 R13). -/
def f32 (n : Nat) : F32 := F32.round false (n * F32.oneUnits) 1

/-- `roundTiesAway` of the magnitude of a finite value: the nearest whole number, a half going up (00 R13). -/
def F32.roundMagTiesAway (x : F32) : Nat := (2 * F32.mag x + F32.oneUnits) / (2 * F32.oneUnits)

/-- `roundTiesAway` of a finite value (00 R13). -/
def roundTiesAway (x : F32) : Int :=
  if F32.neg x then -(F32.roundMagTiesAway x : Int) else F32.roundMagTiesAway x

end Sys2Proof.Machine
end

