-- ==== Sys2Proof/Machine/ColorDatapath.lean ====
section
/-! DEFINITION. The colour datapath operations (spec 40): each is a function on values, and its instruction hands the
value to the caller through `State.out` and changes nothing else. -/

namespace Sys2Proof.Machine

/-- 1.0 in binary32. -/
def fone : F32 := 0x3F800000

/-- 255.0 in binary32. -/
def f255 : F32 := 0x437F0000

/-- `b2f(c)`: byte to channel (40 R100). -/
def b2f (c : Byte) : F32 := fdiv (f32 c.toNat) f255

/-- `rgba_new`: premultiplying constructor (40 R101). -/
def rgbaNew (r g b a : F32) : RgbaF32 := ⟨fmul r a, fmul g a, fmul b a, a⟩

/-- `rgba_new_premultiplied`: raw constructor (40 R102). -/
def rgbaNewPremultiplied (r g b a : F32) : RgbaF32 := ⟨r, g, b, a⟩

/-- `from_rgb8`: an opaque colour from an encoder pixel (40 R103). -/
def fromRgb8 (p : Rgb8) : RgbaF32 := ⟨b2f p.r, b2f p.g, b2f p.b, fone⟩

/-- `blend_over`: premultiplied-over compositing, `fsub` then `fmul` then `fadd` (40 R104). -/
def blendOver (fg bg : RgbaF32) : RgbaF32 :=
  let t := fsub fone fg.a
  ⟨fadd fg.r (fmul bg.r t), fadd fg.g (fmul bg.g t), fadd fg.b (fmul bg.b t), fadd fg.a (fmul bg.a t)⟩

/-- `min(255, max(0, roundTiesAway(y)))` of a non-NaN value; an infinity clamps like any value beyond the range
(40 R105). -/
def clampByte (y : F32) : Byte :=
  if F32.isInf y then (if F32.neg y then 0 else 255)
  else BitVec.ofNat 8 (min 255 (max 0 (roundTiesAway y))).toNat

/-- `to_byte`: channel to byte; a NaN has no value (40 R105, R107). -/
def toByte (x : F32) : Option Byte := if F32.isNaN x then none else some (clampByte (fmul x f255))

/-- `to_rgb8`: colour to encoder pixel, alpha dropped (40 R106). -/
def toRgb8 (v : RgbaF32) : Option Rgb8 :=
  match toByte v.r, toByte v.g, toByte v.b with
  | some r, some g, some b => some ⟨r, g, b⟩
  | _, _, _ => none

/-- R100. -/
def execB2f (c : Byte) (s : State) : Outcome := .next (s.yield (.channel (b2f c)))

/-- R101. -/
def execRgbaNew (r g b a : F32) (s : State) : Outcome := .next (s.yield (.colour (rgbaNew r g b a)))

/-- R102. -/
def execRgbaNewPremultiplied (r g b a : F32) (s : State) : Outcome :=
  .next (s.yield (.colour (rgbaNewPremultiplied r g b a)))

/-- R103. -/
def execFromRgb8 (p : Rgb8) (s : State) : Outcome := .next (s.yield (.colour (fromRgb8 p)))

/-- R104. -/
def execBlendOver (fg bg : RgbaF32) (s : State) : Outcome := .next (s.yield (.colour (blendOver fg bg)))

/-- R105; a NaN raises `Fault(Unmodelled)` (R107). -/
def execToByte (x : F32) (s : State) : Outcome :=
  commit s (match toByte x with
    | some b => .ok (s.yield (.byte b))
    | none => .error .unmodelled)

/-- R106; a NaN channel raises `Fault(Unmodelled)` (R107). -/
def execToRgb8 (v : RgbaF32) (s : State) : Outcome :=
  commit s (match toRgb8 v with
    | some p => .ok (s.yield (.pixel p))
    | none => .error .unmodelled)

end Sys2Proof.Machine
end

