-- ==== Sys2Proof/Machine/Encoder.lean ====
section
/-! DEFINITION. The LED protocol bit encoder (spec 42). -/

namespace Sys2Proof.Machine

/-- `encode_bit` (42 R131). -/
def encodeBit (cfg : Config) (b : Bool) : Symbol := if b then cfg.hi else cfg.lo

/-- The bits of a byte, most significant first (20 R65). -/
def bitsMsbFirst (v : Byte) : List Bool :=
  [v.getLsbD 7, v.getLsbD 6, v.getLsbD 5, v.getLsbD 4, v.getLsbD 3, v.getLsbD 2, v.getLsbD 1, v.getLsbD 0]

/-- `encode_byte` (42 R132). -/
def encodeByte (cfg : Config) (v : Byte) : List Symbol := (bitsMsbFirst v).map (encodeBit cfg)

/-- The channels of a pixel in wire order (20 R65, 42 R135). -/
def wireChannels (w : WireOrder) (p : Rgb8) : List Byte :=
  match w with
  | .rgb => [p.r, p.g, p.b]
  | .rbg => [p.r, p.b, p.g]
  | .grb => [p.g, p.r, p.b]
  | .gbr => [p.g, p.b, p.r]
  | .brg => [p.b, p.r, p.g]
  | .bgr => [p.b, p.g, p.r]

/-- The 24 symbols of one colour (42 R135). -/
def encodeColor (cfg : Config) (p : Rgb8) : List Symbol := (wireChannels cfg.wireOrder p).flatMap (encodeByte cfg)

/-- `construct(i)`: build strip `i`'s encoder; its unwritten slots are free values of this draw (42 R133). -/
def construct (i : Nat) (s : State) : Except FaultKind State :=
  (s.leds i).bind fun n =>
    (s.writeCur .tx i 0).bind fun s1 =>
      if i < s.tx.tb.length then
        .ok { s1.withEncoders (s1.tx.tb.set i (freshBuffer s.cfg s.draws n)) s1.tx.cur with draws := s.draws + 1 }
      else .error .unmodelled

/-- `flush(i)` by agent `a`: the cursor goes to 0, no slot changes (42 R134). -/
def flush (a : Agent) (i : Nat) (s : State) : Except FaultKind State := s.writeCur a i 0

/-- `write_color(i, p)` by agent `a`: 24 symbols at the cursor, which moves by 24; `EncoderOverflow` when they would
reach the sentinel slot (42 R135, R136). -/
def writeColor (a : Agent) (i : Nat) (p : Rgb8) (s : State) : Except FaultKind State :=
  (s.readCur a i).bind fun c =>
    (s.leds i).bind fun n =>
      if 24 * n < c + 24 then .error .encoderOverflow
      else (s.writeTb a i c (encodeColor s.cfg p)).bind fun s1 => s1.writeCur a i (c + 24)

/-- `write_color` for each pixel in turn (41 R123). -/
def writeColors (a : Agent) (i : Nat) : List Rgb8 → State → Except FaultKind State
  | [], s => .ok s
  | p :: ps, s => (writeColor a i p s).bind (writeColors a i ps)

/-- R131. -/
def execEncodeBit (b : Bool) (s : State) : Outcome := .next (s.yield (.symbol (encodeBit s.cfg b)))

/-- R132. -/
def execEncodeByte (v : Byte) (s : State) : Outcome := .next (s.yield (.symbols (encodeByte s.cfg v)))

/-- R133. -/
def execConstruct (i : Nat) (s : State) : Outcome := commit s (construct i s)

/-- R134. -/
def execFlush (a : Agent) (i : Nat) (s : State) : Outcome := commit s (flush a i s)

/-- R135, R136. -/
def execWriteColor (a : Agent) (i : Nat) (p : Rgb8) (s : State) : Outcome := commit s (writeColor a i p s)

end Sys2Proof.Machine
end

