-- ==== Sys2Proof/Machine/Render.lean ====
section
/-! DEFINITION. Per-strip render composition (spec 41) and strip eligibility (43 R159). -/

namespace Sys2Proof.Machine

/-- `EFFECT(k, info, tms)`: exactly `ledCount` pixels of the uninterpreted effect (00 R10, 41 R121). -/
def effect (k : Nat) (info : StripInfo) (tms : Nat) : List Rgb8 :=
  (List.range info.ledCount).map (Config.effectPixel k info tms)

/-- Whether a mode starts from the active effect's output (41 R121). -/
def usesEffect : StripMode → Bool
  | .off => false
  | .effects => true
  | .dynamic => false
  | .hybrid => true

/-- Whether a mode blends the colour buffer over the working buffer (41 R122). -/
def usesBuffer : StripMode → Bool
  | .off => false
  | .effects => false
  | .dynamic => true
  | .hybrid => true

/-- `tms`, the iteration's start time in milliseconds (43 R160). -/
def iterMillis (s : State) : Nat := s.tx.tIter / 1000

/-- `current_effect()` by agent `a` (46 R238). -/
def currentEffect (a : Agent) (s : State) : Except FaultKind Nat := s.readSel a

/-- The working buffer before blending (41 R121). -/
def workingBuffer (a : Agent) (m : StripMode) (info : StripInfo) (s : State) : Except FaultKind (List Rgb8) :=
  if usesEffect m then (currentEffect a s).bind fun k => .ok (effect k info (iterMillis s))
  else .ok (List.replicate info.ledCount ⟨0, 0, 0⟩)

/-- One blended pixel; a NaN channel is `Fault(Unmodelled)` (41 R122, 40 R107). -/
def blendPixel (c : RgbaF32) (p : Rgb8) : Except FaultKind Rgb8 :=
  match toRgb8 (blendOver c (fromRgb8 p)) with
  | some q => .ok q
  | none => .error .unmodelled

/-- The blend step over a working buffer (41 R122); a colour buffer shorter than it is `Fault(Unmodelled)` (20 R60). -/
def blendPixels : List RgbaF32 → List Rgb8 → Except FaultKind (List Rgb8)
  | _, [] => .ok []
  | [], _ :: _ => .error .unmodelled
  | c :: cs, p :: ps => (blendPixel c p).bind fun q => (blendPixels cs ps).bind fun qs => .ok (q :: qs)

/-- The pixels handed to the encoder for strip `i` in mode `m` (41 R120, R125). -/
def composeStrip (a : Agent) (i : Nat) (m : StripMode) (s : State) : Except FaultKind (List Rgb8) :=
  (s.info i).bind fun info =>
    (workingBuffer a m info s).bind fun w =>
      if usesBuffer m then (s.readCb a i).bind fun c => blendPixels c w else .ok w

/-- `render_strip(i)` by agent `a`: compose, flush, and write every pixel in order (41 R120, R123). -/
def renderStrip (a : Agent) (i : Nat) (s : State) : Except FaultKind State :=
  (s.readMode a i).bind fun m =>
    (composeStrip a i m s).bind fun w => (flush a i s).bind (writeColors a i w)

/-- Eligibility: LEDs, a mode other than `Off`, read under the lock, and not degraded (43 R159). An index that no strip
has is found before a missing lock (DESIGN CHOICE, log entry 24). -/
def eligible (a : Agent) (i : Nat) (s : State) : Except FaultKind Bool :=
  (s.leds i).bind fun n =>
    (s.readMode a i).bind fun m =>
      (getFlag i s.tx.degraded).bind fun d => .ok (decide (1 ≤ n) && m != .off && !d)

/-- `render_strip` for an eligible strip; a strip that is not eligible is not rendered (41 R120 precondition, R124). -/
def renderIfEligible (a : Agent) (i : Nat) (s : State) : Except FaultKind State :=
  (eligible a i s).bind fun e => if e then renderStrip a i s else .ok s

/-- R120. -/
def execRenderStrip (a : Agent) (i : Nat) (s : State) : Outcome := commit s (renderIfEligible a i s)

end Sys2Proof.Machine
end

