-- ==== Sys2Proof/Machine/Control.lean ====
section
/-! DEFINITION. The control port and the effect selector (spec 46): the messages R233 and R234, each the apply step of
`CTL`, the port's own steps R231, R232, R240, and the selector operations R235 to R238. -/

namespace Sys2Proof.Machine

/-- The effect of SetStripMode: an index that no strip has changes nothing and raises nothing (46 R233). -/
def applySetStripMode (idx : Byte) (m : StripMode) (s : State) : Except FaultKind State :=
  if idx.toNat < s.cfg.nStrips then
    (s.writeMode .ctl idx.toNat m).bind fun s1 => .ok ((s1.record (.mode idx.toNat m)).setCtlPhase .cUnlock)
  else .ok (s.setCtlPhase .cUnlock)

/-- The selector moved by `d`, by agent `a` (46 R234). -/
def shiftSel (a : Agent) (d : Int) (s : State) : Except FaultKind State :=
  (s.readSel a).bind fun k => s.writeSel a (shiftedSel k d s.cfg.nEffects)

/-- The effect of ShiftEffectMode (46 R234). -/
def applyShiftEffectMode (delta : Byte) (s : State) : Except FaultKind State :=
  (shiftSel .ctl (int8 delta) s).bind fun s1 => .ok ((s1.record (.select s1.sel)).setCtlPhase .cUnlock)

/-- `next_effect` by agent `a`, any holder of the lock (46 R235; log entry 23). -/
def nextEffect (a : Agent) (s : State) : Except FaultKind State :=
  (s.readSel a).bind fun k => s.writeSel a ((k + 1) % s.cfg.nEffects)

/-- `prev_effect` by agent `a`, any holder of the lock (46 R236; log entry 23). -/
def prevEffect (a : Agent) (s : State) : Except FaultKind State :=
  (s.readSel a).bind fun k => s.writeSel a (if k = 0 then s.cfg.nEffects - 1 else k - 1)

/-- `set_effect(k)` by agent `a`, any holder of the lock (46 R237; log entry 23). -/
def setEffect (a : Agent) (k : Nat) (s : State) : Except FaultKind State := s.writeSel a (k % s.cfg.nEffects)

/-- R233, on its operands, whatever `msg` holds (DESIGN CHOICE, log entry 25). -/
def execSsm (idx : Byte) (m : StripMode) (s : State) : Outcome := whenEnabled s.applying s (applySetStripMode idx m s)

/-- R234, on its operand, whatever `msg` holds (DESIGN CHOICE, log entry 25). -/
def execSem (delta : Byte) (s : State) : Outcome := whenEnabled s.applying s (applyShiftEffectMode delta s)

/-- The effect of `ctl_receive`: a message that does not decode is dropped (46 R231, R239). -/
def ctlReceive (bytes : List Byte) (s : State) : State :=
  match decodeControlMsg bytes with
  | .ok m => { s with ctl := ⟨.cLock, some m⟩ }
  | .error _ => s

/-- R231. -/
def execCtlReceive (bytes : List Byte) (s : State) : Outcome :=
  whenEnabled (s.mayStep .ctl && s.ctl.phase == .cIdle) s (.ok (ctlReceive bytes s))

/-- R232. -/
def execCtlLock (s : State) : Outcome :=
  whenEnabled (s.mayStep .ctl && s.ctl.phase == .cLock && s.lockFree) s (.ok ((s.acquire .ctl).setCtlPhase .cApply))

/-- R240. -/
def execCtlUnlock (s : State) : Outcome :=
  whenEnabled (s.mayStep .ctl && s.ctl.phase == .cUnlock) s
    ((s.release .ctl).bind fun s1 => .ok { s1 with ctl := ⟨.cIdle, none⟩ })

/-- R235. -/
def execNextEffect (a : Agent) (s : State) : Outcome := commit s (nextEffect a s)

/-- R236. -/
def execPrevEffect (a : Agent) (s : State) : Outcome := commit s (prevEffect a s)

/-- R237. -/
def execSetEffect (a : Agent) (k : Nat) (s : State) : Outcome := commit s (setEffect a k s)

/-- R238. -/
def execCurrentEffect (a : Agent) (s : State) : Outcome :=
  commit s ((currentEffect a s).bind fun k => .ok (s.yield (.index k)))

end Sys2Proof.Machine
end

