-- ==== Sys2Proof/Machine/Ingestion.lean ====
section
/-! DEFINITION. The datagram ingestion port (spec 45): the record commands R207 to R212, each one parse step of `ING`, and the
port's own steps R201, R202, R203, R215. -/

namespace Sys2Proof.Machine

/-- An opaque colour from an RGB triple (45 R207, R208). -/
def opaqueColour (p : Rgb8) : RgbaF32 := rgbaNew (b2f p.r) (b2f p.g) (b2f p.b) fone

/-- A premultiplied colour from an RGBA quad (45 R209). -/
def alphaColour (p : Rgba8) : RgbaF32 := rgbaNew (b2f p.r) (b2f p.g) (b2f p.b) (b2f p.a)

/-- The body of SetBufferToMany for a target of `n` LEDs (45 R207). Payload past `need` is not examined (R206). -/
def storeMany (tgt : Byte) (px : List Rgb8) (s : State) : Except FaultKind State :=
  onTarget s tgt fun n => s.applyRecord 0 tgt (3 * n) (3 * px.length) ((px.take n).map opaqueColour)

/-- The body of SetBufferToSingle (45 R208). -/
def storeSingle (tgt : Byte) (p : Rgb8) (s : State) : Except FaultKind State :=
  onTarget s tgt fun n => s.applyRecord 1 tgt 3 3 (List.replicate n (opaqueColour p))

/-- The body of SetBufferToManyAlpha (45 R209). -/
def storeManyAlpha (tgt : Byte) (px : List Rgba8) (s : State) : Except FaultKind State :=
  onTarget s tgt fun n => s.applyRecord 3 tgt (4 * n) (4 * px.length) ((px.take n).map alphaColour)

/-- A reserved or unrecognised command: after the target check it aborts with TransportError (45 R210 to R212). -/
def unknownCommand (tgt : Byte) (s : State) : Except FaultKind State := onTarget s tgt fun _ => .ok (s.abort .transportError)

/-- R207. -/
def execSbm (tgt : Byte) (px : List Rgb8) (s : State) : Outcome := whenEnabled s.parsing s (storeMany tgt px s)

/-- R208. -/
def execSbs (tgt : Byte) (p : Rgb8) (s : State) : Outcome := whenEnabled s.parsing s (storeSingle tgt p s)

/-- R209. -/
def execSbma (tgt : Byte) (px : List Rgba8) (s : State) : Outcome := whenEnabled s.parsing s (storeManyAlpha tgt px s)

/-- R210. -/
def execRsv2 (tgt : Byte) (s : State) : Outcome := whenEnabled s.parsing s (unknownCommand tgt s)

/-- R211. -/
def execRsv4 (tgt : Byte) (s : State) : Outcome := whenEnabled s.parsing s (unknownCommand tgt s)

/-- R212, for a command code that is none of 0, 1 and 3. -/
def execUnrec (_cmd tgt : Byte) (s : State) : Outcome := whenEnabled s.parsing s (unknownCommand tgt s)

/-- The meaning of a decoded record: the case of the parse step it stands for (45 R203). The records run on their operands,
whatever bytes stand at the cursor (DESIGN CHOICE, log entry 25). -/
def execRecord (r : Record) (s : State) : Outcome :=
  match r with
  | .sbm tgt px => execSbm tgt px s
  | .sbs tgt p => execSbs tgt p s
  | .rsv2 tgt => execRsv2 tgt s
  | .sbma tgt px => execSbma tgt px s
  | .rsv4 tgt => execRsv4 tgt s
  | .unrec cmd tgt => execUnrec cmd tgt s

/-- The bytes of the datagram from the cursor on (45 R203). -/
def State.remaining (s : State) : List Byte := s.ing.dg.drop s.ing.c

/-- The parse step when no whole record stands at the cursor: the datagram has ended (45 R203), or the record aborts. -/
def parseFailure (e : DecodeError) (s : State) : Except FaultKind State :=
  match e with
  | .tooShort => .ok (s.setIngPhase .iUnlock)
  | .targetOutOfRange => .ok (s.abort .protocolRangeError)
  | .shortPayload tgt => onTarget s tgt fun _ => .ok (s.abort .transportError)
  | .unknownType => .error .unmodelled
  | .badLength => .error .unmodelled
  | .badMode => .error .unmodelled

/-- R201. -/
def execIngReceive (bytes : List Byte) (s : State) : Outcome :=
  whenEnabled (s.mayStep .ing && s.ing.phase == .iIdle && decide (bytes.length ≤ s.cfg.maxDgram)) s
    (.ok { s with ing := ⟨.iLock, bytes, 0⟩ })

/-- R202. -/
def execIngLock (s : State) : Outcome :=
  whenEnabled (s.mayStep .ing && s.ing.phase == .iLock && s.lockFree) s (.ok ((s.acquire .ing).setIngPhase .iParse))

/-- R203: decode the record at the cursor and run it, or end the datagram. -/
def execIngParse (s : State) : Outcome :=
  match decodeRecordHead s.cfg s.remaining with
  | .ok (r, _) => execRecord r s
  | .error e => whenEnabled s.parsing s (parseFailure e s)

/-- R215. -/
def execIngUnlock (s : State) : Outcome :=
  whenEnabled (s.mayStep .ing && s.ing.phase == .iUnlock) s
    ((s.release .ing).bind fun s1 => .ok { s1 with ing := ⟨.iIdle, [], 0⟩ })

end Sys2Proof.Machine
end

