-- ==== Sys2Proof/Machine/LockSteps.lean ====
section
/-! DEFINITION. The lock's two operations as instructions (spec 44). -/

namespace Sys2Proof.Machine

/-- R181; enabled only when the lock is free. -/
def execAcquire (a : Agent) (s : State) : Outcome := whenEnabled s.lockFree s (.ok (s.acquire a))

/-- R182. -/
def execRelease (a : Agent) (s : State) : Outcome := commit s (s.release a)

end Sys2Proof.Machine
end

