-- ==== Sys2Proof/Machine/Transmit.lean ====
section
/-! DEFINITION. The real-time transmission controller (spec 43): one meaning per step R151 to R158. `t` is the value the
step's `now()` read returns. -/

namespace Sys2Proof.Machine

/-- `TX` is in phase `p`. -/
def State.txAt (s : State) (p : TxPhase) : Bool := s.tx.phase == p

/-- The wait of 43 R157, in µs. -/
def latchWait (cfg : Config) (tFirst : Option Nat) (t : Nat) : Nat :=
  match tFirst with
  | none => cfg.fallbackUs
  | some f => sat ((cfg.latchUs : Int) - ((t : Int) - (f : Int)))

/-- The effect of `tx_render` (43 R153). -/
def txRender (s : State) : Except FaultKind State :=
  if s.tx.k < s.cfg.nStrips then
    (eligible .tx s.tx.k s).bind fun e =>
      if e then
        (renderStrip .tx s.tx.k s).bind fun s1 =>
          (setFlag s.tx.k s1.tx.rendered).bind fun fl =>
            .ok ({ s1 with tx := { s1.tx with rendered := fl } }.setK (s.tx.k + 1))
      else .ok (s.setK (s.tx.k + 1))
  else .ok (s.setTxPhase .tUnlock)

/-- The effect of `tx_submit` (43 R155). -/
def txSubmit (s : State) : Except FaultKind State :=
  match leastSet s.tx.k s.cfg.nStrips s.tx.rendered with
  | some i =>
    (s.leds i).bind fun n =>
      (s.readTb .tx i (24 * n + 1)).bind fun ys =>
        .ok (((s.setK i).record (.submit i (24 * n + 1))).transmit ys |>.setTxPhase .tXmit)
  | none => .ok (s.setTxPhase .tWaitcalc)

/-- The effect of `tx_complete` (43 R156): the first completion's time is kept, a failure degrades the strip. -/
def txComplete (ok : Bool) (t : Nat) (s : State) : Except FaultKind State :=
  (if ok then .ok s.tx.degraded else setFlag s.tx.k s.tx.degraded).bind fun dg =>
    let s1 := { s.sawTime t with tx := { s.tx with tFirst := some (s.tx.tFirst.getD t), degraded := dg } }
    .ok (((s1.record (.complete s.tx.k ok t)).setK (s.tx.k + 1)).completed.setTxPhase .tSubmit)

/-- R151. -/
def execTxStart (t : Nat) (s : State) : Outcome :=
  whenEnabled (s.txAt .tStart && s.mayRead t) s
    (.ok { s.sawTime t with
      tx := { s.tx with tIter := t, rendered := clearFlags s.tx.rendered, tFirst := none, k := 0, phase := .tLock } })

/-- R152. -/
def execTxLock (s : State) : Outcome :=
  whenEnabled (s.txAt .tLock && s.lockFree) s (.ok (((s.acquire .tx).setK 0).setTxPhase .tRender))

/-- R153. -/
def execTxRender (s : State) : Outcome := whenEnabled (s.txAt .tRender) s (txRender s)

/-- R154. -/
def execTxUnlock (s : State) : Outcome :=
  whenEnabled (s.txAt .tUnlock) s ((s.release .tx).bind fun s1 => .ok ((s1.setK 0).setTxPhase .tSubmit))

/-- R155. -/
def execTxSubmit (s : State) : Outcome := whenEnabled (s.txAt .tSubmit) s (txSubmit s)

/-- R156; enabled only while `HW` has a submission to report on. -/
def execTxComplete (ok : Bool) (t : Nat) (s : State) : Outcome :=
  whenEnabled (s.txAt .tXmit && s.hw.isSome && s.mayRead t) s (txComplete ok t s)

/-- R157. -/
def execTxWaitcalc (t : Nat) (s : State) : Outcome :=
  whenEnabled (s.txAt .tWaitcalc && s.mayRead t) s
    (.ok { s.sawTime t with
      tx := { s.tx with deadline := t + latchWait s.cfg s.tx.tFirst t, phase := .tSleep } })

/-- R158; enabled only by a time read at or past the deadline. -/
def execTxWake (t : Nat) (s : State) : Outcome :=
  whenEnabled (s.txAt .tSleep && s.mayRead t && decide (s.tx.deadline ≤ t)) s
    (.ok (((s.sawTime t).record (.wake t)).setTxPhase .tStart))

end Sys2Proof.Machine
end

