-- ==== Sys2Proof/Machine/Dispatch.lean ====
section
/-! DEFINITION. The dispatch: one arm per constructor of `Instr`. -/

namespace Sys2Proof.Machine

def exec (i : Instr) (s : State) : Host.Outcome State Fault Refusal :=
  match i with
  -- datagram records
  | .sbm tgt px => Sys2Proof.Machine.execSbm tgt px s
  | .sbs tgt p => Sys2Proof.Machine.execSbs tgt p s
  | .rsv2 tgt => Sys2Proof.Machine.execRsv2 tgt s
  | .sbma tgt px => Sys2Proof.Machine.execSbma tgt px s
  | .rsv4 tgt => Sys2Proof.Machine.execRsv4 tgt s
  | .unrec cmd tgt => Sys2Proof.Machine.execUnrec cmd tgt s
  -- control messages
  | .ssm idx m => Sys2Proof.Machine.execSsm idx m s
  | .sem delta => Sys2Proof.Machine.execSem delta s
  -- bit encoder
  | .encodeBit b => Sys2Proof.Machine.execEncodeBit b s
  | .encodeByte v => Sys2Proof.Machine.execEncodeByte v s
  | .construct j => Sys2Proof.Machine.execConstruct j s
  | .flush a j => Sys2Proof.Machine.execFlush a j s
  | .writeColor a j p => Sys2Proof.Machine.execWriteColor a j p s
  -- colour datapath
  | .b2f c => Sys2Proof.Machine.execB2f c s
  | .rgbaNew r g b a => Sys2Proof.Machine.execRgbaNew r g b a s
  | .rgbaNewPremultiplied r g b a => Sys2Proof.Machine.execRgbaNewPremultiplied r g b a s
  | .fromRgb8 p => Sys2Proof.Machine.execFromRgb8 p s
  | .blendOver fg bg => Sys2Proof.Machine.execBlendOver fg bg s
  | .toByte x => Sys2Proof.Machine.execToByte x s
  | .toRgb8 v => Sys2Proof.Machine.execToRgb8 v s
  -- render
  | .renderStrip a j => Sys2Proof.Machine.execRenderStrip a j s
  -- transmission controller
  | .txStart t => Sys2Proof.Machine.execTxStart t s
  | .txLock => Sys2Proof.Machine.execTxLock s
  | .txRender => Sys2Proof.Machine.execTxRender s
  | .txUnlock => Sys2Proof.Machine.execTxUnlock s
  | .txSubmit => Sys2Proof.Machine.execTxSubmit s
  | .txComplete ok t => Sys2Proof.Machine.execTxComplete ok t s
  | .txWaitcalc t => Sys2Proof.Machine.execTxWaitcalc t s
  | .txWake t => Sys2Proof.Machine.execTxWake t s
  -- lock
  | .acquire a => Sys2Proof.Machine.execAcquire a s
  | .release a => Sys2Proof.Machine.execRelease a s
  -- ingestion port
  | .ingReceive bytes => Sys2Proof.Machine.execIngReceive bytes s
  | .ingLock => Sys2Proof.Machine.execIngLock s
  | .ingParse => Sys2Proof.Machine.execIngParse s
  | .ingUnlock => Sys2Proof.Machine.execIngUnlock s
  -- control port and effect selector
  | .ctlReceive bytes => Sys2Proof.Machine.execCtlReceive bytes s
  | .ctlLock => Sys2Proof.Machine.execCtlLock s
  | .ctlUnlock => Sys2Proof.Machine.execCtlUnlock s
  | .nextEffect a => Sys2Proof.Machine.execNextEffect a s
  | .prevEffect a => Sys2Proof.Machine.execPrevEffect a s
  | .setEffect a k => Sys2Proof.Machine.execSetEffect a k s
  | .currentEffect a => Sys2Proof.Machine.execCurrentEffect a s

end Sys2Proof.Machine
end

