-- ==== Sys2Proof/Machine/Fetch.lean ====
section
/-! DEFINITION. Which instruction the next step runs. Each agent's phase register names the step it takes next (spec 10 R21);
which agent moves, and what the environment answers it, is the next choice (44 R191, 43 R165, 20 R75). -/

namespace Sys2Proof.Machine

/-- The choice of the next step: the oldest one fixed in `sched`, else a free value (log entry 7). -/
def State.choice (s : State) : Choice :=
  match s.sched with
  | c :: _ => c
  | [] => Config.freeChoice s.draws

/-- The state once its next choice has been drawn. -/
def State.drawn (s : State) : State :=
  match s.sched with
  | _ :: cs => { s with sched := cs }
  | [] => { s with draws := s.draws + 1 }

/-- The step `TX` takes from its phase (43 R150), with the draws of its rule. -/
def txInstr (dt : Nat) (ok : Bool) (s : State) : Instr :=
  match s.tx.phase with
  | .tStart => .txStart (s.clk + dt)
  | .tLock => .txLock
  | .tRender => .txRender
  | .tUnlock => .txUnlock
  | .tSubmit => .txSubmit
  | .tXmit => .txComplete ok (s.clk + dt)
  | .tWaitcalc => .txWaitcalc (s.clk + dt)
  | .tSleep => .txWake (s.clk + dt)

/-- The step `ING` takes from its phase (45 R200). `NET` truncates a datagram to `MAX_DGRAM` before it delivers it
(45 R201). -/
def ingInstr (bytes : List Byte) (s : State) : Instr :=
  match s.ing.phase with
  | .iIdle => .ingReceive (bytes.take s.cfg.maxDgram)
  | .iLock => .ingLock
  | .iParse => .ingParse
  | .iUnlock => .ingUnlock

/-- The step `CTL` takes from its phase (46 R230); with no message to apply it has none. -/
def ctlInstr (bytes : List Byte) (s : State) : Option Instr :=
  match s.ctl.phase with
  | .cIdle => some (.ctlReceive bytes)
  | .cLock => some .ctlLock
  | .cApply => s.ctl.msg.map ControlMsg.toInstr
  | .cUnlock => some .ctlUnlock

/-- The instruction a choice makes the machine run, if the chosen agent has one. -/
def instrOf (c : Choice) (s : State) : Option Instr :=
  match c with
  | .tx dt ok => some (txInstr dt ok s)
  | .ing bytes => some (ingInstr bytes s)
  | .ctl bytes => ctlInstr bytes s

/-- Place a datagram at `ING`, about to parse its first record with the lock held, and choose `ING` for the next step. -/
def State.placeDatagram (s : State) (bytes : List Byte) : State :=
  { s with lk := ⟨some .ing⟩, ing := ⟨.iParse, bytes, 0⟩, sched := [.ing []] }

/-- Place a message at `CTL`, about to apply it with the lock held, and choose `CTL` for the next step. -/
def State.placeMessage (s : State) (m : ControlMsg) : State :=
  { s with lk := ⟨some .ctl⟩, ctl := ⟨.cApply, some m⟩, sched := [.ctl []] }

/-- Place the instruction of a table word where the next step runs it (log entry 9). -/
def placeTableWord (s : State) (nbits w : Nat) : State :=
  match tableMessage nbits w with
  | some m => s.placeMessage m
  | none => s.placeDatagram (tableDatagram s.cfg nbits w)

end Sys2Proof.Machine
end

