-- ==== Sys2Proof/Machine/Step.lean ====
section
/-! DEFINITION. One step of the block. -/

namespace Sys2Proof.Machine

/-- One step: the next choice is drawn, and the chosen agent takes the step its phase names. With an invalid
configuration the block never leaves reset (60 R252). -/
def step (s : State) : Host.Outcome State Fault Refusal :=
  if configValid s.cfg then
    match instrOf s.choice s with
    | some i => exec i s.drawn
    | none => .next s.drawn
  else .fault .configurationError

/-- `s` with the instruction of a table word placed so that the next step runs it (log entry 9). -/
def State.withFetchWord (s : State) (nbits w : Nat) : State := placeTableWord s nbits w

end Sys2Proof.Machine
end

