-- ==== Sys2Proof/Machine/Wire.lean ====
section
/-! DEFINITION. What a submitted symbol sequence puts on the wire (spec 42 R139, R140). This is timing: no step of the
machine depends on it. -/

namespace Sys2Proof.Machine

/-- The waveform of a sequence as (level, ticks) pairs: each pulse high, then low, with no gap; `End` stops the output
(42 R139). -/
def waveform : List Symbol → List (Bool × Nat)
  | [] => []
  | .pulse hi lo :: ys => (true, hi) :: (false, lo) :: waveform ys
  | .endMark :: _ => []

/-- How many ticks the output of a sequence lasts (42 R140). -/
def waveTicks (ys : List Symbol) : Nat := ((waveform ys).map Prod.snd).sum

/-- The level `t` ticks into a list of (level, ticks) pairs; low once they are over. -/
def levelAt : List (Bool × Nat) → Nat → Bool
  | [], _ => false
  | (b, d) :: rest, t => if t < d then b else levelAt rest (t - d)

/-- The line's level `t` ticks after the output of a sequence begins: its waveform, and low ever after (42 R139). -/
def lineLevel (ys : List Symbol) (t : Nat) : Bool := levelAt (waveform ys) t

end Sys2Proof.Machine
end

