-- ==== Sys2Proof/Safety.lean ====
section
/-! DEFINITION. What counts as a good state of the block, in the terms the statements use. Each predicate formalises what
the spec says of every state reached without a fault. -/

namespace Sys2Proof.Machine

/-- A channel of the block's domain: finite, not negative, at most 1.0 (40 R107). -/
def unitChannel (x : F32) : Bool := !F32.neg x && F32.isFinite x && decide (F32.mag x ≤ F32.oneUnits)

/-- A colour all of whose channels are of the block's domain (40 R107). -/
def unitColour (v : RgbaF32) : Bool := unitChannel v.r && unitChannel v.g && unitChannel v.b && unitChannel v.a

/-- A stored colour: in the domain and premultiplied, `r, g, b <= a` (10 R27). -/
def premultiplied (v : RgbaF32) : Bool :=
  unitColour v && decide (F32.mag v.r ≤ F32.mag v.a) && decide (F32.mag v.g ≤ F32.mag v.a)
    && decide (F32.mag v.b ≤ F32.mag v.a)

/-- Every stored colour is premultiplied and in the domain (10 R27). -/
def ColoursOk (s : State) : Prop := ∀ buf ∈ s.cb, ∀ v ∈ buf, premultiplied v = true

/-- The last slot of every transmit buffer holds `End` (42 R137). -/
def SentinelsOk (s : State) : Prop :=
  ∀ i n, s.cfg.ledCount? i = some n → ∃ buf, s.tx.tb[i]? = some buf ∧ buf[24 * n]? = some .endMark

/-- Every write cursor is a multiple of 24 in `0..24 n_s` (10 R39). -/
def CursorsOk (s : State) : Prop :=
  ∀ i n, s.cfg.ledCount? i = some n → ∃ c, s.tx.cur[i]? = some c ∧ c % 24 = 0 ∧ c ≤ 24 * n

/-- An agent holds the lock exactly in the phases whose row in 10 R32, R41 or R42 says so (44 R184). -/
def LockDiscipline (s : State) : Prop :=
  (s.lk.holder = some .tx ↔ (s.tx.phase = .tRender ∨ s.tx.phase = .tUnlock)) ∧
    (s.lk.holder = some .ing ↔ (s.ing.phase = .iParse ∨ s.ing.phase = .iUnlock)) ∧
    (s.lk.holder = some .ctl ↔ (s.ctl.phase = .cApply ∨ s.ctl.phase = .cUnlock))

/-- The latch: once the wait is computed, the next iteration cannot start before `tFirst + LATCH_US` (43 R163). -/
def LatchOk (s : State) : Prop :=
  ∀ f, s.tx.tFirst = some f →
    (s.tx.phase = .tSleep → f + s.cfg.latchUs ≤ s.tx.deadline) ∧ (s.tx.phase = .tStart → f + s.cfg.latchUs ≤ s.clk)

/-- Every strip rendered in this iteration has its whole buffer rewritten: `24 n_s` slots of `LO` or `HI` (10 R48). -/
def RenderedOk (s : State) : Prop :=
  ∀ i n buf, s.tx.rendered[i]? = some true → s.cfg.ledCount? i = some n → s.tx.tb[i]? = some buf →
    ∀ y ∈ buf.take (24 * n), y = s.cfg.lo ∨ y = s.cfg.hi

/-- A submission is in flight exactly in `T_XMIT`, and then it is the whole buffer of the rendered strip `k`
(20 R73, 10 R33). -/
def InFlightOk (s : State) : Prop :=
  (s.tx.phase ≠ .tXmit → s.hw = none) ∧
    (s.tx.phase = .tXmit → s.tx.rendered[s.tx.k]? = some true ∧ ∃ ys, s.hw = some ys ∧ s.tx.tb[s.tx.k]? = some ys)

/-- The index registers are in their ranges (10 R29, R33, R41). -/
def IndicesOk (s : State) : Prop :=
  s.sel < s.cfg.nEffects ∧ s.tx.k ≤ s.cfg.nStrips ∧ s.ing.c ≤ s.ing.dg.length ∧ s.ing.dg.length ≤ s.cfg.maxDgram

/-- `CTL` holds a message exactly while it is not idle (10 R42, 46 R231, R240). -/
def MessageOk (s : State) : Prop := s.ctl.msg = none ↔ s.ctl.phase = .cIdle

/-- No fault bit is set (60 R256). -/
def FaultFree (s : State) : Prop := s.fault = FaultBits.clear

/-- The invariant of the block: what the spec says of every state reached from a valid reset. -/
structure Invariant (s : State) : Prop where
  shape : Memory.wf s = true
  colours : ColoursOk s
  sentinels : SentinelsOk s
  cursors : CursorsOk s
  lock : LockDiscipline s
  latch : LatchOk s
  rendered : RenderedOk s
  inFlight : InFlightOk s
  indices : IndicesOk s
  message : MessageOk s
  faultFree : FaultFree s

/-- The target byte of a record (30 R81). -/
def recordTarget : Record → Byte
  | .sbm tgt _ => tgt
  | .sbs tgt _ => tgt
  | .rsv2 tgt => tgt
  | .sbma tgt _ => tgt
  | .rsv4 tgt => tgt
  | .unrec _ tgt => tgt

/-- The state after `ING` aborts the datagram in hand with error kind `k` (45 R214). -/
def aborted (s : State) (k : ErrorKind) : State :=
  { s with hist := s.hist ++ [.abort k s.ing.c], ing := { s.ing with phase := .iUnlock } }

/-- The state after a fault of kind `k` was raised in `s`: the bit, and nothing else (60 R256). -/
def faulted (s : State) (k : FaultKind) : State := { s with fault := s.fault.add k }

/-- `n` executions of one instruction, from each next state. -/
def execTimes : Nat → Instr → State → Outcome
  | 0, _, s => .next s
  | n + 1, i, s =>
    match exec i s with
    | .next t => execTimes n i t
    | .fault r => .fault r
    | .refused r => .refused r

/-- The instructions that write a strip's mode (10 R25). -/
def writesMode : Instr → Bool
  | .ssm _ _ => true
  | .sbm _ _ | .sbs _ _ | .rsv2 _ | .sbma _ _ | .rsv4 _ | .unrec _ _ | .sem _ | .encodeBit _
  | .encodeByte _ | .construct _ | .flush _ _ | .writeColor _ _ _ | .b2f _ | .rgbaNew _ _ _ _
  | .rgbaNewPremultiplied _ _ _ _ | .fromRgb8 _ | .blendOver _ _ | .toByte _ | .toRgb8 _
  | .renderStrip _ _ | .txStart _ | .txLock | .txRender | .txUnlock | .txSubmit | .txComplete _ _
  | .txWaitcalc _ | .txWake _ | .acquire _ | .release _ | .ingReceive _ | .ingLock | .ingParse
  | .ingUnlock | .ctlReceive _ | .ctlLock | .ctlUnlock | .nextEffect _ | .prevEffect _
  | .setEffect _ _ | .currentEffect _ => false

/-- The instructions that write the effect selector (10 R29). -/
def writesSel : Instr → Bool
  | .sem _ | .nextEffect _ | .prevEffect _ | .setEffect _ _ => true
  | .sbm _ _ | .sbs _ _ | .rsv2 _ | .sbma _ _ | .rsv4 _ | .unrec _ _ | .ssm _ _ | .encodeBit _
  | .encodeByte _ | .construct _ | .flush _ _ | .writeColor _ _ _ | .b2f _ | .rgbaNew _ _ _ _
  | .rgbaNewPremultiplied _ _ _ _ | .fromRgb8 _ | .blendOver _ _ | .toByte _ | .toRgb8 _
  | .renderStrip _ _ | .txStart _ | .txLock | .txRender | .txUnlock | .txSubmit | .txComplete _ _
  | .txWaitcalc _ | .txWake _ | .acquire _ | .release _ | .ingReceive _ | .ingLock | .ingParse
  | .ingUnlock | .ctlReceive _ | .ctlLock | .ctlUnlock | .currentEffect _ => false

/-- The instructions that write a colour buffer: the three commands, and the parse step that runs them (10 R28). -/
def writesColours : Instr → Bool
  | .sbm _ _ | .sbs _ _ | .sbma _ _ | .ingParse => true
  | .rsv2 _ | .rsv4 _ | .unrec _ _ | .ssm _ _ | .sem _ | .encodeBit _ | .encodeByte _ | .construct _
  | .flush _ _ | .writeColor _ _ _ | .b2f _ | .rgbaNew _ _ _ _ | .rgbaNewPremultiplied _ _ _ _
  | .fromRgb8 _ | .blendOver _ _ | .toByte _ | .toRgb8 _ | .renderStrip _ _ | .txStart _ | .txLock
  | .txRender | .txUnlock | .txSubmit | .txComplete _ _ | .txWaitcalc _ | .txWake _ | .acquire _
  | .release _ | .ingReceive _ | .ingLock | .ingUnlock | .ctlReceive _ | .ctlLock | .ctlUnlock
  | .nextEffect _ | .prevEffect _ | .setEffect _ _ | .currentEffect _ => false

/-- The instructions that write a transmit buffer or its cursor (20 R61, 42). -/
def writesTransmitPath : Instr → Bool
  | .construct _ | .flush _ _ | .writeColor _ _ _ | .renderStrip _ _ | .txRender => true
  | .sbm _ _ | .sbs _ _ | .rsv2 _ | .sbma _ _ | .rsv4 _ | .unrec _ _ | .ssm _ _ | .sem _
  | .encodeBit _ | .encodeByte _ | .b2f _ | .rgbaNew _ _ _ _ | .rgbaNewPremultiplied _ _ _ _
  | .fromRgb8 _ | .blendOver _ _ | .toByte _ | .toRgb8 _ | .txStart _ | .txLock | .txUnlock
  | .txSubmit | .txComplete _ _ | .txWaitcalc _ | .txWake _ | .acquire _ | .release _
  | .ingReceive _ | .ingLock | .ingParse | .ingUnlock | .ctlReceive _ | .ctlLock | .ctlUnlock
  | .nextEffect _ | .prevEffect _ | .setEffect _ _ | .currentEffect _ => false

/-- The steps of `ING`, the record commands among them (45 R200, R203). -/
def ingStep : Instr → Bool
  | .sbm _ _ | .sbs _ _ | .rsv2 _ | .sbma _ _ | .rsv4 _ | .unrec _ _ | .ingReceive _ | .ingLock
  | .ingParse | .ingUnlock => true
  | .ssm _ _ | .sem _ | .encodeBit _ | .encodeByte _ | .construct _ | .flush _ _ | .writeColor _ _ _
  | .b2f _ | .rgbaNew _ _ _ _ | .rgbaNewPremultiplied _ _ _ _ | .fromRgb8 _ | .blendOver _ _
  | .toByte _ | .toRgb8 _ | .renderStrip _ _ | .txStart _ | .txLock | .txRender | .txUnlock
  | .txSubmit | .txComplete _ _ | .txWaitcalc _ | .txWake _ | .acquire _ | .release _
  | .ctlReceive _ | .ctlLock | .ctlUnlock | .nextEffect _ | .prevEffect _ | .setEffect _ _
  | .currentEffect _ => false

/-- The steps of `CTL`, the control messages among them (46 R230). -/
def ctlStep : Instr → Bool
  | .ssm _ _ | .sem _ | .ctlReceive _ | .ctlLock | .ctlUnlock => true
  | .sbm _ _ | .sbs _ _ | .rsv2 _ | .sbma _ _ | .rsv4 _ | .unrec _ _ | .encodeBit _ | .encodeByte _
  | .construct _ | .flush _ _ | .writeColor _ _ _ | .b2f _ | .rgbaNew _ _ _ _
  | .rgbaNewPremultiplied _ _ _ _ | .fromRgb8 _ | .blendOver _ _ | .toByte _ | .toRgb8 _
  | .renderStrip _ _ | .txStart _ | .txLock | .txRender | .txUnlock | .txSubmit | .txComplete _ _
  | .txWaitcalc _ | .txWake _ | .acquire _ | .release _ | .ingReceive _ | .ingLock | .ingParse
  | .ingUnlock | .nextEffect _ | .prevEffect _ | .setEffect _ _ | .currentEffect _ => false

end Sys2Proof.Machine
end

