-- ==== Sys2Proof/Certificates/Slice0/Obligations.lean ====
section
/-! DEFINITION. The statements for the provers, each from the numbered rules of spec/ its docstring cites. -/

open Sys2Proof Sys2Proof.Machine

/-! ### Encodings -/

/-- 30 R80, R83, R84, R86, R93: every well-formed record, whatever bytes follow it, decodes from its encoding. -/
def Obligations.RecordDecodesFromItsEncoding : Prop :=
  ∀ (cfg : Config) (r : Record) (bs rest : List Byte), WellFormed cfg r.toInstr = true →
    encode r.toInstr = some bs → decodeRecord cfg (bs ++ rest) = .ok (r.toInstr, rest)

/-- 30 R80, R85, R86: a decoded record is well-formed, and the bytes consumed are exactly its encoding. -/
def Obligations.DecodedRecordAccountsForItsBytes : Prop :=
  ∀ (cfg : Config) (i : Instr) (bs rest : List Byte), decodeRecord cfg bs = .ok (i, rest) →
    WellFormed cfg i = true ∧ ∃ head, encode i = some head ∧ bs = head ++ rest

/-- 30 R88, R89: a byte sequence decodes to a control message exactly when it is that message's encoding. -/
def Obligations.ControlDecodesExactlyItsEncodings : Prop :=
  ∀ (bs : List Byte) (m : ControlMsg), decodeControlMsg bs = .ok m ↔ encode m.toInstr = some bs

/-- 30 R82, R85, 45 R206: with the target in range and a command that has a payload, the decoder takes
`need(cmd, n_tgt)` payload bytes after the two header bytes, and rejects the record when fewer remain. -/
def Obligations.RecordLengthIsTwoPlusNeed : Prop :=
  ∀ (cfg : Config) (cmd tgt : Byte) (bs : List Byte) (n need : Nat), cfg.ledCount? tgt.toNat = some n →
    payloadNeed cmd n = some need →
    (need ≤ bs.length → ∃ r, decodeRecordHead cfg (cmd :: tgt :: bs) = .ok (r, bs.drop need)) ∧
      (bs.length < need → decodeRecordHead cfg (cmd :: tgt :: bs) = .error (.shortPayload tgt))

/-- Sanity words of 95 sections 2.6 and 2.7 (V-I1, V-I3, V-I9, V-I10, V-C1, V-C3, V-C5), at the configuration of 95
section 2.6. -/
def Obligations.SampleWordsDecode : Prop :=
  decodeRecord Config.reference [0x01, 0x00, 0xFF, 0x80, 0x00] = .ok (.sbs 0x00 ⟨0xFF, 0x80, 0x00⟩, []) ∧
    decodeRecord Config.reference [0x03, 0x01, 0xC8, 0x00, 0x00, 0x80] =
      .ok (.sbma 0x01 [⟨0xC8, 0x00, 0x00, 0x80⟩], []) ∧
    decodeRecord Config.reference [0x04, 0x00, 0xFF] = .ok (.rsv4 0x00, [0xFF]) ∧
    decodeRecord Config.reference [0xFF, 0x00] = .ok (.unrec 0xFF 0x00, []) ∧
    decodeRecord Config.reference [0x07, 0x05] = .error .targetOutOfRange ∧
    decodeControl [0x00, 0x01, 0x02] = .ok (.ssm 0x01 .dynamic) ∧
    decodeControl [0x01, 0x80] = .ok (.sem 0x80) ∧
    decodeControl [0x00, 0x00, 0x04] = .error .badMode

/-! ### Steps -/

/-- 10 R21, 43 R150, 45 R200, 46 R230: under a valid configuration a step draws the next choice and runs, in the state
left by the draw, the step that the chosen agent's phase names, row by row of the three phase graphs. For `ING` in `I_PARSE`
that is the parse step, whatever bytes stand at the cursor, and it is the decoded record where they decode; for `CTL` in
`C_APPLY` it is the decoded message. The choice is the model's `sched` or, when that is empty, a free value (log entry 7);
the time read is `clk` and the chosen delay (log entry 5); the bytes chosen are cut to `MAX_DGRAM` (log entry 18); and `CTL`
in `C_APPLY` with no message has no step that is enabled, so only the choice is drawn (log entry 10). -/
def Obligations.StepRunsDecodedInstruction : Prop :=
  ∀ (s : State) (cs : List Choice), configValid s.cfg = true →
    (∀ dt ok, s.sched = .tx dt ok :: cs →
        let s' := { s with sched := cs }
        (s.tx.phase = .tStart → step s = exec (.txStart (s.clk + dt)) s') ∧
          (s.tx.phase = .tLock → step s = exec .txLock s') ∧
          (s.tx.phase = .tRender → step s = exec .txRender s') ∧
          (s.tx.phase = .tUnlock → step s = exec .txUnlock s') ∧
          (s.tx.phase = .tSubmit → step s = exec .txSubmit s') ∧
          (s.tx.phase = .tXmit → step s = exec (.txComplete ok (s.clk + dt)) s') ∧
          (s.tx.phase = .tWaitcalc → step s = exec (.txWaitcalc (s.clk + dt)) s') ∧
          (s.tx.phase = .tSleep → step s = exec (.txWake (s.clk + dt)) s')) ∧
      (∀ bytes, s.sched = .ing bytes :: cs →
        let s' := { s with sched := cs }
        (s.ing.phase = .iIdle → step s = exec (.ingReceive (bytes.take s.cfg.maxDgram)) s') ∧
          (s.ing.phase = .iLock → step s = exec .ingLock s') ∧
          (s.ing.phase = .iParse → step s = exec .ingParse s' ∧
            ∀ i rest, decodeRecord s.cfg (s.ing.dg.drop s.ing.c) = .ok (i, rest) → step s = exec i s') ∧
          (s.ing.phase = .iUnlock → step s = exec .ingUnlock s')) ∧
      (∀ bytes, s.sched = .ctl bytes :: cs →
        let s' := { s with sched := cs }
        (s.ctl.phase = .cIdle → step s = exec (.ctlReceive bytes) s') ∧
          (s.ctl.phase = .cLock → step s = exec .ctlLock s') ∧
          (∀ idx m, s.ctl.phase = .cApply → s.ctl.msg = some (.setStripMode idx m) → step s = exec (.ssm idx m) s') ∧
          (∀ d, s.ctl.phase = .cApply → s.ctl.msg = some (.shiftEffectMode d) → step s = exec (.sem d) s') ∧
          (s.ctl.phase = .cApply → s.ctl.msg = none → step s = .next s') ∧
          (s.ctl.phase = .cUnlock → step s = exec .ctlUnlock s')) ∧
      (s.sched = [] → step s = step { s with sched := [Config.freeChoice s.draws], draws := s.draws + 1 })

/-- 60 R252: an invalid configuration never takes a step; with a valid one every step answers a next state. The six
conditions are the rule's. That the machine stops with `configurationError` is log entry 15; that waiting and faulting steps
answer a next state is log entries 10 and 14. -/
def Obligations.InvalidConfigurationNeverSteps : Prop :=
  ∀ s : State,
    let c := s.cfg
    let invalid :=
      256 < c.strips.length ∨ (∃ sc ∈ c.strips, c.maxLeds < sc.info.ledCount) ∨ c.nEffects = 0 ∨
        (∃ d ∈ [c.t0h, c.t0l, c.t1h, c.t1l], d = 0 ∨ c.durMax < d) ∨ (c.t0h = c.t1h ∧ c.t0l = c.t1l) ∨
        ¬(c.cores = 1 ∨ c.cores = 2)
    (invalid → step s = .fault .configurationError) ∧ (¬invalid → ∃ t, step s = .next t)

/-- No instruction ends the machine: from every state every instruction answers a next state (00 R12, 60 R256, R261).
That a step which is not enabled answers the state unchanged is log entry 10; that a step which raises a fault answers the
state with the bit added, though 00 R9 says of it that it does not complete, is log entry 14. -/
def Obligations.EveryInstructionAnswersNext : Prop := ∀ (i : Instr) (s : State), ∃ t, exec i s = .next t

/-- 00 R12, read by log entry 10: a step whose agent is in another phase than the step's, waits with the state
unchanged. -/
def Obligations.DisabledStepsChangeNothing : Prop :=
  ∀ (s : State) (t : Nat) (ok : Bool) (bytes : List Byte) (r : Record) (m : ControlMsg),
    (s.tx.phase ≠ .tStart → exec (.txStart t) s = .next s) ∧
      (s.tx.phase ≠ .tLock → exec .txLock s = .next s) ∧
      (s.tx.phase ≠ .tRender → exec .txRender s = .next s) ∧
      (s.tx.phase ≠ .tUnlock → exec .txUnlock s = .next s) ∧
      (s.tx.phase ≠ .tSubmit → exec .txSubmit s = .next s) ∧
      (s.tx.phase ≠ .tXmit → exec (.txComplete ok t) s = .next s) ∧
      (s.tx.phase ≠ .tWaitcalc → exec (.txWaitcalc t) s = .next s) ∧
      (s.tx.phase ≠ .tSleep → exec (.txWake t) s = .next s) ∧
      (s.ing.phase ≠ .iIdle → exec (.ingReceive bytes) s = .next s) ∧
      (s.ing.phase ≠ .iLock → exec .ingLock s = .next s) ∧
      (s.ing.phase ≠ .iParse → exec .ingParse s = .next s ∧ exec r.toInstr s = .next s) ∧
      (s.ing.phase ≠ .iUnlock → exec .ingUnlock s = .next s) ∧
      (s.ctl.phase ≠ .cIdle → exec (.ctlReceive bytes) s = .next s) ∧
      (s.ctl.phase ≠ .cLock → exec .ctlLock s = .next s) ∧
      (s.ctl.phase ≠ .cApply → exec m.toInstr s = .next s) ∧
      (s.ctl.phase ≠ .cUnlock → exec .ctlUnlock s = .next s)

/-- 44 R191, 43 R161: with one core, while `TX` is in `T_XMIT`, no step of `ING` or `CTL` is enabled; it waits, the state
unchanged (log entries 10 and 13). -/
def Obligations.SingleCoreTransmissionRunsAlone : Prop :=
  ∀ (s : State) (i : Instr), s.cfg.cores = 1 → s.tx.phase = .tXmit → (ingStep i = true ∨ ctlStep i = true) →
    exec i s = .next s

/-! ### Colour datapath -/

/-- 40 R100 to R104: the value-only operations hand the formula's value to the caller (the field `out`, log
entry 6) and change nothing else. -/
def Obligations.ColourOperationsYieldTheirFormulas : Prop :=
  ∀ (s : State) (c : Byte) (x y z w : F32) (p : Rgb8) (fg bg : RgbaF32),
    exec (.b2f c) s = .next { s with out := .channel (fdiv (f32 c.toNat) 0x437F0000) } ∧
      exec (.rgbaNew x y z w) s = .next { s with out := .colour ⟨fmul x w, fmul y w, fmul z w, w⟩ } ∧
      exec (.rgbaNewPremultiplied x y z w) s = .next { s with out := .colour ⟨x, y, z, w⟩ } ∧
      exec (.fromRgb8 p) s = .next { s with out := .colour ⟨b2f p.r, b2f p.g, b2f p.b, 0x3F800000⟩ } ∧
      exec (.blendOver fg bg) s = .next { s with
        out := .colour ⟨fadd fg.r (fmul bg.r (fsub 0x3F800000 fg.a)), fadd fg.g (fmul bg.g (fsub 0x3F800000 fg.a)),
          fadd fg.b (fmul bg.b (fsub 0x3F800000 fg.a)), fadd fg.a (fmul bg.a (fsub 0x3F800000 fg.a))⟩ }

/-- 40 R100: both ends are exact, every result is in `[0, 1]`, and `b2f` is strictly increasing. -/
def Obligations.ByteToChannelIsIncreasing : Prop :=
  b2f 0 = 0x00000000 ∧ b2f 255 = 0x3F800000 ∧ (∀ c : Byte, unitChannel (b2f c) = true) ∧
    ∀ c d : Byte, c.toNat < d.toNat → F32.mag (b2f c) < F32.mag (b2f d)

/-- 40 R101, corner cases: alpha 1 keeps the channels, alpha 0 gives all zeros, and no channel exceeds alpha. -/
def Obligations.PremultiplyBoundedByAlpha : Prop :=
  ∀ r g b a : F32, unitChannel r = true → unitChannel g = true → unitChannel b = true → unitChannel a = true →
    rgbaNew r g b 0x3F800000 = ⟨r, g, b, 0x3F800000⟩ ∧
      rgbaNew r g b 0x00000000 = ⟨0x00000000, 0x00000000, 0x00000000, 0x00000000⟩ ∧
      premultiplied (rgbaNew r g b a) = true

/-- 40 R104, corner cases: an opaque foreground overwrites, a transparent one passes the background through, exactly.
The result is handed over in the model's field `out` (log entry 6). -/
def Obligations.BlendCornersAreExact : Prop :=
  ∀ (s : State) (fg bg : RgbaF32), unitColour fg = true → unitColour bg = true →
    (fg.a = 0x3F800000 → exec (.blendOver fg bg) s = .next { s with out := .colour fg }) ∧
      (fg = ⟨0x00000000, 0x00000000, 0x00000000, 0x00000000⟩ →
        exec (.blendOver fg bg) s = .next { s with out := .colour bg })

/-- 40 R107: blending a colour made from bytes over a background of the domain leaves no channel above 1.0, negative or
not finite. -/
def Obligations.BlendStaysInUnitRange : Prop :=
  ∀ (p : Rgba8) (bg : RgbaF32), unitColour bg = true →
    unitColour (blendOver (rgbaNew (b2f p.r) (b2f p.g) (b2f p.b) (b2f p.a)) bg) = true

/-- 40 R105, R107: `to_byte` completes on every value that is no NaN. With `y = fmul(x, 255.0)`: the byte is the whole
number nearest to `y`, a half going away from zero, clamped to `0 .. 255` (in units of 2^-149, of which `oneUnits` make 1.0,
`k` is nearest to `y`'s magnitude when `2 k - 1 <= 2 |y| < 2 k + 1`). So it is exact on bytes and at both ends. A NaN raises
`Unmodelled`. That an infinity clamps is log entry 19; the byte is handed over in the model's field `out` (log entry 6). -/
def Obligations.ToByteRoundsAndClamps : Prop :=
  ∀ (s : State) (x : F32),
    let y := fmul x 0x437F0000
    (F32.isNaN x = true → exec (.toByte x) s = .next (faulted s .unmodelled)) ∧
      (F32.isNaN x = false → F32.isFinite y = true → ∃ k : Nat,
        2 * k * F32.oneUnits ≤ 2 * F32.mag y + F32.oneUnits ∧ 2 * F32.mag y < 2 * k * F32.oneUnits + F32.oneUnits ∧
          exec (.toByte x) s = .next { s with
            out := .byte (if F32.neg y then 0 else BitVec.ofNat 8 (min 255 k)) }) ∧
      (F32.isNaN x = false → F32.isFinite y = false →
        exec (.toByte x) s = .next { s with out := .byte (if F32.neg y then 0 else 255) }) ∧
      (F32.isNaN x = false → ∃ b, exec (.toByte x) s = .next { s with out := .byte b }) ∧
      (F32.isNaN x = false → F32.neg x = true → exec (.toByte x) s = .next { s with out := .byte 0 }) ∧
      (F32.isNaN x = false → F32.neg x = false → (F32.isFinite x = true → F32.oneUnits ≤ F32.mag x) →
        exec (.toByte x) s = .next { s with out := .byte 255 }) ∧
      (∀ c : Byte, x = b2f c → exec (.toByte x) s = .next { s with out := .byte c }) ∧
      (x = 0x3F000000 → exec (.toByte x) s = .next { s with out := .byte 128 })

/-- 40 R106, R107: `to_rgb8` converts each colour channel by `to_byte` and drops alpha; a NaN colour channel raises
`Unmodelled`. The pixel is handed over in the model's field `out` (log entry 6). -/
def Obligations.ToRgb8DropsAlpha : Prop :=
  ∀ (s : State) (v : RgbaF32) (r g b : Byte),
    (toByte v.r = some r → toByte v.g = some g → toByte v.b = some b →
        exec (.toRgb8 v) s = .next { s with out := .pixel ⟨r, g, b⟩ }) ∧
      (F32.isNaN v.r = true ∨ F32.isNaN v.g = true ∨ F32.isNaN v.b = true →
        exec (.toRgb8 v) s = .next (faulted s .unmodelled))

/-! ### Bit encoder -/

/-- 42 R131, R132, 30 R91: one bit to `HI` or `LO`, one byte to eight symbols, most significant bit first.
They are handed over in the model's field `out` (log entry 6). -/
def Obligations.BitsEncodeMostSignificantFirst : Prop :=
  ∀ (s : State) (b : Bool) (v : Byte),
    exec (.encodeBit b) s = .next { s with
      out := .symbol (if b then .pulse s.cfg.t1h s.cfg.t1l else .pulse s.cfg.t0h s.cfg.t0l) } ∧
      ∃ ys, exec (.encodeByte v) s = .next { s with out := .symbols ys } ∧ ys.length = 8 ∧
        ∀ k, k < 8 → ys[7 - k]? =
          some (if v.getLsbD k then .pulse s.cfg.t1h s.cfg.t1l else .pulse s.cfg.t0h s.cfg.t0l)

/-- 42 R133: strip `i`'s buffer gets `24 n + 1` slots with `End` last, its cursor 0; nothing else changes, but the count
of free values drawn (the unwritten slots are free values: log entry 4). -/
def Obligations.ConstructBuildsEncoder : Prop :=
  ∀ (s : State) (i n : Nat), Memory.wf s = true → s.cfg.ledCount? i = some n →
    ∃ buf : List Symbol, buf.length = 24 * n + 1 ∧ buf[24 * n]? = some .endMark ∧
      exec (.construct i) s = .next { s with
        tx := { s.tx with tb := s.tx.tb.set i buf, cur := s.tx.cur.set i 0 }, draws := s.draws + 1 }

/-- 42 R134: `flush` sets the cursor to 0 and changes nothing else, no slot among it. -/
def Obligations.FlushResetsCursorOnly : Prop :=
  ∀ (s : State) (i : Nat), i < s.tx.cur.length →
    exec (.flush .tx i) s = .next { s with tx := { s.tx with cur := s.tx.cur.set i 0 } }

/-- 42 R135, R136, 30 R92, 20 R65: with room before the sentinel, slot `c + 8 q + (7 - k)` gets bit `k` of the channel at
wire position `q` of `WIRE_ORDER` (`g`, `r`, `b` for GRB), the cursor moves by 24, every other slot and everything else is
unchanged; without room it raises `EncoderOverflow` and writes nothing. -/
def Obligations.WriteColorAppendsTwentyFour : Prop :=
  ∀ (s : State) (i n c : Nat) (p : Rgb8) (buf : List Symbol), s.cfg.ledCount? i = some n → s.tx.cur[i]? = some c →
    s.tx.tb[i]? = some buf → buf.length = 24 * n + 1 →
    (c + 24 ≤ 24 * n → ∃ buf' : List Symbol,
        exec (.writeColor .tx i p) s = .next { s with
          tx := { s.tx with tb := s.tx.tb.set i buf', cur := s.tx.cur.set i (c + 24) } } ∧
          buf'.length = buf.length ∧
          (∀ j, j < c ∨ c + 24 ≤ j → buf'[j]? = buf[j]?) ∧
          ∀ (q k : Nat) (v : Byte), k < 8 →
            (match s.cfg.wireOrder with
              | .rgb => [p.r, p.g, p.b]
              | .rbg => [p.r, p.b, p.g]
              | .grb => [p.g, p.r, p.b]
              | .gbr => [p.g, p.b, p.r]
              | .brg => [p.b, p.r, p.g]
              | .bgr => [p.b, p.g, p.r])[q]? = some v →
            buf'[c + 8 * q + (7 - k)]? =
              some (if v.getLsbD k then .pulse s.cfg.t1h s.cfg.t1l else .pulse s.cfg.t0h s.cfg.t0l)) ∧
      (24 * n < c + 24 → exec (.writeColor .tx i p) s = .next (faulted s .encoderOverflow))

/-- 44 R189: `ING` and `CTL` may not touch the transmit path; an attempt raises `OwnershipViolation`. That
the agent is an operand of the two operations is the model's (log entry 12), and so is the order of the tests, the agent
before the index and the room left, where more than one rule is broken (log entry 24). -/
def Obligations.TransmitPathIsOwnedByTx : Prop :=
  ∀ (s : State) (a : Agent) (i : Nat) (p : Rgb8), a ≠ .tx →
    exec (.flush a i) s = .next (faulted s .ownershipViolation) ∧
      exec (.writeColor a i p) s = .next (faulted s .ownershipViolation)

/-- 42 R138 (which the spec derives from R134 and R135): after a flush, `N <= n` colours fill slots `0 .. 24 N - 1` with their encodings in order, leave every later
slot, and put the cursor at `24 N`. -/
def Obligations.FlushThenColoursFillThePrefix : Prop :=
  ∀ (s : State) (i n : Nat) (ps : List Rgb8) (buf : List Symbol), s.cfg.ledCount? i = some n →
    s.tx.tb[i]? = some buf → buf.length = 24 * n + 1 → i < s.tx.cur.length → ps.length ≤ n →
    ((flush .tx i s).bind fun s1 => writeColors .tx i ps s1) = .ok { s with
      tx := { s.tx with
        tb := s.tx.tb.set i (ps.flatMap (encodeColor s.cfg) ++ buf.drop (24 * ps.length))
        cur := s.tx.cur.set i (24 * ps.length) } }

/-- 42 R137: no instruction changes the sentinel slot of any strip, from every state of the right shape. -/
def Obligations.SentinelsAreKept : Prop :=
  ∀ (i : Instr) (s t : State), Memory.wf s = true → SentinelsOk s → exec i s = .next t → SentinelsOk t

/-- 42 R139, R140: a buffer of `LO` and `HI` symbols and `End` gives, per symbol and in slot order, one high level of the
symbol's `hi` ticks and then one low level of its `lo` ticks, and nothing after `End`; at each tick the line has that level,
and it is low from the last pulse on. The output lasts between `m * min` and `m * max` of the two bit durations, `m` the
number of symbols before `End`. -/
def Obligations.WaveformDurationIsBounded : Prop :=
  ∀ (cfg : Config) (ys rest : List Symbol), (∀ y ∈ ys, y = cfg.lo ∨ y = cfg.hi) →
    let out := ys ++ .endMark :: rest
    (waveform out).length = 2 * ys.length ∧
      (∀ (j hi lo : Nat), ys[j]? = some (.pulse hi lo) →
        (waveform out)[2 * j]? = some (true, hi) ∧ (waveform out)[2 * j + 1]? = some (false, lo) ∧
          (∀ d, d < hi → lineLevel out (waveTicks (ys.take j) + d) = true) ∧
          ∀ d, hi ≤ d → d < hi + lo → lineLevel out (waveTicks (ys.take j) + d) = false) ∧
      (∀ d, waveTicks out ≤ d → lineLevel out d = false) ∧
      ys.length * min (cfg.t0h + cfg.t0l) (cfg.t1h + cfg.t1l) ≤ waveTicks out ∧
      waveTicks out ≤ ys.length * max (cfg.t0h + cfg.t0l) (cfg.t1h + cfg.t1l)

/-! ### Render -/

/-- 41 R120 to R123, R125: for an eligible strip under the lock, the buffer gets the encodings of the mode's pixels in
order, before the untouched sentinel; the cursor ends at `24 n`, and nothing else changes. The pixels are the effect's
(Effects), the stored colours converted (Dynamic), or the stored colours blended over the effect's (Hybrid). -/
def Obligations.RenderStripEncodesTheComposition : Prop :=
  ∀ (s : State) (i n : Nat) (info : StripInfo) (m : StripMode) (c : List RgbaF32) (buf : List Symbol),
    Memory.wf s = true → s.lk.holder = some .tx → s.cfg.info? i = some info → info.ledCount = n → 1 ≤ n →
    s.mode[i]? = some m → m ≠ .off → s.tx.degraded[i]? = some false → s.cb[i]? = some c → s.tx.tb[i]? = some buf →
    (∀ v ∈ c, premultiplied v = true) →
    ∃ w : List Rgb8, w.length = n ∧
      exec (.renderStrip .tx i) s = .next { s with
        tx := { s.tx with
          tb := s.tx.tb.set i (w.flatMap (encodeColor s.cfg) ++ buf.drop (24 * n))
          cur := s.tx.cur.set i (24 * n) } } ∧
      (m = .effects → w = effect s.sel info (s.tx.tIter / 1000)) ∧
      (m = .dynamic → w.map some = c.map toRgb8) ∧
      (m = .hybrid →
        w.map some = List.zipWith (fun v e => toRgb8 (blendOver v (fromRgb8 e))) c
          (effect s.sel info (s.tx.tIter / 1000)))

/-- 41 R120, R124, 43 R159, 44 R185: without the lock, rendering a strip raises `AccessWithoutLock`; with it, a strip
that has no LEDs, is `Off` or is degraded is not rendered and nothing changes (log entry 11). -/
def Obligations.IneligibleStripsAreNotRendered : Prop :=
  ∀ (s : State) (i n : Nat) (m : StripMode) (d : Bool), s.cfg.ledCount? i = some n →
    (s.lk.holder ≠ some .tx → exec (.renderStrip .tx i) s = .next (faulted s .accessWithoutLock)) ∧
      (s.lk.holder = some .tx → s.mode[i]? = some m → s.tx.degraded[i]? = some d → (n = 0 ∨ m = .off ∨ d = true) →
        exec (.renderStrip .tx i) s = .next s)

/-! ### Transmission controller -/

/-- 43 R151: read the time, clear the flags and `tFirst`, `k` to 0, go on to `T_LOCK`; nothing else changes but the model's
field `clk`, the time read, which is not below the last one (log entry 5). -/
def Obligations.TxStartBeginsIteration : Prop :=
  ∀ (s : State) (t : Nat), s.tx.phase = .tStart → s.clk ≤ t →
    exec (.txStart t) s = .next { s with
      clk := t
      tx := { s.tx with
        tIter := t, rendered := s.tx.rendered.map fun _ => false, tFirst := none, k := 0, phase := .tLock } }

/-- 43 R152: take the lock when it is free; otherwise wait in `T_LOCK`, the state unchanged (log entry 10). -/
def Obligations.TxLockAcquiresOrWaits : Prop :=
  ∀ s : State, s.tx.phase = .tLock →
    (s.lk.holder = none →
        exec .txLock s = .next { s with
          lk := ⟨some .tx⟩, hist := s.hist ++ [.acquire .tx], tx := { s.tx with k := 0, phase := .tRender } }) ∧
      (s.lk.holder ≠ none → exec .txLock s = .next s)

/-- 43 R153, R159: past the last strip go to `T_UNLOCK`; a strip that is not eligible only advances `k`; an eligible one
is rendered as `render_strip` says, its flag set, and `k` advanced. -/
def Obligations.TxRenderTakesOneStrip : Prop :=
  ∀ s : State, s.tx.phase = .tRender → Memory.wf s = true → s.lk.holder = some .tx → ColoursOk s →
    (s.cfg.nStrips ≤ s.tx.k → exec .txRender s = .next { s with tx := { s.tx with phase := .tUnlock } }) ∧
      ∀ n m d, s.cfg.ledCount? s.tx.k = some n → s.mode[s.tx.k]? = some m → s.tx.degraded[s.tx.k]? = some d →
        ((n = 0 ∨ m = .off ∨ d = true) → exec .txRender s = .next { s with tx := { s.tx with k := s.tx.k + 1 } }) ∧
          (1 ≤ n → m ≠ .off → d = false → ∃ t, exec (.renderStrip .tx s.tx.k) s = .next t ∧ t.fault = s.fault ∧
            exec .txRender s = .next { t with
              tx := { t.tx with rendered := t.tx.rendered.set s.tx.k true, k := s.tx.k + 1 } })

/-- 43 R154: release the lock, `k` to 0, go on to `T_SUBMIT`. -/
def Obligations.TxUnlockReleases : Prop :=
  ∀ s : State, s.tx.phase = .tUnlock → s.lk.holder = some .tx →
    exec .txUnlock s = .next { s with
      lk := ⟨none⟩, hist := s.hist ++ [.release .tx], tx := { s.tx with k := 0, phase := .tSubmit } }

/-- 43 R155: the least rendered strip from `k` on is handed to `HW`, the whole buffer with its sentinel, and recorded;
with none left, go on to `T_WAITCALC`. The sequence handed over is the model's field `hw` (log entry 17). -/
def Obligations.TxSubmitHandsOverTheNextRenderedStrip : Prop :=
  ∀ s : State, s.tx.phase = .tSubmit →
    (∀ i n buf, s.tx.k ≤ i → s.tx.rendered[i]? = some true →
        (∀ j, s.tx.k ≤ j → j < i → s.tx.rendered[j]? ≠ some true) → s.cfg.ledCount? i = some n →
        s.tx.tb[i]? = some buf → buf.length = 24 * n + 1 →
        exec .txSubmit s = .next { s with
          hist := s.hist ++ [.submit i (24 * n + 1)], hw := some buf, tx := { s.tx with k := i, phase := .tXmit } }) ∧
      ((∀ j, s.tx.k ≤ j → j < s.cfg.nStrips → s.tx.rendered[j]? ≠ some true) →
        exec .txSubmit s = .next { s with tx := { s.tx with phase := .tWaitcalc } })

/-- 43 R156, 60 R255: the first completion's time is kept, a failure degrades the strip, the completion is recorded, and
`TX` goes on with the next strip. The submission in flight is the model's field `hw` (log entry 17), the time read its field
`clk` (log entry 5). -/
def Obligations.TxCompleteRecordsOutcome : Prop :=
  ∀ (s : State) (ok : Bool) (t : Nat) (ys : List Symbol), s.tx.phase = .tXmit → s.hw = some ys → s.clk ≤ t →
    s.tx.k < s.tx.degraded.length →
    exec (.txComplete ok t) s = .next { s with
      clk := t
      hw := none
      hist := s.hist ++ [.complete s.tx.k ok t]
      tx := { s.tx with
        tFirst := (match s.tx.tFirst with | none => some t | some f => some f)
        degraded := if ok then s.tx.degraded else s.tx.degraded.set s.tx.k true
        k := s.tx.k + 1
        phase := .tSubmit } }

/-- 43 R157: with nothing sent the wait is `FALLBACK_US`; otherwise it is `LATCH_US - (t - tFirst)`, or 0 where that is
negative. The time read is the model's field `clk` (log entry 5). -/
def Obligations.TxWaitcalcSetsDeadline : Prop :=
  ∀ (s : State) (t : Nat), s.tx.phase = .tWaitcalc → s.clk ≤ t →
    (s.tx.tFirst = none →
        exec (.txWaitcalc t) s = .next { s with
          clk := t, tx := { s.tx with deadline := t + s.cfg.fallbackUs, phase := .tSleep } }) ∧
      ∀ f, s.tx.tFirst = some f → f ≤ t →
        exec (.txWaitcalc t) s = .next { s with
          clk := t
          tx := { s.tx with
            deadline := if t - f ≤ s.cfg.latchUs then t + (s.cfg.latchUs - (t - f)) else t
            phase := .tSleep } }

/-- 43 R158: a time read at or past the deadline wakes `TX`; an earlier one does not, and changes nothing
(log entries 5 and 10). -/
def Obligations.TxWakesAtDeadline : Prop :=
  ∀ (s : State) (t : Nat), s.tx.phase = .tSleep →
    (s.clk ≤ t → s.tx.deadline ≤ t →
        exec (.txWake t) s = .next { s with
          clk := t, hist := s.hist ++ [.wake t], tx := { s.tx with phase := .tStart } }) ∧
      (t < s.tx.deadline → exec (.txWake t) s = .next s)

/-- 43 R163: no instruction lets the next iteration start before `tFirst + LATCH_US`, read on the model's
field `clk` (log entry 5). -/
def Obligations.LatchIsKept : Prop :=
  ∀ (i : Instr) (s t : State), LatchOk s → exec i s = .next t → LatchOk t

/-! ### Lock -/

/-- 44 R181, R182: a free lock is taken and recorded, and a held one, by whichever agent, makes the agent wait; the
holder frees the lock, and a release by any other agent, or of a free lock, raises `LockMisuse`. That a waiting step leaves
the state as it is, is log entry 10. -/
def Obligations.LockIsTakenFreeAndReleasedByItsHolder : Prop :=
  ∀ (s : State) (a : Agent),
    (s.lk.holder = none → exec (.acquire a) s = .next { s with lk := ⟨some a⟩, hist := s.hist ++ [.acquire a] }) ∧
      (s.lk.holder ≠ none → exec (.acquire a) s = .next s) ∧
      (s.lk.holder = some a → exec (.release a) s = .next { s with lk := ⟨none⟩, hist := s.hist ++ [.release a] }) ∧
      (s.lk.holder ≠ some a → exec (.release a) s = .next (faulted s .lockMisuse))

/-- 44 R184, R187: a step keeps the lock with exactly the agent whose phase holds it, so no two agents are ever in a
critical section together. -/
def Obligations.LockDisciplineIsKept : Prop := ∀ s t : State, LockDiscipline s → step s = .next t → LockDiscipline t

/-- 44 R185: an access to the shared state by an agent that does not hold the lock raises `AccessWithoutLock` and has no
other effect: the selector operations (whose acting agent is an operand, log entry 12), and the ports' commands on a target
in range (run on their operands, log entry 25). -/
def Obligations.AccessWithoutLockFaults : Prop :=
  ∀ (s : State) (a : Agent) (k : Nat) (r : Record) (m : ControlMsg),
    (s.lk.holder ≠ some a →
        exec (.nextEffect a) s = .next (faulted s .accessWithoutLock) ∧
          exec (.prevEffect a) s = .next (faulted s .accessWithoutLock) ∧
          exec (.setEffect a k) s = .next (faulted s .accessWithoutLock) ∧
          exec (.currentEffect a) s = .next (faulted s .accessWithoutLock)) ∧
      (s.lk.holder ≠ some .ing → s.mayStep .ing = true → s.ing.phase = .iParse →
        (recordTarget r).toNat < s.cfg.nStrips → exec r.toInstr s = .next (faulted s .accessWithoutLock)) ∧
      (s.lk.holder ≠ some .ctl → s.mayStep .ctl = true → s.ctl.phase = .cApply →
        (∀ idx md, m = .setStripMode idx md → idx.toNat < s.cfg.nStrips) →
        exec m.toInstr s = .next (faulted s .accessWithoutLock))

/-- 44 R185, 10 R30: whatever the instruction, the shared state changes only while some agent holds the lock. -/
def Obligations.SharedStateChangesUnderTheLock : Prop :=
  ∀ (i : Instr) (s t : State), exec i s = .next t → s.lk.holder = none →
    t.mode = s.mode ∧ t.cb = s.cb ∧ t.sel = s.sel

/-! ### Ingestion port -/

/-- 45 R201, R202, R215: take a datagram, take the lock when it is free, and at the end release it and go idle. Waiting
leaves the state unchanged (log entry 10). -/
def Obligations.IngestionPortSteps : Prop :=
  ∀ s : State, s.mayStep .ing = true →
    (∀ bytes, s.ing.phase = .iIdle → bytes.length ≤ s.cfg.maxDgram →
        exec (.ingReceive bytes) s = .next { s with ing := ⟨.iLock, bytes, 0⟩ }) ∧
      (s.ing.phase = .iLock → s.lk.holder = none →
        exec .ingLock s = .next { s with
          lk := ⟨some .ing⟩, hist := s.hist ++ [.acquire .ing], ing := { s.ing with phase := .iParse } }) ∧
      (s.ing.phase = .iLock → s.lk.holder ≠ none → exec .ingLock s = .next s) ∧
      (s.ing.phase = .iUnlock → s.lk.holder = some .ing →
        exec .ingUnlock s = .next { s with
          lk := ⟨none⟩, hist := s.hist ++ [.release .ing], ing := ⟨.iIdle, [], 0⟩ })

/-- 45 R203, R205: fewer than two bytes left end the datagram and are ignored; a whole record at the cursor is run as
that record. -/
def Obligations.ParseStepRunsTheRecordAtTheCursor : Prop :=
  ∀ s : State, s.mayStep .ing = true → s.ing.phase = .iParse →
    (s.ing.dg.length < s.ing.c + 2 → exec .ingParse s = .next { s with ing := { s.ing with phase := .iUnlock } }) ∧
      ∀ i rest, decodeRecord s.cfg (s.ing.dg.drop s.ing.c) = .ok (i, rest) → exec .ingParse s = exec i s

/-- 45 R207, R213, R217: SetBufferToMany on a target that accepts data replaces its whole colour buffer by opaque
colours, records `Apply`, and moves the cursor past `2 + 3 n` bytes; under PerRecord it also releases the lock and goes
to `I_LOCK`. Nothing else changes. That the term runs whatever bytes stand at the cursor is log entry 25. -/
def Obligations.SetBufferToManyStoresEveryPixel : Prop :=
  ∀ (s : State) (tgt : Byte) (px : List Rgb8) (n : Nat) (m : StripMode), s.mayStep .ing = true →
    s.ing.phase = .iParse → s.lk.holder = some .ing → Memory.wf s = true → s.cfg.ledCount? tgt.toNat = some n →
    s.mode[tgt.toNat]? = some m → (m = .dynamic ∨ m = .hybrid) → px.length = n →
    let stored := s.cb.set tgt.toNat (px.map fun p => ⟨b2f p.r, b2f p.g, b2f p.b, 0x3F800000⟩)
    (s.cfg.atomicity = .perDatagram →
        exec (.sbm tgt px) s = .next { s with
          cb := stored, hist := s.hist ++ [.apply 0x00 tgt], ing := { s.ing with c := s.ing.c + 2 + 3 * n } }) ∧
      (s.cfg.atomicity = .perRecord →
        exec (.sbm tgt px) s = .next { s with
          cb := stored, hist := s.hist ++ [.apply 0x00 tgt, .release .ing], lk := ⟨none⟩
          ing := { s.ing with c := s.ing.c + 2 + 3 * n, phase := .iLock } })

/-- 45 R208, R213, R217: SetBufferToSingle fills the whole colour buffer with one opaque colour and moves the cursor past
5 bytes, also for a strip of no LEDs. That the term runs whatever bytes stand at the cursor is log entry 25. -/
def Obligations.SetBufferToSingleFills : Prop :=
  ∀ (s : State) (tgt : Byte) (p : Rgb8) (n : Nat) (m : StripMode), s.mayStep .ing = true → s.ing.phase = .iParse →
    s.lk.holder = some .ing → Memory.wf s = true → s.cfg.ledCount? tgt.toNat = some n →
    s.mode[tgt.toNat]? = some m → (m = .dynamic ∨ m = .hybrid) →
    let stored := s.cb.set tgt.toNat (List.replicate n ⟨b2f p.r, b2f p.g, b2f p.b, 0x3F800000⟩)
    (s.cfg.atomicity = .perDatagram →
        exec (.sbs tgt p) s = .next { s with
          cb := stored, hist := s.hist ++ [.apply 0x01 tgt], ing := { s.ing with c := s.ing.c + 5 } }) ∧
      (s.cfg.atomicity = .perRecord →
        exec (.sbs tgt p) s = .next { s with
          cb := stored, hist := s.hist ++ [.apply 0x01 tgt, .release .ing], lk := ⟨none⟩
          ing := { s.ing with c := s.ing.c + 5, phase := .iLock } })

/-- 45 R209, R213, R217: SetBufferToManyAlpha stores each quad premultiplied by its own alpha and moves the cursor past
`2 + 4 n` bytes. That the term runs whatever bytes stand at the cursor is log entry 25. -/
def Obligations.SetBufferToManyAlphaPremultiplies : Prop :=
  ∀ (s : State) (tgt : Byte) (px : List Rgba8) (n : Nat) (m : StripMode), s.mayStep .ing = true →
    s.ing.phase = .iParse → s.lk.holder = some .ing → Memory.wf s = true → s.cfg.ledCount? tgt.toNat = some n →
    s.mode[tgt.toNat]? = some m → (m = .dynamic ∨ m = .hybrid) → px.length = n →
    let stored := s.cb.set tgt.toNat (px.map fun p =>
      ⟨fmul (b2f p.r) (b2f p.a), fmul (b2f p.g) (b2f p.a), fmul (b2f p.b) (b2f p.a), b2f p.a⟩)
    (s.cfg.atomicity = .perDatagram →
        exec (.sbma tgt px) s = .next { s with
          cb := stored, hist := s.hist ++ [.apply 0x03 tgt], ing := { s.ing with c := s.ing.c + 2 + 4 * n } }) ∧
      (s.cfg.atomicity = .perRecord →
        exec (.sbma tgt px) s = .next { s with
          cb := stored, hist := s.hist ++ [.apply 0x03 tgt, .release .ing], lk := ⟨none⟩
          ing := { s.ing with c := s.ing.c + 2 + 4 * n, phase := .iLock } })

/-- 45 R204, R214, 60 R254, R257, R259: whatever the command and its payload, a record whose target is out of range, or
whose target's mode is `Off` or `Effects`, aborts the datagram with ProtocolRangeError and applies nothing; so does the
parse step with such a record at its cursor, be its command unknown or its payload short. That a
term runs whatever bytes stand at the cursor is log entry 25; terms that no bytes decode to are log entry 16. -/
def Obligations.RejectedTargetAborts : Prop :=
  ∀ (s : State) (r : Record), s.mayStep .ing = true → s.ing.phase = .iParse →
    (s.cfg.nStrips ≤ (recordTarget r).toNat → exec r.toInstr s = .next (aborted s .protocolRangeError)) ∧
      (∀ m, (recordTarget r).toNat < s.cfg.nStrips → s.lk.holder = some .ing →
        s.mode[(recordTarget r).toNat]? = some m → (m = .off ∨ m = .effects) →
        exec r.toInstr s = .next (aborted s .protocolRangeError)) ∧
      ∀ cmd tgt bs, s.ing.dg.drop s.ing.c = cmd :: tgt :: bs →
        (s.cfg.nStrips ≤ tgt.toNat ∨
          (s.lk.holder = some .ing ∧ (s.mode[tgt.toNat]? = some .off ∨ s.mode[tgt.toNat]? = some .effects))) →
        exec .ingParse s = .next (aborted s .protocolRangeError)

/-- 45 R205, R206, R210 to R212, R214, 60 R253: on a target that accepts data, the reserved and unrecognised codes, and a
payload shorter than the command needs, abort the datagram with TransportError and apply nothing; so does the parse step
with such a record at its cursor. A term with fewer pixels than the target needs, which no bytes decode to, is log entry 16;
that a term runs whatever bytes stand at the cursor, log entry 25. -/
def Obligations.TransportErrorsAbort : Prop :=
  ∀ (s : State) (tgt cmd : Byte) (n : Nat) (m : StripMode), s.mayStep .ing = true → s.ing.phase = .iParse →
    s.lk.holder = some .ing → s.cfg.ledCount? tgt.toNat = some n → s.mode[tgt.toNat]? = some m →
    (m = .dynamic ∨ m = .hybrid) →
    exec (.rsv2 tgt) s = .next (aborted s .transportError) ∧
      exec (.rsv4 tgt) s = .next (aborted s .transportError) ∧
      (5 ≤ cmd.toNat → exec (.unrec cmd tgt) s = .next (aborted s .transportError)) ∧
      (∀ px, px.length < n → exec (.sbm tgt px) s = .next (aborted s .transportError)) ∧
      (∀ px, px.length < n → exec (.sbma tgt px) s = .next (aborted s .transportError)) ∧
      ∀ bs, s.ing.dg.drop s.ing.c = cmd :: tgt :: bs →
        (payloadNeed cmd n = none ∨ ∃ need, payloadNeed cmd n = some need ∧ bs.length < need) →
        exec .ingParse s = .next (aborted s .transportError)

/-! ### Control port and selector -/

/-- 46 R231, R232, R239, R240: a message that decodes is kept and `CTL` goes for the lock; any other is dropped with no
change; `CTL` takes the lock when it is free, else waits unchanged (log entry 10), and at the end releases it and goes idle. -/
def Obligations.ControlPortSteps : Prop :=
  ∀ s : State, s.mayStep .ctl = true →
    (∀ bytes m, s.ctl.phase = .cIdle → encode m.toInstr = some bytes →
        exec (.ctlReceive bytes) s = .next { s with ctl := ⟨.cLock, some m⟩ }) ∧
      (∀ bytes, s.ctl.phase = .cIdle → (∀ m : ControlMsg, encode m.toInstr ≠ some bytes) →
        exec (.ctlReceive bytes) s = .next s) ∧
      (s.ctl.phase = .cLock → s.lk.holder = none →
        exec .ctlLock s = .next { s with
          lk := ⟨some .ctl⟩, hist := s.hist ++ [.acquire .ctl], ctl := { s.ctl with phase := .cApply } }) ∧
      (s.ctl.phase = .cLock → s.lk.holder ≠ none → exec .ctlLock s = .next s) ∧
      (s.ctl.phase = .cUnlock → s.lk.holder = some .ctl →
        exec .ctlUnlock s = .next { s with
          lk := ⟨none⟩, hist := s.hist ++ [.release .ctl], ctl := ⟨.cIdle, none⟩ })

/-- 46 R233: an index in range gets the mode, recorded; any other index changes nothing but the phase. The
rule is of `msg` equal to the operands; that the instruction runs on its operands whatever `msg` is, is log entry 25. -/
def Obligations.SetStripModeIsBoundsChecked : Prop :=
  ∀ (s : State) (idx : Byte) (m : StripMode), s.mayStep .ctl = true → s.ctl.phase = .cApply →
    s.lk.holder = some .ctl → s.mode.length = s.cfg.nStrips →
    (idx.toNat < s.cfg.nStrips →
        exec (.ssm idx m) s = .next { s with
          mode := s.mode.set idx.toNat m, hist := s.hist ++ [.mode idx.toNat m]
          ctl := { s.ctl with phase := .cUnlock } }) ∧
      (s.cfg.nStrips ≤ idx.toNat → exec (.ssm idx m) s = .next { s with ctl := { s.ctl with phase := .cUnlock } })

/-- 46 R234: the selector moves by the signed delta with Euclidean wraparound, and the new index is recorded. That
the instruction runs on its operand whatever `msg` is, is log entry 25. -/
def Obligations.ShiftEffectModeWraps : Prop :=
  ∀ (s : State) (d : Byte), s.mayStep .ctl = true → s.ctl.phase = .cApply → s.lk.holder = some .ctl →
    1 ≤ s.cfg.nEffects →
    ∃ k : Nat, k < s.cfg.nEffects ∧ ((k : Int) - ((s.sel : Int) + d.toInt)) % (s.cfg.nEffects : Int) = 0 ∧
      exec (.sem d) s = .next { s with
        sel := k, hist := s.hist ++ [.select k], ctl := { s.ctl with phase := .cUnlock } }

/-- 46 R235 to R238: the selector operations of the lock's holder. That the acting agent is an operand, and may be any
holder, is log entries 12 and 23; `current_effect` hands its value over in the model's field `out` (log entry 6). -/
def Obligations.SelectorOperationsOfTheHolder : Prop :=
  ∀ (s : State) (a : Agent) (k : Nat), s.lk.holder = some a →
    exec (.nextEffect a) s = .next { s with sel := (s.sel + 1) % s.cfg.nEffects } ∧
      exec (.prevEffect a) s = .next { s with sel := if s.sel = 0 then s.cfg.nEffects - 1 else s.sel - 1 } ∧
      exec (.setEffect a k) s = .next { s with sel := k % s.cfg.nEffects } ∧
      exec (.currentEffect a) s = .next { s with out := .index s.sel }

/-- 46 R235: `N_EFFECTS` applications of `next_effect` return to the starting index; so does `prev_effect` after it (by
any holder: log entry 23). -/
def Obligations.NextEffectCycles : Prop :=
  ∀ (s : State) (a : Agent), s.lk.holder = some a → s.sel < s.cfg.nEffects →
    execTimes s.cfg.nEffects (.nextEffect a) s = .next s ∧
      ∃ t, exec (.nextEffect a) s = .next t ∧ exec (.prevEffect a) t = .next s

/-- 46 R234, corner case: a shift by `d` moves the selector as `|d|` applications of `next_effect` (`d >= 0`) or
`prev_effect` (`d < 0`) do. That the shift runs on its operand whatever `msg` is, is log entry 25. -/
def Obligations.ShiftIsRepeatedMoves : Prop :=
  ∀ (s : State) (d : Byte), s.mayStep .ctl = true → s.ctl.phase = .cApply → s.lk.holder = some .ctl →
    s.sel < s.cfg.nEffects →
    ∃ t, execTimes d.toInt.natAbs (if 0 ≤ d.toInt then .nextEffect .ctl else .prevEffect .ctl) s = .next t ∧
      exec (.sem d) s = .next { t with
        hist := s.hist ++ [.select t.sel], ctl := { s.ctl with phase := .cUnlock } }

/-! ### Reset and the whole machine -/

/-- 10 R48, 70 R281: every value the spec gives for reset, for every configuration, also one of no strips. -/
def Obligations.ResetLeavesTheStatedValues : Prop :=
  ∀ cfg : Config,
    let s := State.resetWith cfg
    s.cfg = cfg ∧ s.sel = 0 ∧ s.lk.holder = none ∧ s.tx.phase = .tStart ∧ s.tx.k = 0 ∧ s.tx.tFirst = none ∧
      s.ing = ⟨.iIdle, [], 0⟩ ∧ s.ctl = ⟨.cIdle, none⟩ ∧ s.fault = ⟨false, false, false, false, false⟩ ∧ s.hist = [] ∧
      ∀ (i n : Nat) (sc : StripConfig), cfg.strips[i]? = some sc → sc.info.ledCount = n →
        s.mode[i]? = some sc.initMode ∧
          s.cb[i]? = some (List.replicate n ⟨0x00000000, 0x00000000, 0x00000000, 0x00000000⟩) ∧
          s.tx.rendered[i]? = some false ∧
          (∃ buf, s.tx.tb[i]? = some buf ∧ buf.length = 24 * n + 1 ∧ buf[24 * n]? = some .endMark) ∧
          s.tx.cur[i]? = some 0 ∧ s.tx.degraded[i]? = some false

/-- The invariant holds at reset, for every valid configuration (10 R48, 70 R281). That nothing is in flight then is the
model's field `hw` (log entry 17). -/
def Obligations.ResetMeetsTheInvariant : Prop :=
  ∀ cfg : Config, configValid cfg = true → Invariant (State.resetWith cfg)

/-- Every step keeps the invariant, so no fault of the model is ever raised (60 R256), whatever the schedule and the
environment choose: the shapes, the premultiplied colours (10 R27), the sentinels (42 R137), the cursors (10 R39), the
lock discipline (44 R184), the latch (43 R163), and that only whole rewritten buffers are on the wire (10 R48, 20 R73;
the sequence in flight is the model's field `hw`, log entry 17, and the latch is read on `clk`, log entry 5). -/
def Obligations.StepKeepsTheInvariant : Prop := ∀ s t : State, Invariant s → step s = .next t → Invariant t

/-- 10 R28, R38, 20 R60: no instruction changes the shape of a storage space, from every state of the right shape. -/
def Obligations.StorageShapeIsKept : Prop :=
  ∀ (i : Instr) (s t : State), Memory.wf s = true → exec i s = .next t → Memory.wf t = true

/-- 10 R22, R40, R44, R45, 20 R75: no instruction writes the configuration, clears a fault bit or a degraded flag,
removes or changes an event, or turns the time back (the model's field `clk`, log entry 5). -/
def Obligations.NothingIsUndone : Prop :=
  ∀ (i : Instr) (s t : State), exec i s = .next t →
    t.cfg = s.cfg ∧ (∀ k, s.fault.has k = true → t.fault.has k = true) ∧
      (∀ j : Nat, s.tx.degraded[j]? = some true → t.tx.degraded[j]? = some true) ∧ (s.hist <+: t.hist) ∧ s.clk ≤ t.clk

/-- 60 R256, R257: a step that raises a fault adds that bit and has no other effect, also where the bit is set already.
Whether a step raises a fault never depends on the bits that are set: with any other bits `f` in the same state it raises the
same one, or none and does the same. (So a step that raises a kind set already is found by clearing the bits.) That such a
step answers a next state is log entry 14. -/
def Obligations.FaultingStepsHaveNoOtherEffect : Prop :=
  ∀ (i : Instr) (s t : State) (f : FaultBits), exec i s = .next t →
    (t.fault ≠ s.fault → ∃ k, t = faulted s k) ∧
      ((∃ k, t = faulted s k ∧ exec i { s with fault := f } = .next (faulted { s with fault := f } k)) ∨
        (t.fault = s.fault ∧ exec i { s with fault := f } = .next { t with fault := f }))

/-- 10 R25, R28, R29, 20 R61, 45 R218: each shared element and the transmit path is written only by its own
instructions; the steps of `ING` and `CTL` leave all of `TX`'s state, and those of `ING` leave modes and selector
(the submission in flight is the model's field `hw`, log entry 17). -/
def Obligations.EachElementHasItsWriters : Prop :=
  ∀ (i : Instr) (s t : State), exec i s = .next t →
    (writesMode i = false → t.mode = s.mode) ∧ (writesSel i = false → t.sel = s.sel) ∧
      (writesColours i = false → t.cb = s.cb) ∧
      (writesTransmitPath i = false → t.tx.tb = s.tx.tb ∧ t.tx.cur = s.tx.cur) ∧
      (ingStep i = true ∨ ctlStep i = true → t.tx = s.tx ∧ t.hw = s.hw) ∧
      (ingStep i = true → t.mode = s.mode ∧ t.sel = s.sel)
end

