-- ==== Sys2Proof/Laws/Binary32.lean ====
section
/-! SUPPORT. Binary32 rounding (spec 00 R13): it is monotone, exact on every finite value, and never yields a NaN; and the
fields of a packed word. -/

namespace Sys2Proof.Machine

/-! ### Fields of a word -/

/-- The 31 magnitude bits of a word. -/
def F32.bits (x : F32) : Nat := x.toNat % 2 ^ 31

theorem F32.bits_lt (x : F32) : F32.bits x < 2 ^ 31 := Nat.mod_lt _ (by decide)

theorem F32.neg_eq (x : F32) : F32.neg x = decide (2 ^ 31 ≤ x.toNat) := by
  simp [F32.neg, BitVec.msb_eq_decide]

theorem F32.expo_eq (x : F32) : F32.expo x = F32.bits x / 2 ^ 23 := by
  simp only [F32.expo, F32.bits]; omega

theorem F32.frac_eq (x : F32) : F32.frac x = F32.bits x % 2 ^ 23 := by
  simp only [F32.frac, F32.bits]; omega

theorem F32.pack_toNat {neg : Bool} {b : Nat} (h : b < 2 ^ 31) :
    (F32.pack neg b).toNat = b + if neg then 2 ^ 31 else 0 := by
  cases neg <;> simp [F32.pack] <;> omega

theorem F32.neg_pack {neg : Bool} {b : Nat} (h : b < 2 ^ 31) : F32.neg (F32.pack neg b) = neg := by
  rw [F32.neg_eq, F32.pack_toNat h]
  cases neg <;> simp <;> omega

theorem F32.bits_pack {neg : Bool} {b : Nat} (h : b < 2 ^ 31) : F32.bits (F32.pack neg b) = b := by
  rw [F32.bits, F32.pack_toNat h]
  cases neg <;> simp <;> omega

/-- A word is its sign and its magnitude bits. -/
theorem F32.pack_bits (x : F32) : F32.pack (F32.neg x) (F32.bits x) = x := by
  apply BitVec.eq_of_toNat_eq
  rw [F32.pack_toNat (F32.bits_lt x), F32.neg_eq, F32.bits]
  have := x.isLt
  by_cases h : 2 ^ 31 ≤ x.toNat
  · rw [decide_eq_true h, if_pos rfl]; omega
  · rw [decide_eq_false h, if_neg (by decide)]; omega

theorem F32.ext_bits {x y : F32} (hs : F32.neg x = F32.neg y) (hb : F32.bits x = F32.bits y) : x = y := by
  rw [← F32.pack_bits x, ← F32.pack_bits y, hs, hb]

theorem F32.isFinite_iff {x : F32} : F32.isFinite x = true ↔ F32.bits x < 0x7F800000 := by
  have := F32.bits_lt x
  simp only [F32.isFinite, F32.expo_eq, bne_iff_ne, ne_eq]; omega

theorem F32.isInf_iff {x : F32} : F32.isInf x = true ↔ F32.bits x = 0x7F800000 := by
  have := F32.bits_lt x
  simp only [F32.isInf, F32.expo_eq, F32.frac_eq, Bool.and_eq_true, beq_iff_eq]; omega

theorem F32.isNaN_iff {x : F32} : F32.isNaN x = true ↔ 0x7F800000 < F32.bits x := by
  have := F32.bits_lt x
  simp only [F32.isNaN, F32.expo_eq, F32.frac_eq, Bool.and_eq_true, beq_iff_eq, bne_iff_ne, ne_eq]; omega

theorem F32.isNaN_eq_false_of_finite {x : F32} (h : F32.isFinite x = true) : F32.isNaN x = false := by
  have := F32.isFinite_iff.1 h
  rw [Bool.eq_false_iff, ne_eq, F32.isNaN_iff]; omega

theorem F32.isInf_eq_false_of_finite {x : F32} (h : F32.isFinite x = true) : F32.isInf x = false := by
  have := F32.isFinite_iff.1 h
  rw [Bool.eq_false_iff, ne_eq, F32.isInf_iff]; omega

/-- A larger magnitude has larger bits, and the other way round. -/
theorem F32.mag_le_mag {x y : F32} (h : F32.bits x ≤ F32.bits y) : F32.mag x ≤ F32.mag y := by
  simp only [F32.mag, F32.expo_eq, F32.frac_eq]
  generalize F32.bits x = a at h ⊢
  generalize F32.bits y = b at h ⊢
  have hd : a / 2 ^ 23 ≤ b / 2 ^ 23 := Nat.div_le_div_right h
  split <;> split <;> rename_i h1 h2
  · omega
  · have : 1 ≤ 2 ^ (b / 2 ^ 23 - 1) := Nat.one_le_two_pow
    calc a % 2 ^ 23 ≤ (2 ^ 23 + b % 2 ^ 23) * 1 := by omega
      _ ≤ _ := Nat.mul_le_mul_left _ this
  · omega
  · rcases Nat.eq_or_lt_of_le hd with he | hl
    · rw [he]; exact Nat.mul_le_mul_right _ (by omega)
    · calc (2 ^ 23 + a % 2 ^ 23) * 2 ^ (a / 2 ^ 23 - 1) ≤ 2 ^ 24 * 2 ^ (a / 2 ^ 23 - 1) :=
            Nat.mul_le_mul_right _ (by omega)
        _ = 2 ^ 23 * 2 ^ (a / 2 ^ 23 - 1 + 1) := by rw [Nat.pow_succ]; omega
        _ ≤ 2 ^ 23 * 2 ^ (b / 2 ^ 23 - 1) := Nat.mul_le_mul_left _ (Nat.pow_le_pow_right (by decide) (by omega))
        _ ≤ _ := Nat.mul_le_mul_right _ (by omega)

theorem F32.mag_eq_zero_iff {x : F32} : F32.mag x = 0 ↔ F32.bits x = 0 := by
  simp only [F32.mag, F32.expo_eq, F32.frac_eq]
  split
  · omega
  · have : 0 < 2 ^ (F32.bits x / 2 ^ 23 - 1) := Nat.two_pow_pos _
    constructor
    · intro h
      rcases Nat.mul_eq_zero.1 h with h | h <;> omega
    · intro h; omega

theorem F32.oneUnits_pos : 0 < F32.oneUnits := Nat.two_pow_pos _

/-! ### Rounding -/

theorem roundTiesEven_bounds (n d : Nat) : n / d ≤ roundTiesEven n d ∧ roundTiesEven n d ≤ n / d + 1 := by
  simp only [roundTiesEven]
  split <;> omega

theorem roundTiesEven_mono {n m d : Nat} (h : n ≤ m) : roundTiesEven n d ≤ roundTiesEven m d := by
  have hq : n / d ≤ m / d := Nat.div_le_div_right h
  rcases Nat.eq_or_lt_of_le hq with he | hl
  · have h1 := Nat.div_add_mod n d
    have h2 := Nat.div_add_mod m d
    rw [he] at h1
    have hr : n % d ≤ m % d := by omega
    simp only [roundTiesEven, he]
    split <;> split <;> omega
  · have := roundTiesEven_bounds n d
    have := roundTiesEven_bounds m d
    omega

theorem roundTiesEven_mul (n d : Nat) (h : 0 < d) : roundTiesEven (n * d) d = n := by
  simp only [roundTiesEven, Nat.mul_mod_left, Nat.mul_div_cancel _ h]
  split <;> omega

/-- The rounding unit's exponent for a quotient. -/
theorem log2_sub_bounds {q k : Nat} (h : k = Nat.log2 q - 23) : q < 2 ^ (k + 24) ∧ (0 < k → 2 ^ (k + 23) ≤ q) := by
  constructor
  · rcases Nat.eq_zero_or_pos q with rfl | hq
    · exact Nat.two_pow_pos _
    · have := (Nat.log2_lt (by omega : q ≠ 0) (k := k + 24)).1 (by omega)
      exact this
  · intro hk
    have hq : q ≠ 0 := by rintro rfl; simp at h; omega
    have := (Nat.le_log2 hq (k := k + 23)).1 (by omega)
    exact this

/-- Rounding is monotone. -/
theorem roundBits_mono {n m d : Nat} (hd : 0 < d) (h : n ≤ m) : roundBits n d ≤ roundBits m d := by
  have hq : n / d ≤ m / d := Nat.div_le_div_right h
  simp only [roundBits]
  generalize hk : Nat.log2 (n / d) - 23 = k
  generalize hk' : Nat.log2 (m / d) - 23 = k'
  obtain ⟨h1, -⟩ := log2_sub_bounds hk.symm
  obtain ⟨h2, h3⟩ := log2_sub_bounds hk'.symm
  obtain ⟨-, h4⟩ := log2_sub_bounds hk.symm
  have hkk : k ≤ k' := by
    by_contra hc
    have hp : 0 < k := by omega
    have := h4 hp
    have : 2 ^ (k' + 24) ≤ 2 ^ (k + 23) := Nat.pow_le_pow_right (by decide) (by omega)
    omega
  suffices hs : k * 2 ^ 23 + roundTiesEven n (d * 2 ^ k) ≤ k' * 2 ^ 23 + roundTiesEven m (d * 2 ^ k') from
    min_le_min_right _ hs
  rcases Nat.eq_or_lt_of_le hkk with rfl | hlt
  · have := roundTiesEven_mono (d := d * 2 ^ k) h
    omega
  · have hn : n / (d * 2 ^ k) < 2 ^ 24 := by
      rw [← Nat.div_div_eq_div_mul, Nat.div_lt_iff_lt_mul (Nat.two_pow_pos _), ← Nat.pow_add]
      rwa [Nat.add_comm]
    have hm : 2 ^ 23 ≤ m / (d * 2 ^ k') := by
      rw [← Nat.div_div_eq_div_mul, Nat.le_div_iff_mul_le (Nat.two_pow_pos _), ← Nat.pow_add]
      have := h3 (by omega)
      rwa [Nat.add_comm]
    have b1 := roundTiesEven_bounds n (d * 2 ^ k)
    have b2 := roundTiesEven_bounds m (d * 2 ^ k')
    omega

theorem roundBits_le (n d : Nat) : roundBits n d ≤ 0x7F800000 := by
  simp only [roundBits]; omega

theorem roundBits_zero (d : Nat) : roundBits 0 d = 0 := by
  have h : roundTiesEven 0 (d * 2 ^ 0) = 0 := by simp [roundTiesEven]
  have hl : Nat.log2 0 = 0 := by decide
  simp only [roundBits, Nat.zero_div, hl, Nat.zero_sub, h]
  omega

/-- Rounding is exact on every finite value. -/
theorem roundBits_mag {x : F32} {d : Nat} (hd : 0 < d) (h : F32.isFinite x = true) :
    roundBits (F32.mag x * d) d = F32.bits x := by
  have hb := F32.isFinite_iff.1 h
  simp only [roundBits, Nat.mul_div_cancel _ hd, F32.mag, F32.expo_eq, F32.frac_eq]
  generalize F32.bits x = b at hb ⊢
  split <;> rename_i he
  · have hl : Nat.log2 (b % 2 ^ 23) - 23 = 0 := by
      rcases Nat.eq_zero_or_pos (b % 2 ^ 23) with h0 | h0
      · rw [h0]; decide
      · have := (Nat.log2_lt (by omega : b % 2 ^ 23 ≠ 0) (k := 23)).2 (by omega)
        omega
    simp only [hl, Nat.pow_zero, Nat.mul_one, roundTiesEven_mul _ _ hd]
    omega
  · generalize hE : b / 2 ^ 23 = e at he ⊢
    have hM : (2 ^ 23 + b % 2 ^ 23) * 2 ^ (e - 1) ≠ 0 := by
      have := Nat.two_pow_pos (e - 1)
      exact Nat.mul_ne_zero (by omega) (by omega)
    have h1 : 22 + e ≤ Nat.log2 ((2 ^ 23 + b % 2 ^ 23) * 2 ^ (e - 1)) := by
      rw [Nat.le_log2 hM]
      calc 2 ^ (22 + e) = 2 ^ 23 * 2 ^ (e - 1) := by rw [← Nat.pow_add]; congr 1; omega
        _ ≤ _ := Nat.mul_le_mul_right _ (by omega)
    have h2 : Nat.log2 ((2 ^ 23 + b % 2 ^ 23) * 2 ^ (e - 1)) < 23 + e := by
      rw [Nat.log2_lt hM]
      calc (2 ^ 23 + b % 2 ^ 23) * 2 ^ (e - 1) < 2 ^ 24 * 2 ^ (e - 1) :=
            Nat.mul_lt_mul_of_pos_right (by omega) (Nat.two_pow_pos _)
        _ = 2 ^ (23 + e) := by rw [← Nat.pow_add]; congr 1; omega
    have hl : Nat.log2 ((2 ^ 23 + b % 2 ^ 23) * 2 ^ (e - 1)) - 23 = e - 1 := by omega
    have hr : roundTiesEven ((2 ^ 23 + b % 2 ^ 23) * 2 ^ (e - 1) * d) (d * 2 ^ (e - 1)) = 2 ^ 23 + b % 2 ^ 23 := by
      rw [Nat.mul_assoc, Nat.mul_comm (2 ^ (e - 1)) d]
      exact roundTiesEven_mul _ _ (Nat.mul_pos hd (Nat.two_pow_pos _))
    rw [hl, hr]
    omega

theorem F32.round_exact {x : F32} {d : Nat} (hd : 0 < d) (h : F32.isFinite x = true) :
    F32.round (F32.neg x) (F32.mag x * d) d = x := by
  rw [F32.round, roundBits_mag hd h, F32.pack_bits]

theorem F32.neg_round (neg : Bool) (n d : Nat) : F32.neg (F32.round neg n d) = neg :=
  F32.neg_pack (by have := roundBits_le n d; omega)

theorem F32.bits_round (neg : Bool) (n d : Nat) : F32.bits (F32.round neg n d) = roundBits n d :=
  F32.bits_pack (by have := roundBits_le n d; omega)

/-- A rounded value is never a NaN. -/
theorem F32.isNaN_round (neg : Bool) (n d : Nat) : F32.isNaN (F32.round neg n d) = false := by
  have := roundBits_le n d
  rw [Bool.eq_false_iff, ne_eq, F32.isNaN_iff, F32.bits_round]; omega

/-! ### The operations on finite values -/

theorem fmul_finite {x y : F32} (hx : F32.isFinite x = true) (hy : F32.isFinite y = true) :
    fmul x y = F32.round (F32.neg x != F32.neg y) (F32.mag x * F32.mag y) F32.oneUnits := by
  simp [fmul, F32.isNaN_eq_false_of_finite, F32.isInf_eq_false_of_finite, hx, hy]

theorem fadd_finite {x y : F32} (hx : F32.isFinite x = true) (hy : F32.isFinite y = true) :
    fadd x y = F32.addFinite x y := by
  simp [fadd, F32.addAs, F32.isNaN_eq_false_of_finite, F32.isInf_eq_false_of_finite, hx, hy]

/-- The sum of two values that are not negative. -/
theorem fadd_nonneg {x y : F32} (hx : F32.isFinite x = true) (hy : F32.isFinite y = true) (sx : F32.neg x = false)
    (sy : F32.neg y = false) : fadd x y = F32.round false (F32.mag x + F32.mag y) 1 := by
  rw [fadd_finite hx hy, F32.addFinite]
  have hz : F32.units x + F32.units y = ((F32.mag x + F32.mag y : Nat) : Int) := by simp [F32.units, sx, sy]
  simp only [hz, sx, sy, Int.natAbs_natCast]
  split <;> rename_i h0
  · have : F32.mag x + F32.mag y = 0 := by omega
    simp [this, F32.round, roundBits_zero]
  · congr 1

end Sys2Proof.Machine
end

