-- ==== Sys2Proof/Laws/Colour.lean ====
section
/-! SUPPORT. The block's colour domain (spec 40 R107): what a channel of it is, and that the datapath operations stay in
it. -/

namespace Sys2Proof.Machine

/-- A unit channel is not negative, and its bits are at most those of 1.0. -/
theorem unitChannel_iff {x : F32} : unitChannel x = true ↔ F32.neg x = false ∧ F32.bits x ≤ 0x3F800000 := by
  have hone : F32.mag (0x3F800000 : F32) = F32.oneUnits := by decide +kernel
  have hbits : F32.bits (0x3F800000 : F32) = 0x3F800000 := by decide
  simp only [unitChannel, Bool.and_eq_true, Bool.not_eq_true', decide_eq_true_eq]
  constructor
  · rintro ⟨⟨hs, hf⟩, hm⟩
    refine ⟨hs, ?_⟩
    by_contra hc
    have h1 : roundBits (F32.mag x * 1) 1 ≤ roundBits (F32.mag (0x3F800000 : F32) * 1) 1 :=
      roundBits_mono (by decide) (by rw [hone]; omega)
    rw [roundBits_mag (by decide) hf, roundBits_mag (by decide) (by decide), hbits] at h1
    omega
  · rintro ⟨hs, hb⟩
    refine ⟨⟨hs, F32.isFinite_iff.2 (by omega)⟩, ?_⟩
    rw [← hone]
    exact F32.mag_le_mag (by rw [hbits]; exact hb)

theorem unitChannel_finite {x : F32} (h : unitChannel x = true) : F32.isFinite x = true :=
  F32.isFinite_iff.2 (by have := (unitChannel_iff.1 h).2; omega)

theorem unitColour_iff {v : RgbaF32} : unitColour v = true ↔
    unitChannel v.r = true ∧ unitChannel v.g = true ∧ unitChannel v.b = true ∧ unitChannel v.a = true := by
  simp [unitColour, and_assoc]

theorem premultiplied_iff {v : RgbaF32} : premultiplied v = true ↔
    unitColour v = true ∧ F32.mag v.r ≤ F32.mag v.a ∧ F32.mag v.g ≤ F32.mag v.a ∧ F32.mag v.b ≤ F32.mag v.a := by
  simp [premultiplied, and_assoc]

/-- The product of two unit channels is a unit channel, at most its second factor (40 R101). -/
theorem fmul_unit {x y : F32} (hx : unitChannel x = true) (hy : unitChannel y = true) :
    unitChannel (fmul x y) = true ∧ F32.bits (fmul x y) ≤ F32.bits y ∧ F32.neg (fmul x y) = false := by
  have hm : F32.mag x ≤ F32.oneUnits := by simp [unitChannel] at hx; exact hx.2
  have hpos := F32.oneUnits_pos
  have fx := unitChannel_finite hx
  have fy := unitChannel_finite hy
  obtain ⟨sx, -⟩ := unitChannel_iff.1 hx
  obtain ⟨sy, by1⟩ := unitChannel_iff.1 hy
  have hs : F32.neg (fmul x y) = false := by rw [fmul_finite fx fy, F32.neg_round, sx, sy]; rfl
  have hb : F32.bits (fmul x y) ≤ F32.bits y := by
    rw [fmul_finite fx fy, F32.bits_round, ← roundBits_mag hpos fy]
    apply roundBits_mono hpos
    rw [Nat.mul_comm (F32.mag y)]
    exact Nat.mul_le_mul_right _ hm
  exact ⟨unitChannel_iff.2 ⟨hs, by omega⟩, hb, hs⟩

/-- A unit channel times 1.0 is itself. -/
theorem fmul_one {x : F32} (hx : unitChannel x = true) : fmul x 0x3F800000 = x := by
  have hone : F32.mag (0x3F800000 : F32) = F32.oneUnits := by decide +kernel
  have sx := (unitChannel_iff.1 hx).1
  have s1 : F32.neg (0x3F800000 : F32) = false := by decide
  rw [fmul_finite (unitChannel_finite hx) (by decide), hone, s1, show (F32.neg x != false) = F32.neg x by simp]
  exact F32.round_exact F32.oneUnits_pos (unitChannel_finite hx)

/-- A unit channel times zero is zero. -/
theorem fmul_zero {x : F32} (hx : unitChannel x = true) : fmul x 0x00000000 = 0x00000000 := by
  have sx := (unitChannel_iff.1 hx).1
  have s0 : F32.neg (0x00000000 : F32) = false := by decide
  have h0 : F32.mag (0x00000000 : F32) = 0 := by decide
  rw [fmul_finite (unitChannel_finite hx) (by decide), h0, s0, sx, Nat.mul_zero, F32.round, roundBits_zero]
  decide

theorem zero_fmul {x : F32} (hx : unitChannel x = true) : fmul 0x00000000 x = 0x00000000 := by
  have sx := (unitChannel_iff.1 hx).1
  have s0 : F32.neg (0x00000000 : F32) = false := by decide
  have h0 : F32.mag (0x00000000 : F32) = 0 := by decide
  rw [fmul_finite (by decide) (unitChannel_finite hx), h0, s0, sx, Nat.zero_mul, F32.round, roundBits_zero]
  decide

theorem fadd_zero {x : F32} (hx : unitChannel x = true) : fadd x 0x00000000 = x := by
  have sx := (unitChannel_iff.1 hx).1
  have h0 : F32.mag (0x00000000 : F32) = 0 := by decide
  rw [fadd_nonneg (unitChannel_finite hx) (by decide) sx (by decide), h0, Nat.add_zero, ← Nat.mul_one (F32.mag x),
    ← sx]
  exact F32.round_exact (by decide) (unitChannel_finite hx)

theorem zero_fadd {x : F32} (hx : unitChannel x = true) : fadd 0x00000000 x = x := by
  have sx := (unitChannel_iff.1 hx).1
  have h0 : F32.mag (0x00000000 : F32) = 0 := by decide
  rw [fadd_nonneg (by decide) (unitChannel_finite hx) (by decide) sx, h0, Nat.zero_add, ← Nat.mul_one (F32.mag x),
    ← sx]
  exact F32.round_exact (by decide) (unitChannel_finite hx)

/-- `1.0 - x` of a unit channel is a unit channel. -/
theorem one_sub_unit {x : F32} (hx : unitChannel x = true) : unitChannel (fsub fone x) = true := by
  obtain ⟨sx, hb⟩ := unitChannel_iff.1 hx
  have hlt := F32.bits_lt x
  have hn : F32.negate x = F32.pack true (F32.bits x) := by
    apply BitVec.eq_of_toNat_eq
    have e : x = F32.pack false (F32.bits x) := by rw [← sx]; exact (F32.pack_bits x).symm
    have hx31 : x.toNat < 2 ^ 31 := by rw [e, F32.pack_toNat hlt]; simpa using hlt
    have hnt : (F32.negate x).toNat = x.toNat + 2 ^ 31 := by
      simp only [F32.negate, BitVec.toNat_xor]
      have h2 : (0x80000000 : BitVec 32).toNat = 2 ^ 31 := by decide
      rw [h2, Nat.xor_comm]
      have := Nat.two_pow_add_eq_or_of_lt (i := 31) hx31 1
      rw [Nat.mul_one] at this
      rw [Nat.add_comm, this]
      apply Nat.eq_of_testBit_eq
      intro i
      simp only [Nat.testBit_xor, Nat.testBit_or, Nat.testBit_two_pow]
      by_cases hi : 31 = i
      · subst hi; simp [Nat.testBit_lt_two_pow hx31]
      · simp [hi]
    rw [hnt, F32.pack_toNat hlt, F32.bits, Nat.mod_eq_of_lt hx31]
    simp
  have hbn : F32.bits (F32.negate x) = F32.bits x := by rw [hn, F32.bits_pack hlt]
  have hsn : F32.neg (F32.negate x) = true := by rw [hn, F32.neg_pack hlt]
  have hfn : F32.isFinite (F32.negate x) = true := F32.isFinite_iff.2 (by omega)
  have hmn : F32.mag (F32.negate x) = F32.mag x := by
    simp only [F32.mag, F32.expo_eq, F32.frac_eq, hbn]
  have hone : F32.mag fone = F32.oneUnits := by decide +kernel
  have hm : F32.mag x ≤ F32.oneUnits := by simp [unitChannel] at hx; exact hx.2
  have hfone : F32.isFinite fone = true := by decide
  have hval : fsub fone x = F32.addFinite fone (F32.negate x) := by
    simp [fsub, F32.addAs, F32.isNaN_eq_false_of_finite, F32.isInf_eq_false_of_finite, hfn, hfone]
  have hz : F32.units fone + F32.units (F32.negate x) = ((F32.oneUnits - F32.mag x : Nat) : Int) := by
    have s1 : F32.neg fone = false := by decide
    simp only [F32.units, s1, hsn, hmn, hone]
    simp only [Bool.false_eq_true, if_false, if_true]
    omega
  rw [hval, F32.addFinite, hz]
  split
  · have s1 : F32.neg fone = false := by decide
    rw [s1, Bool.false_and]; decide
  · have hn0 : decide (((F32.oneUnits - F32.mag x : Nat) : Int) < 0) = false := by simp
    rw [hn0, unitChannel_iff, F32.neg_round, F32.bits_round]
    refine ⟨rfl, ?_⟩
    have h1 : roundBits (F32.oneUnits - F32.mag x) 1 ≤ roundBits (F32.mag fone * 1) 1 :=
      roundBits_mono (by decide) (by rw [hone]; omega)
    rw [roundBits_mag (by decide) hfone] at h1
    have : F32.bits fone = 0x3F800000 := by decide
    rw [Int.natAbs_natCast]
    omega

/-- Every byte's channel is a unit channel (40 R100). -/
theorem b2f_unit : ∀ c : Byte, unitChannel (b2f c) = true := by decide +kernel

/-- A sum of unit channels is not negative and no NaN. -/
theorem fadd_unit {x y : F32} (hx : unitChannel x = true) (hy : unitChannel y = true) :
    fadd x y = F32.round false (F32.mag x + F32.mag y) 1 :=
  fadd_nonneg (unitChannel_finite hx) (unitChannel_finite hy) (unitChannel_iff.1 hx).1 (unitChannel_iff.1 hy).1

/-- The sum of unit channels is monotone. -/
theorem fadd_mono {x y x' y' : F32} (hx : unitChannel x = true) (hy : unitChannel y = true)
    (hx' : unitChannel x' = true) (hy' : unitChannel y' = true) (h : F32.bits x ≤ F32.bits x')
    (h' : F32.bits y ≤ F32.bits y') : F32.bits (fadd x y) ≤ F32.bits (fadd x' y') := by
  rw [fadd_unit hx hy, fadd_unit hx' hy', F32.bits_round, F32.bits_round]
  exact roundBits_mono (by decide) (Nat.add_le_add (F32.mag_le_mag h) (F32.mag_le_mag h'))

/-- A premultiplied colour made from unit channels (40 R101). -/
theorem rgbaNew_premultiplied {r g b a : F32} (hr : unitChannel r = true) (hg : unitChannel g = true)
    (hb : unitChannel b = true) (ha : unitChannel a = true) : premultiplied (rgbaNew r g b a) = true :=
  premultiplied_iff.2 ⟨unitColour_iff.2 ⟨(fmul_unit hr ha).1, (fmul_unit hg ha).1, (fmul_unit hb ha).1, ha⟩,
    F32.mag_le_mag (fmul_unit hr ha).2.1, F32.mag_le_mag (fmul_unit hg ha).2.1, F32.mag_le_mag (fmul_unit hb ha).2.1⟩

/-- Blending unit colours gives no NaN, so it converts to a pixel. -/
theorem blend_noNaN {x y t : F32} (hx : unitChannel x = true) (hy : unitChannel y = true)
    (ht : unitChannel t = true) : F32.isNaN (fadd x (fmul y t)) = false := by
  rw [fadd_unit hx (fmul_unit hy ht).1]
  exact F32.isNaN_round _ _ _

theorem toByte_isSome {x : F32} (h : F32.isNaN x = false) : ∃ b, toByte x = some b := ⟨_, by simp [toByte, h]; rfl⟩

end Sys2Proof.Machine
end

