-- ==== Sys2Proof/Laws/Decode.lean ====
section
/-! SUPPORT. What the payload decoders and the record decoder read (spec 30 R81 to R87). -/

namespace Sys2Proof

/-- Reading back an RGB payload (30 R83). -/
theorem takeRgb_bytes (px : List Rgb8) (rest : List Byte) :
    takeRgb px.length (rgbBytes px ++ rest) = some (px, rest) := by
  induction px with
  | nil => rfl
  | cons p ps ih =>
    have h : rgbBytes (p :: ps) = p.r :: p.g :: p.b :: rgbBytes ps := rfl
    simp [h, takeRgb, ih]

/-- Reading back an RGBA payload (30 R84). -/
theorem takeRgba_bytes (px : List Rgba8) (rest : List Byte) :
    takeRgba px.length (rgbaBytes px ++ rest) = some (px, rest) := by
  induction px with
  | nil => rfl
  | cons p ps ih =>
    have h : rgbaBytes (p :: ps) = p.r :: p.g :: p.b :: p.a :: rgbaBytes ps := rfl
    simp [h, takeRgba, ih]

/-- What was read as `n` triples is their bytes. -/
theorem takeRgb_inv {n : Nat} {bs rest : List Byte} {px : List Rgb8} (h : takeRgb n bs = some (px, rest)) :
    px.length = n ∧ bs = rgbBytes px ++ rest := by
  induction n generalizing bs px with
  | zero =>
    obtain ⟨rfl, rfl⟩ : px = [] ∧ rest = bs := by simpa [takeRgb, eq_comm] using h
    exact ⟨rfl, rfl⟩
  | succ n ih =>
    match bs, h with
    | r :: g :: b :: bs, h =>
      obtain ⟨⟨px', rest'⟩, h1, h2⟩ := Option.map_eq_some_iff.1 h
      obtain ⟨rfl, rfl⟩ := Prod.mk.inj h2
      obtain ⟨h3, rfl⟩ := ih h1
      exact ⟨by simp [h3], rfl⟩

/-- What was read as `n` quads is their bytes. -/
theorem takeRgba_inv {n : Nat} {bs rest : List Byte} {px : List Rgba8} (h : takeRgba n bs = some (px, rest)) :
    px.length = n ∧ bs = rgbaBytes px ++ rest := by
  induction n generalizing bs px with
  | zero =>
    obtain ⟨rfl, rfl⟩ : px = [] ∧ rest = bs := by simpa [takeRgba, eq_comm] using h
    exact ⟨rfl, rfl⟩
  | succ n ih =>
    match bs, h with
    | r :: g :: b :: a :: bs, h =>
      obtain ⟨⟨px', rest'⟩, h1, h2⟩ := Option.map_eq_some_iff.1 h
      obtain ⟨rfl, rfl⟩ := Prod.mk.inj h2
      obtain ⟨h3, rfl⟩ := ih h1
      exact ⟨by simp [h3], rfl⟩

@[simp] theorem rgbBytes_length (px : List Rgb8) : (rgbBytes px).length = 3 * px.length := by
  simp [rgbBytes, Nat.mul_comm]

@[simp] theorem rgbaBytes_length (px : List Rgba8) : (rgbaBytes px).length = 4 * px.length := by
  simp [rgbaBytes, Nat.mul_comm]

/-- How many payload bytes a record carries (30 R82). -/
def Record.payloadLen : Record → Nat
  | .sbm _ px => 3 * px.length
  | .sbs _ _ => 3
  | .rsv2 _ => 0
  | .sbma _ px => 4 * px.length
  | .rsv4 _ => 0
  | .unrec _ _ => 0

/-- A record that decodes takes its two header bytes and its payload (30 R85). -/
theorem decodeRecordHead_length {cfg : Config} {bs rest : List Byte} {r : Record}
    (h : decodeRecordHead cfg bs = .ok (r, rest)) : bs.length = 2 + r.payloadLen + rest.length := by
  unfold decodeRecordHead at h
  split at h
  · split at h
    · unfold decodePayload at h
      split at h
      · split at h <;> simp only [Except.ok.injEq, Prod.mk.injEq, reduceCtorEq] at h
        rename_i hpx
        obtain ⟨rfl, rfl⟩ := h
        obtain ⟨-, rfl⟩ := takeRgb_inv hpx
        simp [Record.payloadLen]; omega
      · split at h <;> simp only [Except.ok.injEq, Prod.mk.injEq, reduceCtorEq] at h
        obtain ⟨rfl, rfl⟩ := h
        simp [Record.payloadLen]; omega
      · obtain ⟨rfl, rfl⟩ := Prod.mk.inj (Except.ok.inj h)
        simp [Record.payloadLen]; omega
      · split at h <;> simp only [Except.ok.injEq, Prod.mk.injEq, reduceCtorEq] at h
        rename_i hpx
        obtain ⟨rfl, rfl⟩ := h
        obtain ⟨-, rfl⟩ := takeRgba_inv hpx
        simp [Record.payloadLen]; omega
      · obtain ⟨rfl, rfl⟩ := Prod.mk.inj (Except.ok.inj h)
        simp [Record.payloadLen]; omega
      · obtain ⟨rfl, rfl⟩ := Prod.mk.inj (Except.ok.inj h)
        simp [Record.payloadLen]; omega
    · simp at h
  · simp at h

end Sys2Proof
end

