-- ==== Sys2Proof/Laws/State.lean ====
section
/-! SUPPORT. The fields of the state after each named update, one lemma per field per update. -/

namespace Sys2Proof.Machine

variable (s : State)

/-! ### `State.record` -/

@[simp] theorem State.record_cfg (e : Event) : (s.record e).cfg = s.cfg := rfl
@[simp] theorem State.record_mode (e : Event) : (s.record e).mode = s.mode := rfl
@[simp] theorem State.record_cb (e : Event) : (s.record e).cb = s.cb := rfl
@[simp] theorem State.record_sel (e : Event) : (s.record e).sel = s.sel := rfl
@[simp] theorem State.record_lk (e : Event) : (s.record e).lk = s.lk := rfl
@[simp] theorem State.record_tx (e : Event) : (s.record e).tx = s.tx := rfl
@[simp] theorem State.record_ing (e : Event) : (s.record e).ing = s.ing := rfl
@[simp] theorem State.record_ctl (e : Event) : (s.record e).ctl = s.ctl := rfl
@[simp] theorem State.record_fault (e : Event) : (s.record e).fault = s.fault := rfl
@[simp] theorem State.record_hist (e : Event) : (s.record e).hist = s.hist ++ [e] := rfl
@[simp] theorem State.record_clk (e : Event) : (s.record e).clk = s.clk := rfl
@[simp] theorem State.record_hw (e : Event) : (s.record e).hw = s.hw := rfl
@[simp] theorem State.record_out (e : Event) : (s.record e).out = s.out := rfl
@[simp] theorem State.record_sched (e : Event) : (s.record e).sched = s.sched := rfl
@[simp] theorem State.record_draws (e : Event) : (s.record e).draws = s.draws := rfl

/-! ### `State.yield` -/

@[simp] theorem State.yield_cfg (v : OpResult) : (s.yield v).cfg = s.cfg := rfl
@[simp] theorem State.yield_mode (v : OpResult) : (s.yield v).mode = s.mode := rfl
@[simp] theorem State.yield_cb (v : OpResult) : (s.yield v).cb = s.cb := rfl
@[simp] theorem State.yield_sel (v : OpResult) : (s.yield v).sel = s.sel := rfl
@[simp] theorem State.yield_lk (v : OpResult) : (s.yield v).lk = s.lk := rfl
@[simp] theorem State.yield_tx (v : OpResult) : (s.yield v).tx = s.tx := rfl
@[simp] theorem State.yield_ing (v : OpResult) : (s.yield v).ing = s.ing := rfl
@[simp] theorem State.yield_ctl (v : OpResult) : (s.yield v).ctl = s.ctl := rfl
@[simp] theorem State.yield_fault (v : OpResult) : (s.yield v).fault = s.fault := rfl
@[simp] theorem State.yield_hist (v : OpResult) : (s.yield v).hist = s.hist := rfl
@[simp] theorem State.yield_clk (v : OpResult) : (s.yield v).clk = s.clk := rfl
@[simp] theorem State.yield_hw (v : OpResult) : (s.yield v).hw = s.hw := rfl
@[simp] theorem State.yield_out (v : OpResult) : (s.yield v).out = v := rfl
@[simp] theorem State.yield_sched (v : OpResult) : (s.yield v).sched = s.sched := rfl
@[simp] theorem State.yield_draws (v : OpResult) : (s.yield v).draws = s.draws := rfl

/-! ### `State.raise` -/

@[simp] theorem State.raise_cfg (k : FaultKind) : (s.raise k).cfg = s.cfg := rfl
@[simp] theorem State.raise_mode (k : FaultKind) : (s.raise k).mode = s.mode := rfl
@[simp] theorem State.raise_cb (k : FaultKind) : (s.raise k).cb = s.cb := rfl
@[simp] theorem State.raise_sel (k : FaultKind) : (s.raise k).sel = s.sel := rfl
@[simp] theorem State.raise_lk (k : FaultKind) : (s.raise k).lk = s.lk := rfl
@[simp] theorem State.raise_tx (k : FaultKind) : (s.raise k).tx = s.tx := rfl
@[simp] theorem State.raise_ing (k : FaultKind) : (s.raise k).ing = s.ing := rfl
@[simp] theorem State.raise_ctl (k : FaultKind) : (s.raise k).ctl = s.ctl := rfl
@[simp] theorem State.raise_fault (k : FaultKind) : (s.raise k).fault = s.fault.add k := rfl
@[simp] theorem State.raise_hist (k : FaultKind) : (s.raise k).hist = s.hist := rfl
@[simp] theorem State.raise_clk (k : FaultKind) : (s.raise k).clk = s.clk := rfl
@[simp] theorem State.raise_hw (k : FaultKind) : (s.raise k).hw = s.hw := rfl
@[simp] theorem State.raise_out (k : FaultKind) : (s.raise k).out = s.out := rfl
@[simp] theorem State.raise_sched (k : FaultKind) : (s.raise k).sched = s.sched := rfl
@[simp] theorem State.raise_draws (k : FaultKind) : (s.raise k).draws = s.draws := rfl

/-! ### `State.sawTime` -/

@[simp] theorem State.sawTime_cfg (t : Nat) : (s.sawTime t).cfg = s.cfg := rfl
@[simp] theorem State.sawTime_mode (t : Nat) : (s.sawTime t).mode = s.mode := rfl
@[simp] theorem State.sawTime_cb (t : Nat) : (s.sawTime t).cb = s.cb := rfl
@[simp] theorem State.sawTime_sel (t : Nat) : (s.sawTime t).sel = s.sel := rfl
@[simp] theorem State.sawTime_lk (t : Nat) : (s.sawTime t).lk = s.lk := rfl
@[simp] theorem State.sawTime_tx (t : Nat) : (s.sawTime t).tx = s.tx := rfl
@[simp] theorem State.sawTime_ing (t : Nat) : (s.sawTime t).ing = s.ing := rfl
@[simp] theorem State.sawTime_ctl (t : Nat) : (s.sawTime t).ctl = s.ctl := rfl
@[simp] theorem State.sawTime_fault (t : Nat) : (s.sawTime t).fault = s.fault := rfl
@[simp] theorem State.sawTime_hist (t : Nat) : (s.sawTime t).hist = s.hist := rfl
@[simp] theorem State.sawTime_clk (t : Nat) : (s.sawTime t).clk = t := rfl
@[simp] theorem State.sawTime_hw (t : Nat) : (s.sawTime t).hw = s.hw := rfl
@[simp] theorem State.sawTime_out (t : Nat) : (s.sawTime t).out = s.out := rfl
@[simp] theorem State.sawTime_sched (t : Nat) : (s.sawTime t).sched = s.sched := rfl
@[simp] theorem State.sawTime_draws (t : Nat) : (s.sawTime t).draws = s.draws := rfl

/-! ### `State.setTxPhase` -/

@[simp] theorem State.setTxPhase_cfg (p : TxPhase) : (s.setTxPhase p).cfg = s.cfg := rfl
@[simp] theorem State.setTxPhase_mode (p : TxPhase) : (s.setTxPhase p).mode = s.mode := rfl
@[simp] theorem State.setTxPhase_cb (p : TxPhase) : (s.setTxPhase p).cb = s.cb := rfl
@[simp] theorem State.setTxPhase_sel (p : TxPhase) : (s.setTxPhase p).sel = s.sel := rfl
@[simp] theorem State.setTxPhase_lk (p : TxPhase) : (s.setTxPhase p).lk = s.lk := rfl
@[simp] theorem State.setTxPhase_tx (p : TxPhase) : (s.setTxPhase p).tx = { s.tx with phase := p } := rfl
@[simp] theorem State.setTxPhase_ing (p : TxPhase) : (s.setTxPhase p).ing = s.ing := rfl
@[simp] theorem State.setTxPhase_ctl (p : TxPhase) : (s.setTxPhase p).ctl = s.ctl := rfl
@[simp] theorem State.setTxPhase_fault (p : TxPhase) : (s.setTxPhase p).fault = s.fault := rfl
@[simp] theorem State.setTxPhase_hist (p : TxPhase) : (s.setTxPhase p).hist = s.hist := rfl
@[simp] theorem State.setTxPhase_clk (p : TxPhase) : (s.setTxPhase p).clk = s.clk := rfl
@[simp] theorem State.setTxPhase_hw (p : TxPhase) : (s.setTxPhase p).hw = s.hw := rfl
@[simp] theorem State.setTxPhase_out (p : TxPhase) : (s.setTxPhase p).out = s.out := rfl
@[simp] theorem State.setTxPhase_sched (p : TxPhase) : (s.setTxPhase p).sched = s.sched := rfl
@[simp] theorem State.setTxPhase_draws (p : TxPhase) : (s.setTxPhase p).draws = s.draws := rfl

/-! ### `State.setK` -/

@[simp] theorem State.setK_cfg (k : Nat) : (s.setK k).cfg = s.cfg := rfl
@[simp] theorem State.setK_mode (k : Nat) : (s.setK k).mode = s.mode := rfl
@[simp] theorem State.setK_cb (k : Nat) : (s.setK k).cb = s.cb := rfl
@[simp] theorem State.setK_sel (k : Nat) : (s.setK k).sel = s.sel := rfl
@[simp] theorem State.setK_lk (k : Nat) : (s.setK k).lk = s.lk := rfl
@[simp] theorem State.setK_tx (k : Nat) : (s.setK k).tx = { s.tx with k := k } := rfl
@[simp] theorem State.setK_ing (k : Nat) : (s.setK k).ing = s.ing := rfl
@[simp] theorem State.setK_ctl (k : Nat) : (s.setK k).ctl = s.ctl := rfl
@[simp] theorem State.setK_fault (k : Nat) : (s.setK k).fault = s.fault := rfl
@[simp] theorem State.setK_hist (k : Nat) : (s.setK k).hist = s.hist := rfl
@[simp] theorem State.setK_clk (k : Nat) : (s.setK k).clk = s.clk := rfl
@[simp] theorem State.setK_hw (k : Nat) : (s.setK k).hw = s.hw := rfl
@[simp] theorem State.setK_out (k : Nat) : (s.setK k).out = s.out := rfl
@[simp] theorem State.setK_sched (k : Nat) : (s.setK k).sched = s.sched := rfl
@[simp] theorem State.setK_draws (k : Nat) : (s.setK k).draws = s.draws := rfl

/-! ### `State.setIngPhase` -/

@[simp] theorem State.setIngPhase_cfg (p : IngPhase) : (s.setIngPhase p).cfg = s.cfg := rfl
@[simp] theorem State.setIngPhase_mode (p : IngPhase) : (s.setIngPhase p).mode = s.mode := rfl
@[simp] theorem State.setIngPhase_cb (p : IngPhase) : (s.setIngPhase p).cb = s.cb := rfl
@[simp] theorem State.setIngPhase_sel (p : IngPhase) : (s.setIngPhase p).sel = s.sel := rfl
@[simp] theorem State.setIngPhase_lk (p : IngPhase) : (s.setIngPhase p).lk = s.lk := rfl
@[simp] theorem State.setIngPhase_tx (p : IngPhase) : (s.setIngPhase p).tx = s.tx := rfl
@[simp] theorem State.setIngPhase_ing (p : IngPhase) : (s.setIngPhase p).ing = { s.ing with phase := p } := rfl
@[simp] theorem State.setIngPhase_ctl (p : IngPhase) : (s.setIngPhase p).ctl = s.ctl := rfl
@[simp] theorem State.setIngPhase_fault (p : IngPhase) : (s.setIngPhase p).fault = s.fault := rfl
@[simp] theorem State.setIngPhase_hist (p : IngPhase) : (s.setIngPhase p).hist = s.hist := rfl
@[simp] theorem State.setIngPhase_clk (p : IngPhase) : (s.setIngPhase p).clk = s.clk := rfl
@[simp] theorem State.setIngPhase_hw (p : IngPhase) : (s.setIngPhase p).hw = s.hw := rfl
@[simp] theorem State.setIngPhase_out (p : IngPhase) : (s.setIngPhase p).out = s.out := rfl
@[simp] theorem State.setIngPhase_sched (p : IngPhase) : (s.setIngPhase p).sched = s.sched := rfl
@[simp] theorem State.setIngPhase_draws (p : IngPhase) : (s.setIngPhase p).draws = s.draws := rfl

/-! ### `State.setCtlPhase` -/

@[simp] theorem State.setCtlPhase_cfg (p : CtlPhase) : (s.setCtlPhase p).cfg = s.cfg := rfl
@[simp] theorem State.setCtlPhase_mode (p : CtlPhase) : (s.setCtlPhase p).mode = s.mode := rfl
@[simp] theorem State.setCtlPhase_cb (p : CtlPhase) : (s.setCtlPhase p).cb = s.cb := rfl
@[simp] theorem State.setCtlPhase_sel (p : CtlPhase) : (s.setCtlPhase p).sel = s.sel := rfl
@[simp] theorem State.setCtlPhase_lk (p : CtlPhase) : (s.setCtlPhase p).lk = s.lk := rfl
@[simp] theorem State.setCtlPhase_tx (p : CtlPhase) : (s.setCtlPhase p).tx = s.tx := rfl
@[simp] theorem State.setCtlPhase_ing (p : CtlPhase) : (s.setCtlPhase p).ing = s.ing := rfl
@[simp] theorem State.setCtlPhase_ctl (p : CtlPhase) : (s.setCtlPhase p).ctl = { s.ctl with phase := p } := rfl
@[simp] theorem State.setCtlPhase_fault (p : CtlPhase) : (s.setCtlPhase p).fault = s.fault := rfl
@[simp] theorem State.setCtlPhase_hist (p : CtlPhase) : (s.setCtlPhase p).hist = s.hist := rfl
@[simp] theorem State.setCtlPhase_clk (p : CtlPhase) : (s.setCtlPhase p).clk = s.clk := rfl
@[simp] theorem State.setCtlPhase_hw (p : CtlPhase) : (s.setCtlPhase p).hw = s.hw := rfl
@[simp] theorem State.setCtlPhase_out (p : CtlPhase) : (s.setCtlPhase p).out = s.out := rfl
@[simp] theorem State.setCtlPhase_sched (p : CtlPhase) : (s.setCtlPhase p).sched = s.sched := rfl
@[simp] theorem State.setCtlPhase_draws (p : CtlPhase) : (s.setCtlPhase p).draws = s.draws := rfl

/-! ### `State.abort` -/

@[simp] theorem State.abort_cfg (k : ErrorKind) : (s.abort k).cfg = s.cfg := rfl
@[simp] theorem State.abort_mode (k : ErrorKind) : (s.abort k).mode = s.mode := rfl
@[simp] theorem State.abort_cb (k : ErrorKind) : (s.abort k).cb = s.cb := rfl
@[simp] theorem State.abort_sel (k : ErrorKind) : (s.abort k).sel = s.sel := rfl
@[simp] theorem State.abort_lk (k : ErrorKind) : (s.abort k).lk = s.lk := rfl
@[simp] theorem State.abort_tx (k : ErrorKind) : (s.abort k).tx = s.tx := rfl
@[simp] theorem State.abort_ing (k : ErrorKind) : (s.abort k).ing = { s.ing with phase := .iUnlock } := rfl
@[simp] theorem State.abort_ctl (k : ErrorKind) : (s.abort k).ctl = s.ctl := rfl
@[simp] theorem State.abort_fault (k : ErrorKind) : (s.abort k).fault = s.fault := rfl
@[simp] theorem State.abort_hist (k : ErrorKind) : (s.abort k).hist = s.hist ++ [.abort k s.ing.c] := rfl
@[simp] theorem State.abort_clk (k : ErrorKind) : (s.abort k).clk = s.clk := rfl
@[simp] theorem State.abort_hw (k : ErrorKind) : (s.abort k).hw = s.hw := rfl
@[simp] theorem State.abort_out (k : ErrorKind) : (s.abort k).out = s.out := rfl
@[simp] theorem State.abort_sched (k : ErrorKind) : (s.abort k).sched = s.sched := rfl
@[simp] theorem State.abort_draws (k : ErrorKind) : (s.abort k).draws = s.draws := rfl

/-! ### `State.acquire` -/

@[simp] theorem State.acquire_cfg (a : Agent) : (s.acquire a).cfg = s.cfg := rfl
@[simp] theorem State.acquire_mode (a : Agent) : (s.acquire a).mode = s.mode := rfl
@[simp] theorem State.acquire_cb (a : Agent) : (s.acquire a).cb = s.cb := rfl
@[simp] theorem State.acquire_sel (a : Agent) : (s.acquire a).sel = s.sel := rfl
@[simp] theorem State.acquire_lk (a : Agent) : (s.acquire a).lk = ⟨some a⟩ := rfl
@[simp] theorem State.acquire_tx (a : Agent) : (s.acquire a).tx = s.tx := rfl
@[simp] theorem State.acquire_ing (a : Agent) : (s.acquire a).ing = s.ing := rfl
@[simp] theorem State.acquire_ctl (a : Agent) : (s.acquire a).ctl = s.ctl := rfl
@[simp] theorem State.acquire_fault (a : Agent) : (s.acquire a).fault = s.fault := rfl
@[simp] theorem State.acquire_hist (a : Agent) : (s.acquire a).hist = s.hist ++ [.acquire a] := rfl
@[simp] theorem State.acquire_clk (a : Agent) : (s.acquire a).clk = s.clk := rfl
@[simp] theorem State.acquire_hw (a : Agent) : (s.acquire a).hw = s.hw := rfl
@[simp] theorem State.acquire_out (a : Agent) : (s.acquire a).out = s.out := rfl
@[simp] theorem State.acquire_sched (a : Agent) : (s.acquire a).sched = s.sched := rfl
@[simp] theorem State.acquire_draws (a : Agent) : (s.acquire a).draws = s.draws := rfl

/-! ### `State.transmit` -/

@[simp] theorem State.transmit_cfg (ys : List Symbol) : (s.transmit ys).cfg = s.cfg := rfl
@[simp] theorem State.transmit_mode (ys : List Symbol) : (s.transmit ys).mode = s.mode := rfl
@[simp] theorem State.transmit_cb (ys : List Symbol) : (s.transmit ys).cb = s.cb := rfl
@[simp] theorem State.transmit_sel (ys : List Symbol) : (s.transmit ys).sel = s.sel := rfl
@[simp] theorem State.transmit_lk (ys : List Symbol) : (s.transmit ys).lk = s.lk := rfl
@[simp] theorem State.transmit_tx (ys : List Symbol) : (s.transmit ys).tx = s.tx := rfl
@[simp] theorem State.transmit_ing (ys : List Symbol) : (s.transmit ys).ing = s.ing := rfl
@[simp] theorem State.transmit_ctl (ys : List Symbol) : (s.transmit ys).ctl = s.ctl := rfl
@[simp] theorem State.transmit_fault (ys : List Symbol) : (s.transmit ys).fault = s.fault := rfl
@[simp] theorem State.transmit_hist (ys : List Symbol) : (s.transmit ys).hist = s.hist := rfl
@[simp] theorem State.transmit_clk (ys : List Symbol) : (s.transmit ys).clk = s.clk := rfl
@[simp] theorem State.transmit_hw (ys : List Symbol) : (s.transmit ys).hw = some ys := rfl
@[simp] theorem State.transmit_out (ys : List Symbol) : (s.transmit ys).out = s.out := rfl
@[simp] theorem State.transmit_sched (ys : List Symbol) : (s.transmit ys).sched = s.sched := rfl
@[simp] theorem State.transmit_draws (ys : List Symbol) : (s.transmit ys).draws = s.draws := rfl

/-! ### `State.completed` -/

@[simp] theorem State.completed_cfg : (s.completed).cfg = s.cfg := rfl
@[simp] theorem State.completed_mode : (s.completed).mode = s.mode := rfl
@[simp] theorem State.completed_cb : (s.completed).cb = s.cb := rfl
@[simp] theorem State.completed_sel : (s.completed).sel = s.sel := rfl
@[simp] theorem State.completed_lk : (s.completed).lk = s.lk := rfl
@[simp] theorem State.completed_tx : (s.completed).tx = s.tx := rfl
@[simp] theorem State.completed_ing : (s.completed).ing = s.ing := rfl
@[simp] theorem State.completed_ctl : (s.completed).ctl = s.ctl := rfl
@[simp] theorem State.completed_fault : (s.completed).fault = s.fault := rfl
@[simp] theorem State.completed_hist : (s.completed).hist = s.hist := rfl
@[simp] theorem State.completed_clk : (s.completed).clk = s.clk := rfl
@[simp] theorem State.completed_hw : (s.completed).hw = none := rfl
@[simp] theorem State.completed_out : (s.completed).out = s.out := rfl
@[simp] theorem State.completed_sched : (s.completed).sched = s.sched := rfl
@[simp] theorem State.completed_draws : (s.completed).draws = s.draws := rfl

/-! ### `State.withEncoders` -/

@[simp] theorem State.withEncoders_cfg (tb : List (List Symbol)) (cur : List Nat) :
    (s.withEncoders tb cur).cfg = s.cfg := rfl
@[simp] theorem State.withEncoders_mode (tb : List (List Symbol)) (cur : List Nat) :
    (s.withEncoders tb cur).mode = s.mode := rfl
@[simp] theorem State.withEncoders_cb (tb : List (List Symbol)) (cur : List Nat) :
    (s.withEncoders tb cur).cb = s.cb := rfl
@[simp] theorem State.withEncoders_sel (tb : List (List Symbol)) (cur : List Nat) :
    (s.withEncoders tb cur).sel = s.sel := rfl
@[simp] theorem State.withEncoders_lk (tb : List (List Symbol)) (cur : List Nat) :
    (s.withEncoders tb cur).lk = s.lk := rfl
@[simp] theorem State.withEncoders_tx (tb : List (List Symbol)) (cur : List Nat) :
    (s.withEncoders tb cur).tx = { s.tx with tb := tb, cur := cur } := rfl
@[simp] theorem State.withEncoders_ing (tb : List (List Symbol)) (cur : List Nat) :
    (s.withEncoders tb cur).ing = s.ing := rfl
@[simp] theorem State.withEncoders_ctl (tb : List (List Symbol)) (cur : List Nat) :
    (s.withEncoders tb cur).ctl = s.ctl := rfl
@[simp] theorem State.withEncoders_fault (tb : List (List Symbol)) (cur : List Nat) :
    (s.withEncoders tb cur).fault = s.fault := rfl
@[simp] theorem State.withEncoders_hist (tb : List (List Symbol)) (cur : List Nat) :
    (s.withEncoders tb cur).hist = s.hist := rfl
@[simp] theorem State.withEncoders_clk (tb : List (List Symbol)) (cur : List Nat) :
    (s.withEncoders tb cur).clk = s.clk := rfl
@[simp] theorem State.withEncoders_hw (tb : List (List Symbol)) (cur : List Nat) :
    (s.withEncoders tb cur).hw = s.hw := rfl
@[simp] theorem State.withEncoders_out (tb : List (List Symbol)) (cur : List Nat) :
    (s.withEncoders tb cur).out = s.out := rfl
@[simp] theorem State.withEncoders_sched (tb : List (List Symbol)) (cur : List Nat) :
    (s.withEncoders tb cur).sched = s.sched := rfl
@[simp] theorem State.withEncoders_draws (tb : List (List Symbol)) (cur : List Nat) :
    (s.withEncoders tb cur).draws = s.draws := rfl

end Sys2Proof.Machine
end

