-- ==== Sys2Proof/Laws/Ops.lean ====
section
/-! SUPPORT. What each shared operation can do, said once: when it answers a value and which, and when it faults. -/

namespace Sys2Proof.Machine

/-! ### Answers of `Except` and of a step -/

theorem bind_eq_ok {α β : Type} {e : Except FaultKind α} {f : α → Except FaultKind β} {b : β} :
    e.bind f = .ok b ↔ ∃ a, e = .ok a ∧ f a = .ok b := by
  cases e <;> simp [Except.bind]

/-- An answer read the other way round, so that a state comes out as `t = …`. -/
theorem ok_eq_ok {α : Type} {a b : α} : (Except.ok a : Except FaultKind α) = .ok b ↔ b = a := by
  simp [eq_comm]

@[simp] theorem ok_bind {α β : Type} (a : α) (f : α → Except FaultKind β) : (Except.ok a).bind f = f a := rfl

@[simp] theorem error_bind {α β : Type} (k : FaultKind) (f : α → Except FaultKind β) :
    (Except.error k : Except FaultKind α).bind f = .error k := rfl

@[simp] theorem commit_ok (s s' : State) : commit s (.ok s') = .next s' := rfl

@[simp] theorem commit_error (s : State) (k : FaultKind) : commit s (.error k) = .next (s.raise k) := rfl

/-- A step's outcome is always a next state: its own, or the start with one fault bit added. -/
theorem commit_eq_next {s t : State} {e : Except FaultKind State} :
    commit s e = .next t ↔ e = .ok t ∨ ∃ k, e = .error k ∧ t = s.raise k := by
  cases e <;> simp [commit, eq_comm]

theorem whenEnabled_true {p : Bool} (h : p = true) (s : State) (e : Except FaultKind State) :
    whenEnabled p s e = commit s e := by simp [whenEnabled, h]

theorem whenEnabled_false {p : Bool} (h : p = false) (s : State) (e : Except FaultKind State) :
    whenEnabled p s e = .next s := by simp [whenEnabled, h]

/-- A step with an enabling condition waits, acts, or faults. -/
theorem whenEnabled_eq_next {p : Bool} {s t : State} {e : Except FaultKind State} :
    whenEnabled p s e = .next t ↔
      (p = false ∧ t = s) ∨ (p = true ∧ (e = .ok t ∨ ∃ k, e = .error k ∧ t = s.raise k)) := by
  cases p
  · simp [whenEnabled, eq_comm]
  · simp [whenEnabled, commit_eq_next]

theorem commit_answers (s : State) (e : Except FaultKind State) : ∃ t, commit s e = .next t := by
  cases e <;> simp

theorem whenEnabled_answers (p : Bool) (s : State) (e : Except FaultKind State) : ∃ t, whenEnabled p s e = .next t := by
  cases p <;> simp [whenEnabled, commit_answers]

/-! ### Guards and indexed accesses -/

theorem guard_eq_ok {s : State} {a : Agent} {u : Unit} : s.guard a = .ok u ↔ s.lk.holder = some a := by
  simp [State.guard]

theorem guard_of_holder {s : State} {a : Agent} (h : s.lk.holder = some a) : s.guard a = .ok () := by
  simp [State.guard, h]

theorem guard_of_not_holder {s : State} {a : Agent} (h : s.lk.holder ≠ some a) :
    s.guard a = .error .accessWithoutLock := by
  simp [State.guard, h]

@[simp] theorem owned_tx : owned .tx = .ok () := rfl

theorem owned_of_port {a : Agent} (h : a ≠ .tx) : owned a = .error .ownershipViolation := by simp [owned, h]

theorem owned_eq_ok {a : Agent} {u : Unit} : owned a = .ok u ↔ a = .tx := by simp [owned]

theorem element_eq_ok {α : Type} {xs : List α} {i : Nat} {x : α} : element xs i = .ok x ↔ xs[i]? = some x := by
  unfold element
  split <;> simp_all

theorem getFlag_eq_ok {i : Nat} {flags : List Bool} {b : Bool} : getFlag i flags = .ok b ↔ flags[i]? = some b := by
  unfold getFlag
  split <;> simp_all

theorem setFlag_eq_ok {i : Nat} {flags out : List Bool} :
    setFlag i flags = .ok out ↔ i < flags.length ∧ out = flags.set i true := by
  unfold setFlag
  split <;> simp_all [eq_comm]

theorem leds_eq_ok {s : State} {i n : Nat} : s.leds i = .ok n ↔ s.cfg.ledCount? i = some n := by
  unfold State.leds
  split <;> simp_all

theorem info_eq_ok {s : State} {i : Nat} {x : StripInfo} : s.info i = .ok x ↔ s.cfg.info? i = some x := by
  unfold State.info
  split <;> simp_all

/-! ### Shared state -/

theorem readMode_eq_ok {s : State} {a : Agent} {i : Nat} {m : StripMode} :
    s.readMode a i = .ok m ↔ s.lk.holder = some a ∧ s.mode[i]? = some m := by
  simp [State.readMode, bind_eq_ok, guard_eq_ok, element_eq_ok]

theorem writeMode_eq_ok {s t : State} {a : Agent} {i : Nat} {m : StripMode} :
    s.writeMode a i m = .ok t ↔
      s.lk.holder = some a ∧ i < s.mode.length ∧ t = { s with mode := s.mode.set i m } := by
  simp only [State.writeMode, bind_eq_ok, guard_eq_ok]
  split <;> simp_all [eq_comm]

theorem readCb_eq_ok {s : State} {a : Agent} {i : Nat} {c : List RgbaF32} :
    s.readCb a i = .ok c ↔ s.lk.holder = some a ∧ s.cb[i]? = some c := by
  simp [State.readCb, bind_eq_ok, guard_eq_ok, element_eq_ok]

theorem writeCb_eq_ok {s t : State} {a : Agent} {i : Nat} {vs : List RgbaF32} :
    s.writeCb a i vs = .ok t ↔
      s.lk.holder = some a ∧ ∃ old, s.cb[i]? = some old ∧ vs.length ≤ old.length ∧
        t = { s with cb := s.cb.set i (vs ++ old.drop vs.length) } := by
  simp only [State.writeCb, bind_eq_ok, guard_eq_ok, element_eq_ok]
  constructor
  · rintro ⟨_, h, old, ho, hw⟩
    split at hw
    · exact ⟨h, old, ho, ‹_›, by simpa [eq_comm] using hw⟩
    · simp at hw
  · rintro ⟨h, old, ho, hl, rfl⟩
    exact ⟨(), h, old, ho, by simp [hl]⟩

theorem readSel_eq_ok {s : State} {a : Agent} {k : Nat} : s.readSel a = .ok k ↔ s.lk.holder = some a ∧ k = s.sel := by
  simp [State.readSel, bind_eq_ok, guard_eq_ok, ok_eq_ok, -Except.ok.injEq]

theorem writeSel_eq_ok {s t : State} {a : Agent} {k : Nat} :
    s.writeSel a k = .ok t ↔ s.lk.holder = some a ∧ t = { s with sel := k } := by
  simp [State.writeSel, bind_eq_ok, guard_eq_ok, ok_eq_ok, -Except.ok.injEq]

/-! ### Lock -/

theorem release_eq_ok {s t : State} {a : Agent} :
    s.release a = .ok t ↔ s.lk.holder = some a ∧ t = { s with lk := ⟨none⟩, hist := s.hist ++ [.release a] } := by
  unfold State.release
  split <;> simp_all [State.record, eq_comm]

theorem release_of_not_holder {s : State} {a : Agent} (h : s.lk.holder ≠ some a) : s.release a = .error .lockMisuse := by
  simp [State.release, h]

theorem lockFree_eq_true {s : State} : s.lockFree = true ↔ s.lk.holder = none := by simp [State.lockFree]

/-! ### Transmit path -/

theorem readCur_eq_ok {s : State} {a : Agent} {i c : Nat} :
    s.readCur a i = .ok c ↔ a = .tx ∧ s.tx.cur[i]? = some c := by
  simp [State.readCur, bind_eq_ok, owned_eq_ok, element_eq_ok]

theorem writeCur_eq_ok {s t : State} {a : Agent} {i c : Nat} :
    s.writeCur a i c = .ok t ↔
      a = .tx ∧ i < s.tx.cur.length ∧ t = s.withEncoders s.tx.tb (s.tx.cur.set i c) := by
  simp only [State.writeCur, bind_eq_ok, owned_eq_ok]
  split <;> simp_all [eq_comm]

theorem writeTb_eq_ok {s t : State} {a : Agent} {i c : Nat} {ys : List Symbol} :
    s.writeTb a i c ys = .ok t ↔
      a = .tx ∧ ∃ old, s.tx.tb[i]? = some old ∧ c + ys.length ≤ old.length ∧
        t = s.withEncoders (s.tx.tb.set i (splice old c ys)) s.tx.cur := by
  simp only [State.writeTb, bind_eq_ok, owned_eq_ok, element_eq_ok]
  constructor
  · rintro ⟨_, h, old, ho, hw⟩
    split at hw
    · exact ⟨h, old, ho, ‹_›, by simpa [eq_comm] using hw⟩
    · simp at hw
  · rintro ⟨h, old, ho, hl, rfl⟩
    exact ⟨(), h, old, ho, by simp [hl]⟩

theorem readTb_eq_ok {s : State} {a : Agent} {i m : Nat} {ys : List Symbol} :
    s.readTb a i m = .ok ys ↔
      a = .tx ∧ ∃ buf, s.tx.tb[i]? = some buf ∧ m ≤ buf.length ∧ ys = buf.take m := by
  simp only [State.readTb, bind_eq_ok, owned_eq_ok, element_eq_ok]
  constructor
  · rintro ⟨_, h, buf, hb, hw⟩
    split at hw
    · exact ⟨h, buf, hb, ‹_›, by simpa [eq_comm] using hw⟩
    · simp at hw
  · rintro ⟨h, buf, hb, hl, rfl⟩
    exact ⟨(), h, buf, hb, by simp [hl]⟩

theorem splice_length {α : Type} {xs ys : List α} {c : Nat} (h : c + ys.length ≤ xs.length) :
    (splice xs c ys).length = xs.length := by
  simp [splice]; omega

/-- A slot outside the written range keeps its element. -/
theorem splice_outside {α : Type} {xs ys : List α} {c j : Nat} (h : c + ys.length ≤ xs.length)
    (hj : j < c ∨ c + ys.length ≤ j) : (splice xs c ys)[j]? = xs[j]? := by
  have hc : c ≤ xs.length := by omega
  rcases hj with hj | hj
  · rw [splice, List.append_assoc, List.getElem?_append_left (by simp; omega), List.getElem?_take_of_lt hj]
  · rw [splice, List.append_assoc, List.getElem?_append_right (by simp; omega),
      List.getElem?_append_right (by simp; omega), List.getElem?_drop]
    congr 1
    simp; omega

/-- A slot in the written range holds the new element. -/
theorem splice_inside {α : Type} {xs ys : List α} {c k : Nat} (h : c + ys.length ≤ xs.length) (hk : k < ys.length) :
    (splice xs c ys)[c + k]? = ys[k]? := by
  have hc : c ≤ xs.length := by omega
  rw [splice, List.append_assoc, List.getElem?_append_right (by simp), List.getElem?_append_left (by simp; omega)]
  congr 1
  simp [hc]

/-- Replacing one list by another of its length keeps the lengths. -/
theorem map_length_set {α : Type} {xs : List (List α)} {i : Nat} {x y : List α} (hx : xs[i]? = some x)
    (hy : y.length = x.length) : (xs.set i y).map List.length = xs.map List.length := by
  apply List.ext_getElem?
  intro j
  by_cases hj : i = j
  · subst hj
    have hi := (List.getElem?_eq_some_iff.1 hx).1
    simp [List.getElem?_map, hi, hy, ← (List.getElem?_eq_some_iff.1 hx).2]
  · simp [List.getElem?_map, hj]

/-! ### Records -/

/-- A record's target check answers the abort or what its body answers. -/
theorem onTarget_eq_ok {s t : State} {tgt : Byte} {body : Nat → Except FaultKind State} :
    onTarget s tgt body = .ok t ↔
      (s.cfg.ledCount? tgt.toNat = none ∧ t = s.abort .protocolRangeError) ∨
        ∃ n m, s.cfg.ledCount? tgt.toNat = some n ∧ s.lk.holder = some .ing ∧ s.mode[tgt.toNat]? = some m ∧
          (if acceptsData m then body n = .ok t else t = s.abort .protocolRangeError) := by
  unfold onTarget
  split
  · rename_i hn
    simp [hn, ok_eq_ok, -Except.ok.injEq]
  · rename_i n hn
    simp only [bind_eq_ok, readMode_eq_ok, hn]
    constructor
    · rintro ⟨m, ⟨hh, hm⟩, h⟩
      refine .inr ⟨n, m, rfl, hh, hm, ?_⟩
      split <;> rename_i ha
      · simpa [ha] using h
      · simpa [ha, ok_eq_ok, -Except.ok.injEq] using h
    · rintro (⟨h, _⟩ | ⟨n', m, hn', hh, hm, h⟩)
      · simp at h
      · cases hn'
        refine ⟨m, ⟨hh, hm⟩, ?_⟩
        split <;> rename_i ha
        · simpa [ha] using h
        · simpa [ha, ok_eq_ok, -Except.ok.injEq] using h

/-- The end of an applied record: the cursor moves and `Apply` is recorded; under PerRecord the lock is released too. -/
theorem endRecord_eq_ok {s t : State} {cmd tgt : Byte} {need : Nat} :
    s.endRecord cmd tgt need = .ok t ↔
      (s.cfg.atomicity = .perDatagram ∧
          t = { s with hist := s.hist ++ [.apply cmd tgt], ing := { s.ing with c := s.ing.c + 2 + need } }) ∨
        (s.cfg.atomicity = .perRecord ∧ s.lk.holder = some .ing ∧
          t = { s with
            hist := s.hist ++ [.apply cmd tgt] ++ [.release .ing], lk := ⟨none⟩
            ing := { s.ing with c := s.ing.c + 2 + need, phase := .iLock } }) := by
  unfold State.endRecord
  cases h : s.cfg.atomicity
  · simp [State.record, ok_eq_ok, -Except.ok.injEq]
  · simp [bind_eq_ok, release_eq_ok, State.record, State.setIngPhase, ok_eq_ok, -Except.ok.injEq]

theorem applyRecord_eq_ok {s t : State} {cmd tgt : Byte} {need avail : Nat} {vs : List RgbaF32} :
    s.applyRecord cmd tgt need avail vs = .ok t ↔
      (avail < need ∧ t = s.abort .transportError) ∨
        (need ≤ avail ∧ ∃ s1, s.writeCb .ing tgt.toNat vs = .ok s1 ∧ s1.endRecord cmd tgt need = .ok t) := by
  unfold State.applyRecord
  split <;> rename_i h
  · have : ¬need ≤ avail := by omega
    simp [h, this, ok_eq_ok, -Except.ok.injEq]
  · have : need ≤ avail := by omega
    simp [h, this, bind_eq_ok]

end Sys2Proof.Machine
end

