-- ==== Sys2Proof/Laws/Encoder.lean ====
section
/-! SUPPORT. What the bit encoder's operations can do (spec 42). -/

namespace Sys2Proof.Machine

@[simp] theorem encodeByte_length (cfg : Config) (v : Byte) : (encodeByte cfg v).length = 8 := by
  simp [encodeByte, bitsMsbFirst]

@[simp] theorem encodeColor_length (cfg : Config) (p : Rgb8) : (encodeColor cfg p).length = 24 := by
  unfold encodeColor
  cases cfg.wireOrder <;> simp [wireChannels]

@[simp] theorem wireChannels_length (w : WireOrder) (p : Rgb8) : (wireChannels w p).length = 3 := by
  cases w <;> rfl

@[simp] theorem freshBuffer_length (cfg : Config) (d n : Nat) : (freshBuffer cfg d n).length = 24 * n + 1 := by
  simp [freshBuffer]

theorem freshBuffer_sentinel (cfg : Config) (d n : Nat) : (freshBuffer cfg d n)[24 * n]? = some .endMark := by
  simp [freshBuffer]

/-- Every symbol of an encoded colour is `LO` or `HI` (30 R91). -/
theorem encodeColor_symbols {cfg : Config} {p : Rgb8} {y : Symbol} (h : y ∈ encodeColor cfg p) :
    y = cfg.lo ∨ y = cfg.hi := by
  simp only [encodeColor, encodeByte, List.mem_flatMap, List.mem_map] at h
  obtain ⟨_, _, b, _, rfl⟩ := h
  cases b <;> simp [encodeBit]

theorem flush_eq_ok {a : Agent} {i : Nat} {s t : State} :
    flush a i s = .ok t ↔
      a = .tx ∧ i < s.tx.cur.length ∧ t = s.withEncoders s.tx.tb (s.tx.cur.set i 0) :=
  writeCur_eq_ok

theorem construct_eq_ok {i : Nat} {s t : State} :
    construct i s = .ok t ↔ ∃ n, s.cfg.ledCount? i = some n ∧ i < s.tx.tb.length ∧ i < s.tx.cur.length ∧
      t = { s.withEncoders (s.tx.tb.set i (freshBuffer s.cfg s.draws n)) (s.tx.cur.set i 0) with
        draws := s.draws + 1 } := by
  simp only [construct, bind_eq_ok, leds_eq_ok, writeCur_eq_ok]
  refine exists_congr fun n => and_congr_right fun _ => ?_
  constructor
  · rintro ⟨s1, ⟨-, hc, rfl⟩, h⟩
    split at h
    · exact ⟨‹_›, hc, by simpa [ok_eq_ok, -Except.ok.injEq] using h⟩
    · simp at h
  · rintro ⟨hb, hc, rfl⟩
    exact ⟨_, ⟨trivial, hc, rfl⟩, by simp [hb]⟩

/-- `write_color` answers only with room before the sentinel, and then writes 24 slots and moves the cursor. -/
theorem writeColor_eq_ok {a : Agent} {i : Nat} {p : Rgb8} {s t : State} :
    writeColor a i p s = .ok t ↔ a = .tx ∧ ∃ c n buf, s.tx.cur[i]? = some c ∧ s.cfg.ledCount? i = some n ∧
      c + 24 ≤ 24 * n ∧ s.tx.tb[i]? = some buf ∧ c + 24 ≤ buf.length ∧
      t = s.withEncoders (s.tx.tb.set i (splice buf c (encodeColor s.cfg p))) (s.tx.cur.set i (c + 24)) := by
  simp only [writeColor, bind_eq_ok, leds_eq_ok, readCur_eq_ok]
  constructor
  · rintro ⟨c, ⟨rfl, hc⟩, n, hn, h⟩
    split at h
    · simp at h
    · simp only [bind_eq_ok, writeTb_eq_ok, writeCur_eq_ok, encodeColor_length] at h
      obtain ⟨s1, ⟨-, buf, hb, hl, rfl⟩, -, hi, rfl⟩ := h
      exact ⟨rfl, c, n, buf, hc, hn, by omega, hb, hl, rfl⟩
  · rintro ⟨rfl, c, n, buf, hc, hn, hle, hb, hl, rfl⟩
    have hi : i < s.tx.cur.length := (List.getElem?_eq_some_iff.1 hc).1
    refine ⟨c, ⟨rfl, hc⟩, n, hn, ?_⟩
    rw [if_neg (by omega)]
    simp only [bind_eq_ok, writeTb_eq_ok, writeCur_eq_ok, encodeColor_length]
    exact ⟨_, ⟨trivial, buf, hb, hl, rfl⟩, trivial, hi, rfl⟩

/-- Only the slots before the sentinel of strip `i`, and its cursor, change while colours are written. -/
theorem writeColors_ok {a : Agent} {i : Nat} {ps : List Rgb8} {s t : State} (h : writeColors a i ps s = .ok t) :
    ∃ tb cur, t = s.withEncoders tb cur ∧
      tb.map List.length = s.tx.tb.map List.length ∧ cur.length = s.tx.cur.length ∧
      (∀ j, j ≠ i → tb[j]? = s.tx.tb[j]? ∧ cur[j]? = s.tx.cur[j]?) ∧
      ∀ n buf, s.cfg.ledCount? i = some n → s.tx.tb[i]? = some buf →
        ∃ buf', tb[i]? = some buf' ∧ ∀ j, 24 * n ≤ j → buf'[j]? = buf[j]? := by
  induction ps generalizing s with
  | nil =>
    obtain rfl : t = s := by simpa [writeColors, eq_comm] using h
    exact ⟨t.tx.tb, t.tx.cur, rfl, rfl, rfl, fun j _ => ⟨rfl, rfl⟩, fun n buf _ hb => ⟨buf, hb, fun _ _ => rfl⟩⟩
  | cons p ps ih =>
    obtain ⟨s1, h1, h2⟩ := bind_eq_ok.1 h
    obtain ⟨rfl, c, n, buf, hc, hn, hle, hb, hl, rfl⟩ := writeColor_eq_ok.1 h1
    obtain ⟨tb, cur, rfl, htb, hcur, hother, hslot⟩ := ih h2
    have hi : i < s.tx.tb.length := (List.getElem?_eq_some_iff.1 hb).1
    have hlen : (splice buf c (encodeColor s.cfg p)).length = buf.length := splice_length (by simpa using hl)
    refine ⟨tb, cur, rfl, ?_, by simpa using hcur, fun j hj => ?_, fun n' buf' hn' hb' => ?_⟩
    · exact htb.trans (map_length_set hb hlen)
    · obtain ⟨h3, h4⟩ := hother j hj
      exact ⟨by rw [h3]; simp [Ne.symm hj], by rw [h4]; simp [Ne.symm hj]⟩
    · obtain rfl : n = n' := by simpa [hn] using hn'
      obtain rfl : buf = buf' := by simpa [hb] using hb'
      obtain ⟨buf2, hb2, hs2⟩ := hslot n (splice buf c (encodeColor s.cfg p)) hn (by simp [hi])
      exact ⟨buf2, hb2, fun j hj => (hs2 j hj).trans (splice_outside (by simpa using hl) (.inr (by simp; omega)))⟩

/-- Writing `ps` from a cursor at `24 m` fills the slots `24 m .. 24 (m + len) - 1` with their encodings. -/
theorem writeColors_fill {i n : Nat} {ps : List Rgb8} : ∀ {m : Nat} {pre suf : List Symbol} {s : State},
    s.cfg.ledCount? i = some n → s.tx.cur[i]? = some (24 * m) → s.tx.tb[i]? = some (pre ++ suf) →
    pre.length = 24 * m → (pre ++ suf).length = 24 * n + 1 → m + ps.length ≤ n →
    writeColors .tx i ps s = .ok (s.withEncoders
      (s.tx.tb.set i (pre ++ ps.flatMap (encodeColor s.cfg) ++ suf.drop (24 * ps.length)))
      (s.tx.cur.set i (24 * (m + ps.length)))) := by
  induction ps with
  | nil =>
    intro m pre suf s hn hc hb hpre hlen hle
    obtain ⟨h1, h1'⟩ := List.getElem?_eq_some_iff.1 hc
    obtain ⟨h2, h2'⟩ := List.getElem?_eq_some_iff.1 hb
    have e1 : s.tx.tb.set i (pre ++ suf) = s.tx.tb := by rw [← h2']; simp
    have e2 : s.tx.cur.set i (24 * m) = s.tx.cur := by rw [← h1']; simp
    simp [writeColors, e1, e2, State.withEncoders]
  | cons p ps ih =>
    intro m pre suf s hn hc hb hpre hlen hle
    simp only [List.length_cons] at hle
    have hsuf : 24 ≤ suf.length := by
      simp only [List.length_append] at hlen; omega
    have hi : i < s.tx.tb.length := (List.getElem?_eq_some_iff.1 hb).1
    have hi' : i < s.tx.cur.length := (List.getElem?_eq_some_iff.1 hc).1
    have hsp : splice (pre ++ suf) (24 * m) (encodeColor s.cfg p) = (pre ++ encodeColor s.cfg p) ++ suf.drop 24 := by
      simp only [splice, encodeColor_length, ← hpre, List.take_left, List.append_assoc]
      congr 2
      rw [List.drop_append]
      simp
    have h1 : writeColor .tx i p s = .ok (s.withEncoders
        (s.tx.tb.set i ((pre ++ encodeColor s.cfg p) ++ suf.drop 24)) (s.tx.cur.set i (24 * (m + 1)))) :=
      writeColor_eq_ok.2 ⟨rfl, 24 * m, n, pre ++ suf, hc, hn, by omega, hb, by simp; omega, by rw [hsp]; rfl⟩
    rw [writeColors, h1, ok_bind, ih (m := m + 1) (pre := pre ++ encodeColor s.cfg p) (suf := suf.drop 24)]
    · simp only [List.flatMap_cons, List.length_cons, List.set_set, List.drop_drop, List.append_assoc,
        State.withEncoders]
      have e1 : 24 + 24 * ps.length = 24 * (ps.length + 1) := by omega
      have e2 : m + 1 + ps.length = m + (ps.length + 1) := by omega
      rw [e1, e2]
    · exact hn
    · simp [hi']
    · simp [hi]
    · simp [hpre]; omega
    · simp only [List.length_append, List.length_drop, encodeColor_length] at hlen ⊢; omega
    · omega

end Sys2Proof.Machine
end

