-- ==== Sys2Proof/Laws/Faults.lean ====
section
/-! SUPPORT. No operation reads the fault bits (spec 60 R256): with other bits in the state it fails with the same fault, or
answers the same state with those bits. -/

namespace Sys2Proof.Machine

/-- `b` is what `a` answers once the fault bits of the state are `f`. -/
def SameUnder (f : FaultBits) (a b : Except FaultKind State) : Prop :=
  (∃ k, a = .error k ∧ b = .error k) ∨ ∃ t, a = .ok t ∧ b = .ok { t with fault := f }

namespace SameUnder

variable {f : FaultBits}

theorem ok {t : State} : SameUnder f (.ok t) (.ok { t with fault := f }) := .inr ⟨_, rfl, rfl⟩

theorem error {k : FaultKind} : SameUnder f (.error k) (.error k) := .inl ⟨_, rfl, rfl⟩

/-- An operation that yields a state, then another. -/
theorem bind {a b : Except FaultKind State} {g h : State → Except FaultKind State} (hab : SameUnder f a b)
    (hgh : ∀ t, SameUnder f (g t) (h { t with fault := f })) : SameUnder f (a.bind g) (b.bind h) := by
  rcases hab with ⟨k, rfl, rfl⟩ | ⟨t, rfl, rfl⟩
  · exact error
  · exact hgh t

/-- A read of anything but the fault bits, then an operation. -/
theorem read {α : Type} {a : Except FaultKind α} {g h : α → Except FaultKind State}
    (hgh : ∀ x, SameUnder f (g x) (h x)) : SameUnder f (a.bind g) (a.bind h) := by
  cases a
  · exact error
  · exact hgh _

theorem ite {p : Prop} [Decidable p] {a b c d : Except FaultKind State} (h : SameUnder f a b) (h' : SameUnder f c d) :
    SameUnder f (if p then a else c) (if p then b else d) := by split <;> assumption

end SameUnder

section Operations

variable (f : FaultBits) (s : State)

theorem release_fault (a : Agent) : SameUnder f (s.release a) (State.release { s with fault := f } a) := .ite .ok .error

theorem writeCur_fault (a : Agent) (i c : Nat) :
    SameUnder f (s.writeCur a i c) (State.writeCur { s with fault := f } a i c) := .read fun _ => .ite .ok .error

theorem writeTb_fault (a : Agent) (i c : Nat) (ys : List Symbol) :
    SameUnder f (s.writeTb a i c ys) (State.writeTb { s with fault := f } a i c ys) :=
  .read fun _ => .read fun _ => .ite .ok .error

theorem writeCb_fault (a : Agent) (i : Nat) (vs : List RgbaF32) :
    SameUnder f (s.writeCb a i vs) (State.writeCb { s with fault := f } a i vs) :=
  .read fun _ => .read fun _ => .ite .ok .error

theorem writeMode_fault (a : Agent) (i : Nat) (m : StripMode) :
    SameUnder f (s.writeMode a i m) (State.writeMode { s with fault := f } a i m) := .read fun _ => .ite .ok .error

theorem writeSel_fault (a : Agent) (k : Nat) :
    SameUnder f (s.writeSel a k) (State.writeSel { s with fault := f } a k) := .read fun _ => .ok

theorem writeColor_fault (a : Agent) (i : Nat) (p : Rgb8) :
    SameUnder f (writeColor a i p s) (writeColor a i p { s with fault := f }) :=
  .read fun _ => .read fun _ => .ite .error (.bind (writeTb_fault f s ..) fun t => writeCur_fault f t ..)

theorem writeColors_fault (a : Agent) (i : Nat) (ps : List Rgb8) :
    ∀ s : State, SameUnder f (writeColors a i ps s) (writeColors a i ps { s with fault := f }) := by
  induction ps with
  | nil => exact fun _ => .ok
  | cons p ps ih => exact fun s => .bind (writeColor_fault f s ..) ih

theorem construct_fault (i : Nat) : SameUnder f (construct i s) (construct i { s with fault := f }) :=
  .read fun _ => .bind (writeCur_fault f s ..) fun _ => .ite .ok .error

theorem renderStrip_fault (a : Agent) (i : Nat) :
    SameUnder f (renderStrip a i s) (renderStrip a i { s with fault := f }) :=
  .read fun _ => .read fun w => .bind (writeCur_fault f s ..) (writeColors_fault f a i w)

theorem txRender_fault : SameUnder f (txRender s) (txRender { s with fault := f }) :=
  .ite (.read fun _ => .ite (.bind (renderStrip_fault f s ..) fun _ => .read fun _ => .ok) .ok) .ok

theorem onTarget_fault (tgt : Byte) {b c : Nat → Except FaultKind State} (h : ∀ n, SameUnder f (b n) (c n)) :
    SameUnder f (onTarget s tgt b) (onTarget { s with fault := f } tgt c) := by
  unfold onTarget
  show SameUnder f _ (match s.cfg.ledCount? tgt.toNat with | none => _ | some n => _)
  cases s.cfg.ledCount? tgt.toNat
  · exact .ok
  · exact .read fun _ => .ite (h _) .ok

theorem endRecord_fault (cmd tgt : Byte) (need : Nat) :
    SameUnder f (s.endRecord cmd tgt need) (State.endRecord { s with fault := f } cmd tgt need) := by
  unfold State.endRecord
  show SameUnder f _ (match s.cfg.atomicity with | .perDatagram => _ | .perRecord => _)
  cases s.cfg.atomicity
  · exact .ok
  · exact .bind (release_fault f _ _) fun _ => .ok

theorem applyRecord_fault (cmd tgt : Byte) (need avail : Nat) (vs : List RgbaF32) :
    SameUnder f (s.applyRecord cmd tgt need avail vs)
      (State.applyRecord { s with fault := f } cmd tgt need avail vs) :=
  .ite .ok (.bind (writeCb_fault f s ..) fun _ => endRecord_fault f _ ..)

end Operations

end Sys2Proof.Machine
end

