-- ==== Sys2Proof/Laws/Memory.lean ====
section
/-! SUPPORT. The canonical shape of the storage spaces (`Memory.wf`): what it gives, that it holds at reset, and that every
operation on the spaces keeps it. -/

namespace Sys2Proof.Machine

/-- `Memory.wf` as its six parts. -/
theorem memory_wf_iff {s : State} : Memory.wf s = true ↔
    s.mode.length = s.cfg.nStrips ∧ s.cb.map List.length = s.cfg.strips.map (·.info.ledCount) ∧
      s.tx.tb.map List.length = s.cfg.strips.map (fun sc => 24 * sc.info.ledCount + 1) ∧
      s.tx.cur.length = s.cfg.nStrips ∧ s.tx.rendered.length = s.cfg.nStrips ∧
      s.tx.degraded.length = s.cfg.nStrips := by
  simp [Memory.wf, and_assoc]

/-- A strip has a `ledCount` exactly when its index is below `S`. -/
theorem ledCount?_eq_some_iff {cfg : Config} {i n : Nat} :
    cfg.ledCount? i = some n ↔ ∃ sc, cfg.strips[i]? = some sc ∧ sc.info.ledCount = n := by
  simp [Config.ledCount?]

theorem lt_nStrips_of_ledCount {cfg : Config} {i n : Nat} (h : cfg.ledCount? i = some n) : i < cfg.nStrips := by
  obtain ⟨sc, hs, _⟩ := ledCount?_eq_some_iff.1 h
  exact (List.getElem?_eq_some_iff.1 hs).1

theorem ledCount_of_lt {cfg : Config} {i : Nat} (h : i < cfg.nStrips) : ∃ n, cfg.ledCount? i = some n :=
  ⟨cfg.strips[i].info.ledCount, ledCount?_eq_some_iff.2 ⟨_, List.getElem?_eq_getElem h, rfl⟩⟩

theorem ledCount?_eq_none_iff {cfg : Config} {i : Nat} : cfg.ledCount? i = none ↔ cfg.nStrips ≤ i := by
  simp [Config.ledCount?, Config.nStrips]

theorem info_ledCount {cfg : Config} {i : Nat} {x : StripInfo} (h : cfg.info? i = some x) :
    cfg.ledCount? i = some x.ledCount := by
  simp only [Config.info?, Config.ledCount?, Option.map_eq_some_iff] at h ⊢
  obtain ⟨sc, hs, rfl⟩ := h
  exact ⟨sc, hs, rfl⟩

/-- The colour buffer of a strip has `n_s` entries (10 R28). -/
theorem cb_of_wf {s : State} {i n : Nat} (hw : Memory.wf s = true) (hn : s.cfg.ledCount? i = some n) :
    ∃ c, s.cb[i]? = some c ∧ c.length = n := by
  obtain ⟨sc, hs, rfl⟩ := ledCount?_eq_some_iff.1 hn
  have h := congrArg (·[i]?) (memory_wf_iff.1 hw).2.1
  simp only [List.getElem?_map, hs, Option.map_some, Option.map_eq_some_iff] at h
  exact h

/-- The transmit buffer of a strip has `24 n_s + 1` slots (10 R38). -/
theorem tb_of_wf {s : State} {i n : Nat} (hw : Memory.wf s = true) (hn : s.cfg.ledCount? i = some n) :
    ∃ buf, s.tx.tb[i]? = some buf ∧ buf.length = 24 * n + 1 := by
  obtain ⟨sc, hs, rfl⟩ := ledCount?_eq_some_iff.1 hn
  have h := congrArg (·[i]?) (memory_wf_iff.1 hw).2.2.1
  simp only [List.getElem?_map, hs, Option.map_some, Option.map_eq_some_iff] at h
  exact h

theorem mode_of_wf {s : State} {i : Nat} (hw : Memory.wf s = true) (hi : i < s.cfg.nStrips) :
    ∃ m, s.mode[i]? = some m :=
  ⟨_, List.getElem?_eq_getElem ((memory_wf_iff.1 hw).1 ▸ hi)⟩

theorem degraded_of_wf {s : State} {i : Nat} (hw : Memory.wf s = true) (hi : i < s.cfg.nStrips) :
    ∃ d, s.tx.degraded[i]? = some d :=
  ⟨_, List.getElem?_eq_getElem ((memory_wf_iff.1 hw).2.2.2.2.2 ▸ hi)⟩

/-- Two states whose configuration and whose spaces' sizes agree. -/
def SameShape (s t : State) : Prop :=
  t.cfg = s.cfg ∧ t.mode.length = s.mode.length ∧ t.cb.map List.length = s.cb.map List.length ∧
    t.tx.tb.map List.length = s.tx.tb.map List.length ∧ t.tx.cur.length = s.tx.cur.length ∧
    t.tx.rendered.length = s.tx.rendered.length ∧ t.tx.degraded.length = s.tx.degraded.length

theorem SameShape.refl (s : State) : SameShape s s := ⟨rfl, rfl, rfl, rfl, rfl, rfl, rfl⟩

theorem SameShape.trans {s t u : State} (h : SameShape s t) (h' : SameShape t u) : SameShape s u := by
  obtain ⟨a, b, c, d, e, f, g⟩ := h
  obtain ⟨a', b', c', d', e', f', g'⟩ := h'
  exact ⟨a'.trans a, b'.trans b, c'.trans c, d'.trans d, e'.trans e, f'.trans f, g'.trans g⟩

/-- The shape depends on the sizes only. -/
theorem SameShape.wf {s t : State} (h : SameShape s t) : Memory.wf t = Memory.wf s := by
  obtain ⟨a, b, c, d, e, f, g⟩ := h
  simp only [Memory.wf, a, b, c, d, e, f, g]

/-! ### Reset -/

theorem freshBuffers_lengths (cfg : Config) (d : Nat) (strips : List StripConfig) :
    (freshBuffers cfg d strips).map List.length = strips.map (fun sc => 24 * sc.info.ledCount + 1) := by
  induction strips generalizing d with
  | nil => rfl
  | cons sc rest ih => simp [freshBuffers, ih]

/-- The spaces have their shape at reset, whatever the configuration (10 R48). -/
theorem memory_wf_resetWith (cfg : Config) : Memory.wf (State.resetWith cfg) = true := by
  simp [memory_wf_iff, State.resetWith, Config.nStrips, freshBuffers_lengths, Function.comp_def]

/-! ### The operations on the spaces -/

theorem writeMode_sameShape {s t : State} {a : Agent} {i : Nat} {m : StripMode} (h : s.writeMode a i m = .ok t) :
    SameShape s t := by
  obtain ⟨-, -, rfl⟩ := writeMode_eq_ok.1 h
  exact ⟨rfl, by simp, rfl, rfl, rfl, rfl, rfl⟩

theorem writeCb_sameShape {s t : State} {a : Agent} {i : Nat} {vs : List RgbaF32} (h : s.writeCb a i vs = .ok t) :
    SameShape s t := by
  obtain ⟨-, old, ho, hl, rfl⟩ := writeCb_eq_ok.1 h
  exact ⟨rfl, rfl, map_length_set ho (by simp; omega), rfl, rfl, rfl, rfl⟩

theorem writeCur_sameShape {s t : State} {a : Agent} {i c : Nat} (h : s.writeCur a i c = .ok t) : SameShape s t := by
  obtain ⟨-, -, rfl⟩ := writeCur_eq_ok.1 h
  exact ⟨rfl, rfl, rfl, rfl, by simp, rfl, rfl⟩

theorem writeTb_sameShape {s t : State} {a : Agent} {i c : Nat} {ys : List Symbol} (h : s.writeTb a i c ys = .ok t) :
    SameShape s t := by
  obtain ⟨-, old, ho, hl, rfl⟩ := writeTb_eq_ok.1 h
  exact ⟨rfl, rfl, rfl, map_length_set ho (splice_length hl), rfl, rfl, rfl⟩

theorem flush_sameShape {s t : State} {a : Agent} {i : Nat} (h : flush a i s = .ok t) : SameShape s t :=
  writeCur_sameShape h

theorem writeColors_sameShape {s t : State} {a : Agent} {i : Nat} {ps : List Rgb8}
    (h : writeColors a i ps s = .ok t) : SameShape s t := by
  obtain ⟨tb, cur, rfl, htb, hcur, -⟩ := writeColors_ok h
  exact ⟨rfl, rfl, rfl, htb, hcur, rfl, rfl⟩

/-- `construct` keeps the shape of a well-shaped state (42 R133). -/
theorem construct_sameShape {s t : State} {i : Nat} (hw : Memory.wf s = true) (h : construct i s = .ok t) :
    SameShape s t := by
  obtain ⟨n, hn, -, -, rfl⟩ := construct_eq_ok.1 h
  obtain ⟨buf, hb, hl⟩ := tb_of_wf hw hn
  exact ⟨rfl, rfl, rfl, map_length_set hb (by simp [hl]), by simp, rfl, rfl⟩

theorem release_sameShape {s t : State} {a : Agent} (h : s.release a = .ok t) : SameShape s t := by
  obtain ⟨-, rfl⟩ := release_eq_ok.1 h
  exact SameShape.refl s

theorem endRecord_sameShape {s t : State} {cmd tgt : Byte} {need : Nat} (h : s.endRecord cmd tgt need = .ok t) :
    SameShape s t := by
  rcases endRecord_eq_ok.1 h with ⟨-, rfl⟩ | ⟨-, -, rfl⟩ <;> exact SameShape.refl s

theorem applyRecord_sameShape {s t : State} {cmd tgt : Byte} {need avail : Nat} {vs : List RgbaF32}
    (h : s.applyRecord cmd tgt need avail vs = .ok t) : SameShape s t := by
  rcases applyRecord_eq_ok.1 h with ⟨-, rfl⟩ | ⟨-, s1, h1, h2⟩
  · exact SameShape.refl s
  · exact (writeCb_sameShape h1).trans (endRecord_sameShape h2)

theorem clearFlags_length (flags : List Bool) : (clearFlags flags).length = flags.length := by simp [clearFlags]

end Sys2Proof.Machine
end

