-- ==== Sys2Proof/Laws/Meanings.lean ====
section
/-! SUPPORT. What each meaning can do, said once: a step waits or faults (`Quiet`), or has the one effect its lemma names. -/

namespace Sys2Proof.Machine

/-- The step waited, or raised a fault and had no other effect. -/
def Quiet (s t : State) : Prop := t = s ∨ ∃ k, t = s.raise k

theorem commit_inv {s t : State} {e : Except FaultKind State} (h : commit s e = .next t) : Quiet s t ∨ e = .ok t := by
  rcases commit_eq_next.1 h with h | ⟨k, -, h⟩
  · exact .inr h
  · exact .inl (.inr ⟨k, h⟩)

theorem whenEnabled_inv {p : Bool} {s t : State} {e : Except FaultKind State} (h : whenEnabled p s e = .next t) :
    Quiet s t ∨ (p = true ∧ e = .ok t) := by
  rcases whenEnabled_eq_next.1 h with ⟨-, h⟩ | ⟨hp, h | ⟨k, -, h⟩⟩
  · exact .inl (.inl h)
  · exact .inr ⟨hp, h⟩
  · exact .inl (.inr ⟨k, h⟩)

/-- Two states whose every element but `out` agree: what a value-only operation leaves. -/
theorem yield_eq {s t : State} {v : OpResult} (h : (Host.Outcome.next (s.yield v) : Outcome) = .next t) :
    t = s.yield v := by
  simpa [eq_comm] using h

/-! ### Colour datapath -/

theorem execToByte_inv {x : F32} {s t : State} (h : execToByte x s = .next t) :
    Quiet s t ∨ ∃ b, toByte x = some b ∧ t = s.yield (.byte b) := by
  rcases commit_inv h with h | h
  · exact .inl h
  · cases hb : toByte x with
    | none => simp [hb] at h
    | some b => exact .inr ⟨b, rfl, by simpa [hb, eq_comm] using h⟩

theorem execToRgb8_inv {v : RgbaF32} {s t : State} (h : execToRgb8 v s = .next t) :
    Quiet s t ∨ ∃ p, toRgb8 v = some p ∧ t = s.yield (.pixel p) := by
  rcases commit_inv h with h | h
  · exact .inl h
  · cases hb : toRgb8 v with
    | none => simp [hb] at h
    | some p => exact .inr ⟨p, rfl, by simpa [hb, eq_comm] using h⟩

/-! ### Bit encoder and render -/

theorem execConstruct_inv {i : Nat} {s t : State} (h : execConstruct i s = .next t) :
    Quiet s t ∨ ∃ n, s.cfg.ledCount? i = some n ∧ i < s.tx.tb.length ∧ i < s.tx.cur.length ∧
      t = { s.withEncoders (s.tx.tb.set i (freshBuffer s.cfg s.draws n)) (s.tx.cur.set i 0) with
        draws := s.draws + 1 } :=
  (commit_inv h).imp_right construct_eq_ok.1

theorem execFlush_inv {a : Agent} {i : Nat} {s t : State} (h : execFlush a i s = .next t) :
    Quiet s t ∨ a = .tx ∧ i < s.tx.cur.length ∧ t = s.withEncoders s.tx.tb (s.tx.cur.set i 0) :=
  (commit_inv h).imp_right flush_eq_ok.1

theorem execWriteColor_inv {a : Agent} {i : Nat} {p : Rgb8} {s t : State} (h : execWriteColor a i p s = .next t) :
    Quiet s t ∨ a = .tx ∧ writeColor a i p s = .ok t :=
  (commit_inv h).imp_right fun h => ⟨(writeColor_eq_ok.1 h).1, h⟩

theorem eligible_eq_ok {a : Agent} {i : Nat} {s : State} {e : Bool} :
    eligible a i s = .ok e ↔ s.lk.holder = some a ∧ ∃ n m d, s.cfg.ledCount? i = some n ∧ s.mode[i]? = some m ∧
      s.tx.degraded[i]? = some d ∧ e = (decide (1 ≤ n) && m != .off && !d) := by
  simp only [eligible, bind_eq_ok, leds_eq_ok, readMode_eq_ok, getFlag_eq_ok]
  constructor
  · rintro ⟨n, hn, m, ⟨hh, hm⟩, d, hd, he⟩
    exact ⟨hh, n, m, d, hn, hm, hd, ok_eq_ok.1 he⟩
  · rintro ⟨hh, n, m, d, hn, hm, hd, he⟩
    exact ⟨n, hn, m, ⟨hh, hm⟩, d, hd, ok_eq_ok.2 he⟩

theorem renderStrip_eq_ok {a : Agent} {i : Nat} {s t : State} :
    renderStrip a i s = .ok t ↔ ∃ m w, s.lk.holder = some a ∧ s.mode[i]? = some m ∧ composeStrip a i m s = .ok w ∧
      a = .tx ∧ i < s.tx.cur.length ∧ writeColors a i w (s.withEncoders s.tx.tb (s.tx.cur.set i 0)) = .ok t := by
  simp only [renderStrip, bind_eq_ok, readMode_eq_ok, flush_eq_ok]
  constructor
  · rintro ⟨m, ⟨hh, hm⟩, w, hw, s1, ⟨ha, hi, rfl⟩, h⟩
    exact ⟨m, w, hh, hm, hw, ha, hi, h⟩
  · rintro ⟨m, w, hh, hm, hw, ha, hi, h⟩
    exact ⟨m, ⟨hh, hm⟩, w, hw, _, ⟨ha, hi, rfl⟩, h⟩

/-- Rendering a strip changes only that strip's slots before the sentinel and its cursor. -/
theorem renderStrip_ok {a : Agent} {i : Nat} {s t : State} (h : renderStrip a i s = .ok t) :
    a = .tx ∧ s.lk.holder = some .tx ∧ ∃ tb cur, t = s.withEncoders tb cur ∧
      tb.map List.length = s.tx.tb.map List.length ∧ cur.length = s.tx.cur.length ∧
      (∀ j, j ≠ i → tb[j]? = s.tx.tb[j]? ∧ cur[j]? = s.tx.cur[j]?) ∧
      ∀ n buf, s.cfg.ledCount? i = some n → s.tx.tb[i]? = some buf →
        ∃ buf', tb[i]? = some buf' ∧ ∀ j, 24 * n ≤ j → buf'[j]? = buf[j]? := by
  obtain ⟨m, w, hh, -, -, rfl, -, hw⟩ := renderStrip_eq_ok.1 h
  obtain ⟨tb, cur, rfl, h1, h2, h3, h4⟩ := writeColors_ok hw
  refine ⟨rfl, hh, tb, cur, rfl, h1, by simpa using h2, fun j hj => ?_, h4⟩
  have := h3 j hj
  exact ⟨this.1, by rw [this.2]; simp [Ne.symm hj]⟩

theorem execRenderStrip_inv {a : Agent} {i : Nat} {s t : State} (h : execRenderStrip a i s = .next t) :
    Quiet s t ∨ (eligible a i s = .ok true ∧ renderStrip a i s = .ok t) := by
  rcases commit_inv h with h | h
  · exact .inl h
  · obtain ⟨e, he, h⟩ := bind_eq_ok.1 h
    cases e
    · exact .inl (.inl (by simpa [eq_comm] using h))
    · exact .inr ⟨he, by simpa using h⟩

/-! ### Transmission controller -/

theorem txAt_eq_true {s : State} {p : TxPhase} : s.txAt p = true ↔ s.tx.phase = p := by simp [State.txAt]

theorem mayRead_eq_true {s : State} {t : Nat} : s.mayRead t = true ↔ s.clk ≤ t := by simp [State.mayRead]

theorem execTxStart_inv {t : Nat} {s u : State} (h : execTxStart t s = .next u) :
    Quiet s u ∨ s.tx.phase = .tStart ∧ s.clk ≤ t ∧ u = { s with
      clk := t
      tx := { s.tx with
        tIter := t, rendered := s.tx.rendered.map fun _ => false, tFirst := none, k := 0, phase := .tLock } } := by
  rcases whenEnabled_inv h with h | ⟨hp, h⟩
  · exact .inl h
  · simp only [Bool.and_eq_true, txAt_eq_true, mayRead_eq_true] at hp
    exact .inr ⟨hp.1, hp.2, ok_eq_ok.1 h⟩

theorem execTxLock_inv {s u : State} (h : execTxLock s = .next u) :
    Quiet s u ∨ s.tx.phase = .tLock ∧ s.lk.holder = none ∧ u = { s with
      lk := ⟨some .tx⟩, hist := s.hist ++ [.acquire .tx], tx := { s.tx with k := 0, phase := .tRender } } := by
  rcases whenEnabled_inv h with h | ⟨hp, h⟩
  · exact .inl h
  · simp only [Bool.and_eq_true, txAt_eq_true, lockFree_eq_true] at hp
    exact .inr ⟨hp.1, hp.2, ok_eq_ok.1 h⟩

/-- `tx_render` ends the pass, skips a strip, or renders one. -/
theorem execTxRender_inv {s u : State} (h : execTxRender s = .next u) :
    Quiet s u ∨ s.tx.phase = .tRender ∧
      ((s.cfg.nStrips ≤ s.tx.k ∧ u = { s with tx := { s.tx with phase := .tUnlock } }) ∨
        (s.tx.k < s.cfg.nStrips ∧ s.lk.holder = some .tx ∧ u = { s with tx := { s.tx with k := s.tx.k + 1 } }) ∨
        (s.tx.k < s.cfg.nStrips ∧ eligible .tx s.tx.k s = .ok true ∧ ∃ s1, renderStrip .tx s.tx.k s = .ok s1 ∧
          s.tx.k < s1.tx.rendered.length ∧
          u = { s1 with tx := { s1.tx with rendered := s1.tx.rendered.set s.tx.k true, k := s.tx.k + 1 } })) := by
  rcases whenEnabled_inv h with h | ⟨hp, h⟩
  · exact .inl h
  · refine .inr ⟨txAt_eq_true.1 hp, ?_⟩
    simp only [txRender] at h
    split at h <;> rename_i hk
    · obtain ⟨e, he, h⟩ := bind_eq_ok.1 h
      cases e
      · exact .inr (.inl ⟨hk, (eligible_eq_ok.1 he).1, ok_eq_ok.1 h⟩)
      · obtain ⟨s1, hs1, h⟩ := bind_eq_ok.1 h
        obtain ⟨fl, hfl, h⟩ := bind_eq_ok.1 h
        obtain ⟨hl, rfl⟩ := setFlag_eq_ok.1 hfl
        exact .inr (.inr ⟨hk, he, s1, hs1, hl, ok_eq_ok.1 h⟩)
    · exact .inl ⟨by omega, ok_eq_ok.1 h⟩

theorem execTxUnlock_inv {s u : State} (h : execTxUnlock s = .next u) :
    Quiet s u ∨ s.tx.phase = .tUnlock ∧ s.lk.holder = some .tx ∧ u = { s with
      lk := ⟨none⟩, hist := s.hist ++ [.release .tx], tx := { s.tx with k := 0, phase := .tSubmit } } := by
  rcases whenEnabled_inv h with h | ⟨hp, h⟩
  · exact .inl h
  · obtain ⟨s1, hs1, h⟩ := bind_eq_ok.1 h
    obtain ⟨hh, rfl⟩ := release_eq_ok.1 hs1
    exact .inr ⟨txAt_eq_true.1 hp, hh, ok_eq_ok.1 h⟩

/-- The least set index, when one is found. -/
theorem leastSet_eq_some {start n i : Nat} {flags : List Bool} (h : leastSet start n flags = some i) :
    start ≤ i ∧ i < n ∧ flags[i]? = some true ∧ ∀ j, start ≤ j → j < i → flags[j]? ≠ some true := by
  obtain ⟨h1, as, bs, h2, h3⟩ := List.find?_eq_some_iff_append.1 h
  simp only [Bool.and_eq_true, decide_eq_true_eq] at h1
  have hlen := congrArg List.length h2
  simp only [List.length_range, List.length_append, List.length_cons] at hlen
  have hget : ∀ j, j < n → (as ++ i :: bs)[j]? = some j := fun j hj => by rw [← h2]; exact List.getElem?_range hj
  have hi : as.length = i := by
    have := hget as.length (by omega)
    simpa [eq_comm] using this
  refine ⟨h1.1, by omega, ?_, fun j hj hji hf => ?_⟩
  · have := h1.2
    rw [List.getD_eq_getElem?_getD] at this
    cases hc : flags[i]? with
    | none => simp [hc] at this
    | some b => simpa [hc] using this
  · have := hget j (by omega)
    rw [List.getElem?_append_left (by omega)] at this
    have := h3 j (List.mem_of_getElem? this)
    simp [hj, List.getD_eq_getElem?_getD, hf] at this

theorem leastSet_eq_none {start n : Nat} {flags : List Bool} :
    leastSet start n flags = none ↔ ∀ j, start ≤ j → j < n → flags[j]? ≠ some true := by
  simp only [leastSet, List.find?_eq_none, List.mem_range, Bool.and_eq_true, decide_eq_true_eq, not_and,
    List.getD_eq_getElem?_getD]
  constructor
  · intro h j hj hn hf
    exact h j hn hj (by simp [hf])
  · intro h j hn hj hf
    refine h j hj hn ?_
    cases hc : flags[j]? with
    | none => simp [hc] at hf
    | some b => simp [hc] at hf; simp [hf]

theorem execTxSubmit_inv {s u : State} (h : execTxSubmit s = .next u) :
    Quiet s u ∨ s.tx.phase = .tSubmit ∧
      ((∃ i n buf, s.tx.k ≤ i ∧ i < s.cfg.nStrips ∧ s.tx.rendered[i]? = some true ∧ s.cfg.ledCount? i = some n ∧
          s.tx.tb[i]? = some buf ∧ 24 * n + 1 ≤ buf.length ∧ u = { s with
            hist := s.hist ++ [.submit i (24 * n + 1)], hw := some (buf.take (24 * n + 1))
            tx := { s.tx with k := i, phase := .tXmit } }) ∨
        u = { s with tx := { s.tx with phase := .tWaitcalc } }) := by
  rcases whenEnabled_inv h with h | ⟨hp, h⟩
  · exact .inl h
  · refine .inr ⟨txAt_eq_true.1 hp, ?_⟩
    simp only [txSubmit] at h
    split at h <;> rename_i hl
    · obtain ⟨n, hn, h⟩ := bind_eq_ok.1 h
      obtain ⟨ys, hy, h⟩ := bind_eq_ok.1 h
      obtain ⟨-, buf, hb, hle, rfl⟩ := readTb_eq_ok.1 hy
      obtain ⟨h1, h2, h3, -⟩ := leastSet_eq_some hl
      exact .inl ⟨_, n, buf, h1, h2, h3, leds_eq_ok.1 hn, hb, hle, ok_eq_ok.1 h⟩
    · exact .inr (ok_eq_ok.1 h)

theorem execTxComplete_inv {ok : Bool} {t : Nat} {s u : State} (h : execTxComplete ok t s = .next u) :
    Quiet s u ∨ s.tx.phase = .tXmit ∧ s.clk ≤ t ∧ (ok = false → s.tx.k < s.tx.degraded.length) ∧ u = { s with
      clk := t, hw := none, hist := s.hist ++ [.complete s.tx.k ok t]
      tx := { s.tx with
        tFirst := some (s.tx.tFirst.getD t), degraded := if ok then s.tx.degraded else s.tx.degraded.set s.tx.k true
        k := s.tx.k + 1, phase := .tSubmit } } := by
  rcases whenEnabled_inv h with h | ⟨hp, h⟩
  · exact .inl h
  · simp only [Bool.and_eq_true, txAt_eq_true, mayRead_eq_true] at hp
    refine .inr ⟨hp.1.1, hp.2, ?_⟩
    obtain ⟨dg, hdg, h⟩ := bind_eq_ok.1 h
    cases ok
    · obtain ⟨hl, rfl⟩ := setFlag_eq_ok.1 (by simpa using hdg)
      exact ⟨fun _ => hl, ok_eq_ok.1 h⟩
    · obtain rfl : dg = s.tx.degraded := by simpa [eq_comm] using hdg
      exact ⟨by simp, ok_eq_ok.1 h⟩

theorem execTxWaitcalc_inv {t : Nat} {s u : State} (h : execTxWaitcalc t s = .next u) :
    Quiet s u ∨ s.tx.phase = .tWaitcalc ∧ s.clk ≤ t ∧ u = { s with
      clk := t, tx := { s.tx with deadline := t + latchWait s.cfg s.tx.tFirst t, phase := .tSleep } } := by
  rcases whenEnabled_inv h with h | ⟨hp, h⟩
  · exact .inl h
  · simp only [Bool.and_eq_true, txAt_eq_true, mayRead_eq_true] at hp
    exact .inr ⟨hp.1, hp.2, ok_eq_ok.1 h⟩

theorem execTxWake_inv {t : Nat} {s u : State} (h : execTxWake t s = .next u) :
    Quiet s u ∨ s.tx.phase = .tSleep ∧ s.clk ≤ t ∧ s.tx.deadline ≤ t ∧ u = { s with
      clk := t, hist := s.hist ++ [.wake t], tx := { s.tx with phase := .tStart } } := by
  rcases whenEnabled_inv h with h | ⟨hp, h⟩
  · exact .inl h
  · simp only [Bool.and_eq_true, txAt_eq_true, mayRead_eq_true, decide_eq_true_eq] at hp
    exact .inr ⟨hp.1.1, hp.1.2, hp.2, ok_eq_ok.1 h⟩

/-! ### Lock -/

theorem execAcquire_inv {a : Agent} {s t : State} (h : execAcquire a s = .next t) :
    Quiet s t ∨ s.lk.holder = none ∧ t = { s with lk := ⟨some a⟩, hist := s.hist ++ [.acquire a] } := by
  rcases whenEnabled_inv h with h | ⟨hp, h⟩
  · exact .inl h
  · exact .inr ⟨lockFree_eq_true.1 hp, ok_eq_ok.1 h⟩

theorem execRelease_inv {a : Agent} {s t : State} (h : execRelease a s = .next t) :
    Quiet s t ∨ s.lk.holder = some a ∧ t = { s with lk := ⟨none⟩, hist := s.hist ++ [.release a] } :=
  (commit_inv h).imp_right release_eq_ok.1

/-! ### Ingestion port -/

theorem parsing_eq_true {s : State} : s.parsing = true ↔ s.mayStep .ing = true ∧ s.ing.phase = .iParse := by
  simp [State.parsing]

/-- What a parse step that is no wait and no fault leaves: the end of the datagram, an abort, or an applied record
of `need` payload bytes whose colours `vs` stand at the head of the target's buffer. -/
inductive Parsed (i : Instr) (s t : State) : Prop where
  | ended (hi : i = .ingParse) (hlen : s.ing.dg.length < s.ing.c + 2)
      (h : t = { s with ing := { s.ing with phase := .iUnlock } })
  | aborted (k : ErrorKind) (h : t = aborted s k)
  | applied (cmd tgt : Byte) (need n : Nat) (vs old : List RgbaF32) (hi : writesColours i = true)
      (hneed : (∀ r : Record, i = r.toInstr → need ≤ r.payloadLen) ∧
        (i = .ingParse → s.ing.c + 2 + need ≤ s.ing.dg.length))
      (holder : s.lk.holder = some .ing)
      (hn : s.cfg.ledCount? tgt.toNat = some n)
      (ho : s.cb[tgt.toNat]? = some old) (hl : vs.length ≤ old.length)
      (hv : ∀ v ∈ vs, ∃ p : Rgba8, v = alphaColour p ∨ v = opaqueColour ⟨p.r, p.g, p.b⟩)
      (hcase : (s.cfg.atomicity = .perDatagram ∧ t = { s with
          cb := s.cb.set tgt.toNat (vs ++ old.drop vs.length), hist := s.hist ++ [.apply cmd tgt]
          ing := { s.ing with c := s.ing.c + 2 + need } }) ∨
        (s.cfg.atomicity = .perRecord ∧ t = { s with
          cb := s.cb.set tgt.toNat (vs ++ old.drop vs.length), hist := s.hist ++ [.apply cmd tgt] ++ [.release .ing]
          lk := ⟨none⟩, ing := { s.ing with c := s.ing.c + 2 + need, phase := .iLock } }))

theorem onTarget_applyRecord_inv {i : Instr} {s t : State} {cmd tgt : Byte} {need avail : Nat → Nat}
    {vs : Nat → List RgbaF32} (hi : writesColours i = true)
    (hneed : ∀ n, need n ≤ avail n → (∀ r : Record, i = r.toInstr → need n ≤ r.payloadLen) ∧
      (i = .ingParse → s.ing.c + 2 + need n ≤ s.ing.dg.length))
    (hv : ∀ n, ∀ v ∈ vs n, ∃ p : Rgba8, v = alphaColour p ∨ v = opaqueColour ⟨p.r, p.g, p.b⟩)
    (h : onTarget s tgt (fun n => s.applyRecord cmd tgt (need n) (avail n) (vs n)) = .ok t) : Parsed i s t := by
  rcases onTarget_eq_ok.1 h with ⟨-, rfl⟩ | ⟨n, m, hn, hh, hm, h⟩
  · exact .aborted _ rfl
  · split at h
    · rcases applyRecord_eq_ok.1 h with ⟨-, rfl⟩ | ⟨hle, s1, hs1, h⟩
      · exact .aborted _ rfl
      · obtain ⟨-, old, ho, hl, rfl⟩ := writeCb_eq_ok.1 hs1
        refine .applied cmd tgt (need n) n (vs n) old hi (hneed n hle) hh hn ho hl (hv n) ?_
        rcases endRecord_eq_ok.1 h with ⟨ha, rfl⟩ | ⟨ha, -, rfl⟩
        · exact .inl ⟨ha, rfl⟩
        · exact .inr ⟨ha, rfl⟩
    · exact .aborted _ h

theorem unknownCommand_inv {s t : State} {tgt : Byte} (h : unknownCommand tgt s = .ok t) : ∃ k, t = aborted s k := by
  rcases onTarget_eq_ok.1 h with ⟨-, rfl⟩ | ⟨n, m, hn, hh, hm, h⟩
  · exact ⟨_, rfl⟩
  · split at h
    · exact ⟨_, ok_eq_ok.1 h⟩
    · exact ⟨_, h⟩

/-- Every record's meaning waits, faults, or is a parse step. -/
theorem execRecord_inv {r : Record} {s t : State} (h : execRecord r s = .next t) :
    Quiet s t ∨ s.mayStep .ing = true ∧ s.ing.phase = .iParse ∧ Parsed r.toInstr s t := by
  have key : ∀ e : Except FaultKind State, (e = .ok t → Parsed r.toInstr s t) → whenEnabled s.parsing s e = .next t →
      Quiet s t ∨ s.mayStep .ing = true ∧ s.ing.phase = .iParse ∧ Parsed r.toInstr s t := fun e he h => by
    rcases whenEnabled_inv h with h | ⟨hp, h⟩
    · exact .inl h
    · exact .inr ⟨(parsing_eq_true.1 hp).1, (parsing_eq_true.1 hp).2, he h⟩
  have unk : ∀ tgt, unknownCommand tgt s = .ok t → Parsed r.toInstr s t := fun tgt h =>
    let ⟨k, hk⟩ := unknownCommand_inv h
    .aborted k hk
  have fit : ∀ need : Nat → Nat, ∀ n, need n ≤ r.payloadLen →
      (∀ r' : Record, r.toInstr = r'.toInstr → need n ≤ r'.payloadLen) ∧
        (r.toInstr = .ingParse → s.ing.c + 2 + need n ≤ s.ing.dg.length) := fun need n hle =>
    ⟨fun r' hr => by cases r <;> cases r' <;> cases hr <;> exact hle, fun hr => by cases r <;> cases hr⟩
  cases r with
  | sbm tgt px =>
    refine key _ (onTarget_applyRecord_inv (vs := fun n => (px.take n).map opaqueColour) rfl (fit _) fun n v hv => ?_) h
    obtain ⟨p, -, rfl⟩ := List.mem_map.1 hv
    exact ⟨⟨p.r, p.g, p.b, 0⟩, .inr rfl⟩
  | sbs tgt p =>
    refine key _ (onTarget_applyRecord_inv (vs := fun n => List.replicate n (opaqueColour p)) rfl (fit _) fun n v hv => ?_) h
    obtain ⟨-, rfl⟩ := List.mem_replicate.1 hv
    exact ⟨⟨p.r, p.g, p.b, 0⟩, .inr rfl⟩
  | rsv2 tgt => exact key _ (unk tgt) h
  | sbma tgt px =>
    refine key _ (onTarget_applyRecord_inv (vs := fun n => (px.take n).map alphaColour) rfl (fit _) fun n v hv => ?_) h
    obtain ⟨p, -, rfl⟩ := List.mem_map.1 hv
    exact ⟨p, .inl rfl⟩
  | rsv4 tgt => exact key _ (unk tgt) h
  | unrec cmd tgt => exact key _ (unk tgt) h

/-- The record decoded at the cursor makes `ing_parse` a parse step. -/
theorem Parsed.ofRecord {r : Record} {s t : State} {rest : List Byte}
    (hd : decodeRecordHead s.cfg s.remaining = .ok (r, rest)) (h : Parsed r.toInstr s t) : Parsed .ingParse s t := by
  cases h with
  | ended hi hlen h => cases r <;> cases hi
  | aborted k h => exact .aborted k h
  | applied cmd tgt need n vs old hi hneed holder hn ho hl hv hcase =>
    refine .applied cmd tgt need n vs old rfl ⟨fun r' hr => (by cases r' <;> cases hr), fun _ => ?_⟩ holder hn ho hl hv
      hcase
    have h1 := hneed.1 r rfl
    have h2 := decodeRecordHead_length hd
    simp only [State.remaining, List.length_drop] at h2
    omega

theorem execIngParse_inv {s t : State} (h : execIngParse s = .next t) :
    Quiet s t ∨ s.mayStep .ing = true ∧ s.ing.phase = .iParse ∧ Parsed .ingParse s t := by
  unfold execIngParse at h
  split at h
  · rename_i r rest hr
    rcases execRecord_inv h with h | ⟨hm, hp, h⟩
    · exact .inl h
    · exact .inr ⟨hm, hp, h.ofRecord hr⟩
  · rename_i e he
    rcases whenEnabled_inv h with h | ⟨hp, h⟩
    · exact .inl h
    · refine .inr ⟨(parsing_eq_true.1 hp).1, (parsing_eq_true.1 hp).2, ?_⟩
      unfold parseFailure at h
      split at h
      · refine .ended rfl ?_ (ok_eq_ok.1 h)
        unfold decodeRecordHead at he
        split at he
        · split at he
          · unfold decodePayload at he
            split at he <;> (try split at he) <;> simp at he
          · simp at he
        · rename_i hne
          have hl : s.remaining.length < 2 := by
            cases h1 : s.remaining with
            | nil => simp
            | cons x xs =>
              cases h2 : xs with
              | nil => simp
              | cons y ys => exact absurd (h2 ▸ h1) (hne x y ys)
          simp only [State.remaining, List.length_drop] at hl
          omega
      · exact .aborted _ (ok_eq_ok.1 h)
      · exact (unknownCommand_inv (tgt := _) h).elim fun k hk => .aborted k hk
      all_goals simp at h

theorem execIngReceive_inv {bytes : List Byte} {s t : State} (h : execIngReceive bytes s = .next t) :
    Quiet s t ∨ s.ing.phase = .iIdle ∧ bytes.length ≤ s.cfg.maxDgram ∧ t = { s with ing := ⟨.iLock, bytes, 0⟩ } := by
  rcases whenEnabled_inv h with h | ⟨hp, h⟩
  · exact .inl h
  · simp only [Bool.and_eq_true, beq_iff_eq, decide_eq_true_eq] at hp
    exact .inr ⟨hp.1.2, hp.2, ok_eq_ok.1 h⟩

theorem execIngLock_inv {s t : State} (h : execIngLock s = .next t) :
    Quiet s t ∨ s.ing.phase = .iLock ∧ s.lk.holder = none ∧ t = { s with
      lk := ⟨some .ing⟩, hist := s.hist ++ [.acquire .ing], ing := { s.ing with phase := .iParse } } := by
  rcases whenEnabled_inv h with h | ⟨hp, h⟩
  · exact .inl h
  · simp only [Bool.and_eq_true, beq_iff_eq, lockFree_eq_true] at hp
    exact .inr ⟨hp.1.2, hp.2, ok_eq_ok.1 h⟩

theorem execIngUnlock_inv {s t : State} (h : execIngUnlock s = .next t) :
    Quiet s t ∨ s.ing.phase = .iUnlock ∧ s.lk.holder = some .ing ∧ t = { s with
      lk := ⟨none⟩, hist := s.hist ++ [.release .ing], ing := ⟨.iIdle, [], 0⟩ } := by
  rcases whenEnabled_inv h with h | ⟨hp, h⟩
  · exact .inl h
  · simp only [Bool.and_eq_true, beq_iff_eq] at hp
    obtain ⟨s1, hs1, h⟩ := bind_eq_ok.1 h
    obtain ⟨hh, rfl⟩ := release_eq_ok.1 hs1
    exact .inr ⟨hp.2, hh, ok_eq_ok.1 h⟩

/-! ### Control port and selector -/

theorem applying_eq_true {s : State} : s.applying = true ↔ s.mayStep .ctl = true ∧ s.ctl.phase = .cApply := by
  simp [State.applying]

theorem execSsm_inv {idx : Byte} {m : StripMode} {s t : State} (h : execSsm idx m s = .next t) :
    Quiet s t ∨ s.ctl.phase = .cApply ∧
      ((idx.toNat < s.mode.length ∧ s.lk.holder = some .ctl ∧ t = { s with
          mode := s.mode.set idx.toNat m, hist := s.hist ++ [.mode idx.toNat m]
          ctl := { s.ctl with phase := .cUnlock } }) ∨
        t = { s with ctl := { s.ctl with phase := .cUnlock } }) := by
  rcases whenEnabled_inv h with h | ⟨hp, h⟩
  · exact .inl h
  · refine .inr ⟨(applying_eq_true.1 hp).2, ?_⟩
    simp only [applySetStripMode] at h
    split at h
    · obtain ⟨s1, hs1, h⟩ := bind_eq_ok.1 h
      obtain ⟨hh, hl, rfl⟩ := writeMode_eq_ok.1 hs1
      exact .inl ⟨hl, hh, ok_eq_ok.1 h⟩
    · exact .inr (ok_eq_ok.1 h)

theorem shiftSel_eq_ok {a : Agent} {d : Int} {s t : State} :
    shiftSel a d s = .ok t ↔ s.lk.holder = some a ∧ t = { s with sel := shiftedSel s.sel d s.cfg.nEffects } := by
  simp only [shiftSel, bind_eq_ok, readSel_eq_ok, writeSel_eq_ok]
  constructor
  · rintro ⟨k, ⟨hh, rfl⟩, -, rfl⟩
    exact ⟨hh, rfl⟩
  · rintro ⟨hh, rfl⟩
    exact ⟨_, ⟨hh, rfl⟩, hh, rfl⟩

theorem execSem_inv {d : Byte} {s t : State} (h : execSem d s = .next t) :
    Quiet s t ∨ s.ctl.phase = .cApply ∧ s.lk.holder = some .ctl ∧ t = { s with
      sel := shiftedSel s.sel d.toInt s.cfg.nEffects
      hist := s.hist ++ [.select (shiftedSel s.sel d.toInt s.cfg.nEffects)]
      ctl := { s.ctl with phase := .cUnlock } } := by
  rcases whenEnabled_inv h with h | ⟨hp, h⟩
  · exact .inl h
  · obtain ⟨s1, hs1, h⟩ := bind_eq_ok.1 h
    obtain ⟨hh, rfl⟩ := shiftSel_eq_ok.1 hs1
    exact .inr ⟨(applying_eq_true.1 hp).2, hh, ok_eq_ok.1 h⟩

theorem execCtlReceive_inv {bytes : List Byte} {s t : State} (h : execCtlReceive bytes s = .next t) :
    Quiet s t ∨ s.ctl.phase = .cIdle ∧ ∃ m, decodeControlMsg bytes = .ok m ∧ t = { s with ctl := ⟨.cLock, some m⟩ } := by
  rcases whenEnabled_inv h with h | ⟨hp, h⟩
  · exact .inl h
  · simp only [Bool.and_eq_true, beq_iff_eq] at hp
    have h := ok_eq_ok.1 h
    unfold ctlReceive at h
    split at h
    · exact .inr ⟨hp.2, _, ‹_›, h⟩
    · exact .inl (.inl h)

theorem execCtlLock_inv {s t : State} (h : execCtlLock s = .next t) :
    Quiet s t ∨ s.ctl.phase = .cLock ∧ s.lk.holder = none ∧ t = { s with
      lk := ⟨some .ctl⟩, hist := s.hist ++ [.acquire .ctl], ctl := { s.ctl with phase := .cApply } } := by
  rcases whenEnabled_inv h with h | ⟨hp, h⟩
  · exact .inl h
  · simp only [Bool.and_eq_true, beq_iff_eq, lockFree_eq_true] at hp
    exact .inr ⟨hp.1.2, hp.2, ok_eq_ok.1 h⟩

theorem execCtlUnlock_inv {s t : State} (h : execCtlUnlock s = .next t) :
    Quiet s t ∨ s.ctl.phase = .cUnlock ∧ s.lk.holder = some .ctl ∧ t = { s with
      lk := ⟨none⟩, hist := s.hist ++ [.release .ctl], ctl := ⟨.cIdle, none⟩ } := by
  rcases whenEnabled_inv h with h | ⟨hp, h⟩
  · exact .inl h
  · simp only [Bool.and_eq_true, beq_iff_eq] at hp
    obtain ⟨s1, hs1, h⟩ := bind_eq_ok.1 h
    obtain ⟨hh, rfl⟩ := release_eq_ok.1 hs1
    exact .inr ⟨hp.2, hh, ok_eq_ok.1 h⟩

theorem nextEffect_eq_ok {a : Agent} {s t : State} :
    nextEffect a s = .ok t ↔ s.lk.holder = some a ∧ t = { s with sel := (s.sel + 1) % s.cfg.nEffects } := by
  simp only [nextEffect, bind_eq_ok, readSel_eq_ok, writeSel_eq_ok]
  constructor
  · rintro ⟨k, ⟨hh, rfl⟩, -, rfl⟩
    exact ⟨hh, rfl⟩
  · rintro ⟨hh, rfl⟩
    exact ⟨_, ⟨hh, rfl⟩, hh, rfl⟩

theorem prevEffect_eq_ok {a : Agent} {s t : State} :
    prevEffect a s = .ok t ↔
      s.lk.holder = some a ∧ t = { s with sel := if s.sel = 0 then s.cfg.nEffects - 1 else s.sel - 1 } := by
  simp only [prevEffect, bind_eq_ok, readSel_eq_ok, writeSel_eq_ok]
  constructor
  · rintro ⟨k, ⟨hh, rfl⟩, -, rfl⟩
    exact ⟨hh, rfl⟩
  · rintro ⟨hh, rfl⟩
    exact ⟨_, ⟨hh, rfl⟩, hh, rfl⟩

theorem execNextEffect_inv {a : Agent} {s t : State} (h : execNextEffect a s = .next t) :
    Quiet s t ∨ s.lk.holder = some a ∧ t = { s with sel := (s.sel + 1) % s.cfg.nEffects } :=
  (commit_inv h).imp_right nextEffect_eq_ok.1

theorem execPrevEffect_inv {a : Agent} {s t : State} (h : execPrevEffect a s = .next t) :
    Quiet s t ∨
      s.lk.holder = some a ∧ t = { s with sel := if s.sel = 0 then s.cfg.nEffects - 1 else s.sel - 1 } :=
  (commit_inv h).imp_right prevEffect_eq_ok.1

theorem execSetEffect_inv {a : Agent} {k : Nat} {s t : State} (h : execSetEffect a k s = .next t) :
    Quiet s t ∨ s.lk.holder = some a ∧ t = { s with sel := k % s.cfg.nEffects } :=
  (commit_inv h).imp_right writeSel_eq_ok.1

theorem execCurrentEffect_inv {a : Agent} {s t : State} (h : execCurrentEffect a s = .next t) :
    Quiet s t ∨ s.lk.holder = some a ∧ t = s.yield (.index s.sel) := by
  rcases commit_inv h with h | h
  · exact .inl h
  · obtain ⟨k, hk, h⟩ := bind_eq_ok.1 h
    obtain ⟨hh, rfl⟩ := readSel_eq_ok.1 hk
    exact .inr ⟨hh, ok_eq_ok.1 h⟩

/-! ### Every instruction at once -/

/-- What one execution can leave: nothing or a fault alone, a value for the caller, or the one effect of its rule. -/
inductive Effect (s : State) : Instr → State → Prop where
  | quiet (i : Instr) (t : State) (h : Quiet s t) : Effect s i t
  | value (i : Instr) (v : OpResult) : Effect s i (s.yield v)
  | construct (j n : Nat) (hn : s.cfg.ledCount? j = some n) (hb : j < s.tx.tb.length) (hc : j < s.tx.cur.length) :
      Effect s (.construct j) { s.withEncoders (s.tx.tb.set j (freshBuffer s.cfg s.draws n)) (s.tx.cur.set j 0) with
        draws := s.draws + 1 }
  | flush (j : Nat) (hc : j < s.tx.cur.length) :
      Effect s (.flush .tx j) (s.withEncoders s.tx.tb (s.tx.cur.set j 0))
  | writeColor (j : Nat) (p : Rgb8) (t : State) (h : Sys2Proof.Machine.writeColor .tx j p s = .ok t) :
      Effect s (.writeColor .tx j p) t
  | renderStrip (j : Nat) (t : State) (he : eligible .tx j s = .ok true)
      (h : Sys2Proof.Machine.renderStrip .tx j s = .ok t) : Effect s (.renderStrip .tx j) t
  | txStart (t : Nat) (hp : s.tx.phase = .tStart) (ht : s.clk ≤ t) : Effect s (.txStart t) { s with
      clk := t
      tx := { s.tx with
        tIter := t, rendered := s.tx.rendered.map fun _ => false, tFirst := none, k := 0, phase := .tLock } }
  | txLock (hp : s.tx.phase = .tLock) (hh : s.lk.holder = none) : Effect s .txLock { s with
      lk := ⟨some .tx⟩, hist := s.hist ++ [.acquire .tx], tx := { s.tx with k := 0, phase := .tRender } }
  | txRenderEnd (hp : s.tx.phase = .tRender) (hk : s.cfg.nStrips ≤ s.tx.k) :
      Effect s .txRender { s with tx := { s.tx with phase := .tUnlock } }
  | txRenderSkip (hp : s.tx.phase = .tRender) (hk : s.tx.k < s.cfg.nStrips) (hh : s.lk.holder = some .tx) :
      Effect s .txRender { s with tx := { s.tx with k := s.tx.k + 1 } }
  | txRenderStrip (s1 : State) (hp : s.tx.phase = .tRender) (hk : s.tx.k < s.cfg.nStrips)
      (he : eligible .tx s.tx.k s = .ok true) (h : Sys2Proof.Machine.renderStrip .tx s.tx.k s = .ok s1)
      (hl : s.tx.k < s1.tx.rendered.length) : Effect s .txRender
        { s1 with tx := { s1.tx with rendered := s1.tx.rendered.set s.tx.k true, k := s.tx.k + 1 } }
  | txUnlock (hp : s.tx.phase = .tUnlock) (hh : s.lk.holder = some .tx) : Effect s .txUnlock { s with
      lk := ⟨none⟩, hist := s.hist ++ [.release .tx], tx := { s.tx with k := 0, phase := .tSubmit } }
  | txSubmit (j n : Nat) (buf : List Symbol) (hp : s.tx.phase = .tSubmit) (hk : s.tx.k ≤ j) (hj : j < s.cfg.nStrips)
      (hr : s.tx.rendered[j]? = some true) (hn : s.cfg.ledCount? j = some n) (hb : s.tx.tb[j]? = some buf)
      (hl : 24 * n + 1 ≤ buf.length) : Effect s .txSubmit { s with
        hist := s.hist ++ [.submit j (24 * n + 1)], hw := some (buf.take (24 * n + 1))
        tx := { s.tx with k := j, phase := .tXmit } }
  | txSubmitEnd (hp : s.tx.phase = .tSubmit) : Effect s .txSubmit { s with tx := { s.tx with phase := .tWaitcalc } }
  | txComplete (ok : Bool) (t : Nat) (hp : s.tx.phase = .tXmit) (ht : s.clk ≤ t)
      (hd : ok = false → s.tx.k < s.tx.degraded.length) : Effect s (.txComplete ok t) { s with
        clk := t, hw := none, hist := s.hist ++ [.complete s.tx.k ok t]
        tx := { s.tx with
          tFirst := some (s.tx.tFirst.getD t)
          degraded := if ok then s.tx.degraded else s.tx.degraded.set s.tx.k true
          k := s.tx.k + 1, phase := .tSubmit } }
  | txWaitcalc (t : Nat) (hp : s.tx.phase = .tWaitcalc) (ht : s.clk ≤ t) : Effect s (.txWaitcalc t) { s with
      clk := t, tx := { s.tx with deadline := t + latchWait s.cfg s.tx.tFirst t, phase := .tSleep } }
  | txWake (t : Nat) (hp : s.tx.phase = .tSleep) (ht : s.clk ≤ t) (hd : s.tx.deadline ≤ t) : Effect s (.txWake t) { s with
      clk := t, hist := s.hist ++ [.wake t], tx := { s.tx with phase := .tStart } }
  | acquire (a : Agent) (hh : s.lk.holder = none) :
      Effect s (.acquire a) { s with lk := ⟨some a⟩, hist := s.hist ++ [.acquire a] }
  | release (a : Agent) (hh : s.lk.holder = some a) :
      Effect s (.release a) { s with lk := ⟨none⟩, hist := s.hist ++ [.release a] }
  | parsed (i : Instr) (t : State) (hi : i = .ingParse ∨ ∃ r : Record, i = r.toInstr) (hm : s.mayStep .ing = true)
      (hp : s.ing.phase = .iParse) (h : Parsed i s t) : Effect s i t
  | ingReceive (bytes : List Byte) (hp : s.ing.phase = .iIdle) (hl : bytes.length ≤ s.cfg.maxDgram) :
      Effect s (.ingReceive bytes) { s with ing := ⟨.iLock, bytes, 0⟩ }
  | ingLock (hp : s.ing.phase = .iLock) (hh : s.lk.holder = none) : Effect s .ingLock { s with
      lk := ⟨some .ing⟩, hist := s.hist ++ [.acquire .ing], ing := { s.ing with phase := .iParse } }
  | ingUnlock (hp : s.ing.phase = .iUnlock) (hh : s.lk.holder = some .ing) : Effect s .ingUnlock { s with
      lk := ⟨none⟩, hist := s.hist ++ [.release .ing], ing := ⟨.iIdle, [], 0⟩ }
  | ssm (idx : Byte) (m : StripMode) (hp : s.ctl.phase = .cApply) (hl : idx.toNat < s.mode.length)
      (hh : s.lk.holder = some .ctl) : Effect s (.ssm idx m) { s with
        mode := s.mode.set idx.toNat m, hist := s.hist ++ [.mode idx.toNat m]
        ctl := { s.ctl with phase := .cUnlock } }
  | ssmNone (idx : Byte) (m : StripMode) (hp : s.ctl.phase = .cApply) :
      Effect s (.ssm idx m) { s with ctl := { s.ctl with phase := .cUnlock } }
  | sem (d : Byte) (hp : s.ctl.phase = .cApply) (hh : s.lk.holder = some .ctl) : Effect s (.sem d) { s with
      sel := shiftedSel s.sel d.toInt s.cfg.nEffects
      hist := s.hist ++ [.select (shiftedSel s.sel d.toInt s.cfg.nEffects)]
      ctl := { s.ctl with phase := .cUnlock } }
  | ctlReceive (bytes : List Byte) (m : ControlMsg) (hp : s.ctl.phase = .cIdle) (hd : decodeControlMsg bytes = .ok m) :
      Effect s (.ctlReceive bytes) { s with ctl := ⟨.cLock, some m⟩ }
  | ctlLock (hp : s.ctl.phase = .cLock) (hh : s.lk.holder = none) : Effect s .ctlLock { s with
      lk := ⟨some .ctl⟩, hist := s.hist ++ [.acquire .ctl], ctl := { s.ctl with phase := .cApply } }
  | ctlUnlock (hp : s.ctl.phase = .cUnlock) (hh : s.lk.holder = some .ctl) : Effect s .ctlUnlock { s with
      lk := ⟨none⟩, hist := s.hist ++ [.release .ctl], ctl := ⟨.cIdle, none⟩ }
  | select (i : Instr) (a : Agent) (k : Nat) (hi : i = .nextEffect a ∧ k = (s.sel + 1) % s.cfg.nEffects ∨
        i = .prevEffect a ∧ k = (if s.sel = 0 then s.cfg.nEffects - 1 else s.sel - 1) ∨
        ∃ j, i = .setEffect a j ∧ k = j % s.cfg.nEffects)
      (hh : s.lk.holder = some a) : Effect s i { s with sel := k }

/-- A record's effect. -/
theorem execRecord_effect {r : Record} {s t : State} (h : execRecord r s = .next t) : Effect s r.toInstr t := by
  rcases execRecord_inv h with h | ⟨hm, hp, h⟩
  · exact .quiet _ _ h
  · exact .parsed _ _ (.inr ⟨r, rfl⟩) hm hp h

/-- Whatever the instruction and the state, a next state is one of the effects above. -/
theorem exec_effect {i : Instr} {s t : State} (h : exec i s = .next t) : Effect s i t := by
  cases i with
  | sbm tgt px => exact execRecord_effect (r := .sbm tgt px) h
  | sbs tgt p => exact execRecord_effect (r := .sbs tgt p) h
  | rsv2 tgt => exact execRecord_effect (r := .rsv2 tgt) h
  | sbma tgt px => exact execRecord_effect (r := .sbma tgt px) h
  | rsv4 tgt => exact execRecord_effect (r := .rsv4 tgt) h
  | unrec cmd tgt => exact execRecord_effect (r := .unrec cmd tgt) h
  | ssm idx m =>
    rcases execSsm_inv h with h | ⟨hp, ⟨hl, hh, rfl⟩ | rfl⟩
    · exact .quiet _ _ h
    · exact .ssm idx m hp hl hh
    · exact .ssmNone idx m hp
  | sem d =>
    rcases execSem_inv h with h | ⟨hp, hh, rfl⟩
    · exact .quiet _ _ h
    · exact .sem d hp hh
  | encodeBit b => obtain rfl := yield_eq h; exact .value _ _
  | encodeByte v => obtain rfl := yield_eq h; exact .value _ _
  | construct j =>
    rcases execConstruct_inv h with h | ⟨n, hn, hb, hc, rfl⟩
    · exact .quiet _ _ h
    · exact .construct j n hn hb hc
  | flush a j =>
    rcases execFlush_inv h with h | ⟨rfl, hc, rfl⟩
    · exact .quiet _ _ h
    · exact .flush j hc
  | writeColor a j p =>
    rcases execWriteColor_inv h with h | ⟨rfl, h⟩
    · exact .quiet _ _ h
    · exact .writeColor j p _ h
  | b2f c => obtain rfl := yield_eq h; exact .value _ _
  | rgbaNew r g b a => obtain rfl := yield_eq h; exact .value _ _
  | rgbaNewPremultiplied r g b a => obtain rfl := yield_eq h; exact .value _ _
  | fromRgb8 p => obtain rfl := yield_eq h; exact .value _ _
  | blendOver fg bg => obtain rfl := yield_eq h; exact .value _ _
  | toByte x =>
    rcases execToByte_inv h with h | ⟨b, -, rfl⟩
    · exact .quiet _ _ h
    · exact .value _ _
  | toRgb8 v =>
    rcases execToRgb8_inv h with h | ⟨p, -, rfl⟩
    · exact .quiet _ _ h
    · exact .value _ _
  | renderStrip a j =>
    rcases execRenderStrip_inv h with h | ⟨he, h⟩
    · exact .quiet _ _ h
    · obtain ⟨rfl, -⟩ := renderStrip_ok h
      exact .renderStrip j _ he h
  | txStart t =>
    rcases execTxStart_inv h with h | ⟨hp, ht, rfl⟩
    · exact .quiet _ _ h
    · exact .txStart t hp ht
  | txLock =>
    rcases execTxLock_inv h with h | ⟨hp, hh, rfl⟩
    · exact .quiet _ _ h
    · exact .txLock hp hh
  | txRender =>
    rcases execTxRender_inv h with h | ⟨hp, ⟨hk, rfl⟩ | ⟨hk, hh, rfl⟩ | ⟨hk, he, s1, h1, hl, rfl⟩⟩
    · exact .quiet _ _ h
    · exact .txRenderEnd hp hk
    · exact .txRenderSkip hp hk hh
    · exact .txRenderStrip s1 hp hk he h1 hl
  | txUnlock =>
    rcases execTxUnlock_inv h with h | ⟨hp, hh, rfl⟩
    · exact .quiet _ _ h
    · exact .txUnlock hp hh
  | txSubmit =>
    rcases execTxSubmit_inv h with h | ⟨hp, ⟨j, n, buf, hk, hj, hr, hn, hb, hl, rfl⟩ | rfl⟩
    · exact .quiet _ _ h
    · exact .txSubmit j n buf hp hk hj hr hn hb hl
    · exact .txSubmitEnd hp
  | txComplete ok t =>
    rcases execTxComplete_inv h with h | ⟨hp, ht, hd, rfl⟩
    · exact .quiet _ _ h
    · exact .txComplete ok t hp ht hd
  | txWaitcalc t =>
    rcases execTxWaitcalc_inv h with h | ⟨hp, ht, rfl⟩
    · exact .quiet _ _ h
    · exact .txWaitcalc t hp ht
  | txWake t =>
    rcases execTxWake_inv h with h | ⟨hp, ht, hd, rfl⟩
    · exact .quiet _ _ h
    · exact .txWake t hp ht hd
  | acquire a =>
    rcases execAcquire_inv h with h | ⟨hh, rfl⟩
    · exact .quiet _ _ h
    · exact .acquire a hh
  | release a =>
    rcases execRelease_inv h with h | ⟨hh, rfl⟩
    · exact .quiet _ _ h
    · exact .release a hh
  | ingReceive bytes =>
    rcases execIngReceive_inv h with h | ⟨hp, hl, rfl⟩
    · exact .quiet _ _ h
    · exact .ingReceive bytes hp hl
  | ingLock =>
    rcases execIngLock_inv h with h | ⟨hp, hh, rfl⟩
    · exact .quiet _ _ h
    · exact .ingLock hp hh
  | ingParse =>
    rcases execIngParse_inv h with h | ⟨hm, hp, h⟩
    · exact .quiet _ _ h
    · exact .parsed _ _ (.inl rfl) hm hp h
  | ingUnlock =>
    rcases execIngUnlock_inv h with h | ⟨hp, hh, rfl⟩
    · exact .quiet _ _ h
    · exact .ingUnlock hp hh
  | ctlReceive bytes =>
    rcases execCtlReceive_inv h with h | ⟨hp, m, hd, rfl⟩
    · exact .quiet _ _ h
    · exact .ctlReceive bytes m hp hd
  | ctlLock =>
    rcases execCtlLock_inv h with h | ⟨hp, hh, rfl⟩
    · exact .quiet _ _ h
    · exact .ctlLock hp hh
  | ctlUnlock =>
    rcases execCtlUnlock_inv h with h | ⟨hp, hh, rfl⟩
    · exact .quiet _ _ h
    · exact .ctlUnlock hp hh
  | nextEffect a =>
    rcases execNextEffect_inv h with h | ⟨hh, rfl⟩
    · exact .quiet _ _ h
    · exact .select _ a _ (.inl ⟨rfl, rfl⟩) hh
  | prevEffect a =>
    rcases execPrevEffect_inv h with h | ⟨hh, rfl⟩
    · exact .quiet _ _ h
    · exact .select _ a _ (.inr (.inl ⟨rfl, rfl⟩)) hh
  | setEffect a k =>
    rcases execSetEffect_inv h with h | ⟨hh, rfl⟩
    · exact .quiet _ _ h
    · exact .select _ a _ (.inr (.inr ⟨k, rfl, rfl⟩)) hh
  | currentEffect a =>
    rcases execCurrentEffect_inv h with h | ⟨-, rfl⟩
    · exact .quiet _ _ h
    · exact .value _ _

end Sys2Proof.Machine
end

