-- ==== Sys2Proof/Laws/PerInstr.lean ====
section
/-! SUPPORT. Statements about every instruction as syntax, one lemma per constructor: `EncodedLength`, how many bytes the
encoding of a well-formed instruction has. -/

namespace Sys2Proof.Laws.EncodedLength

/-- The length of an encoding by the rules: a record is `2 + need(cmd, n_tgt)` bytes, with no payload for a reserved or
unrecognised code (30 R82, R85, R87), a control message 3 or 2 (30 R88); an internal operation has none (30 R94). -/
def expected (cfg : Config) : Instr → Option Nat
  | .sbm tgt _ => (cfg.ledCount? tgt.toNat).map fun n => 2 + 3 * n
  | .sbs _ _ => some 5
  | .rsv2 _ => some 2
  | .sbma tgt _ => (cfg.ledCount? tgt.toNat).map fun n => 2 + 4 * n
  | .rsv4 _ => some 2
  | .unrec _ _ => some 2
  | .ssm _ _ => some 3
  | .sem _ => some 2
  | .encodeBit _ => none
  | .encodeByte _ => none
  | .construct _ => none
  | .flush _ _ => none
  | .writeColor _ _ _ => none
  | .b2f _ => none
  | .rgbaNew _ _ _ _ => none
  | .rgbaNewPremultiplied _ _ _ _ => none
  | .fromRgb8 _ => none
  | .blendOver _ _ => none
  | .toByte _ => none
  | .toRgb8 _ => none
  | .renderStrip _ _ => none
  | .txStart _ => none
  | .txLock => none
  | .txRender => none
  | .txUnlock => none
  | .txSubmit => none
  | .txComplete _ _ => none
  | .txWaitcalc _ => none
  | .txWake _ => none
  | .acquire _ => none
  | .release _ => none
  | .ingReceive _ => none
  | .ingLock => none
  | .ingParse => none
  | .ingUnlock => none
  | .ctlReceive _ => none
  | .ctlLock => none
  | .ctlUnlock => none
  | .nextEffect _ => none
  | .prevEffect _ => none
  | .setEffect _ _ => none
  | .currentEffect _ => none

/-- The encoding of a well-formed instruction has the length the rules give. -/
def Statement (i : Instr) : Prop :=
  ∀ cfg : Config, WellFormed cfg i = true → (encode i).map List.length = expected cfg i

theorem sbm (tgt : Byte) (px : List Rgb8) : Statement (.sbm tgt px) := fun cfg h => by
  simp only [WellFormed, Bool.and_eq_true, beq_iff_eq] at h
  simp [encode, expected, h.2]; omega
theorem sbs (tgt : Byte) (p : Rgb8) : Statement (.sbs tgt p) := fun _ _ => rfl
theorem rsv2 (tgt : Byte) : Statement (.rsv2 tgt) := fun _ _ => rfl
theorem sbma (tgt : Byte) (px : List Rgba8) : Statement (.sbma tgt px) := fun cfg h => by
  simp only [WellFormed, Bool.and_eq_true, beq_iff_eq] at h
  simp [encode, expected, h.2]; omega
theorem rsv4 (tgt : Byte) : Statement (.rsv4 tgt) := fun _ _ => rfl
theorem unrec (cmd tgt : Byte) : Statement (.unrec cmd tgt) := fun _ _ => rfl
theorem ssm (idx : Byte) (m : StripMode) : Statement (.ssm idx m) := fun _ _ => rfl
theorem sem (delta : Byte) : Statement (.sem delta) := fun _ _ => rfl
theorem encodeBit (b : Bool) : Statement (.encodeBit b) := fun _ _ => rfl
theorem encodeByte (v : Byte) : Statement (.encodeByte v) := fun _ _ => rfl
theorem construct (i : Nat) : Statement (.construct i) := fun _ _ => rfl
theorem flush (a : Agent) (i : Nat) : Statement (.flush a i) := fun _ _ => rfl
theorem writeColor (a : Agent) (i : Nat) (p : Rgb8) : Statement (.writeColor a i p) := fun _ _ => rfl
theorem b2f (c : Byte) : Statement (.b2f c) := fun _ _ => rfl
theorem rgbaNew (r g b a : F32) : Statement (.rgbaNew r g b a) := fun _ _ => rfl
theorem rgbaNewPremultiplied (r g b a : F32) : Statement (.rgbaNewPremultiplied r g b a) := fun _ _ => rfl
theorem fromRgb8 (p : Rgb8) : Statement (.fromRgb8 p) := fun _ _ => rfl
theorem blendOver (fg bg : RgbaF32) : Statement (.blendOver fg bg) := fun _ _ => rfl
theorem toByte (x : F32) : Statement (.toByte x) := fun _ _ => rfl
theorem toRgb8 (v : RgbaF32) : Statement (.toRgb8 v) := fun _ _ => rfl
theorem renderStrip (a : Agent) (i : Nat) : Statement (.renderStrip a i) := fun _ _ => rfl
theorem txStart (t : Nat) : Statement (.txStart t) := fun _ _ => rfl
theorem txLock : Statement .txLock := fun _ _ => rfl
theorem txRender : Statement .txRender := fun _ _ => rfl
theorem txUnlock : Statement .txUnlock := fun _ _ => rfl
theorem txSubmit : Statement .txSubmit := fun _ _ => rfl
theorem txComplete (ok : Bool) (t : Nat) : Statement (.txComplete ok t) := fun _ _ => rfl
theorem txWaitcalc (t : Nat) : Statement (.txWaitcalc t) := fun _ _ => rfl
theorem txWake (t : Nat) : Statement (.txWake t) := fun _ _ => rfl
theorem acquire (a : Agent) : Statement (.acquire a) := fun _ _ => rfl
theorem release (a : Agent) : Statement (.release a) := fun _ _ => rfl
theorem ingReceive (bytes : List Byte) : Statement (.ingReceive bytes) := fun _ _ => rfl
theorem ingLock : Statement .ingLock := fun _ _ => rfl
theorem ingParse : Statement .ingParse := fun _ _ => rfl
theorem ingUnlock : Statement .ingUnlock := fun _ _ => rfl
theorem ctlReceive (bytes : List Byte) : Statement (.ctlReceive bytes) := fun _ _ => rfl
theorem ctlLock : Statement .ctlLock := fun _ _ => rfl
theorem ctlUnlock : Statement .ctlUnlock := fun _ _ => rfl
theorem nextEffect (a : Agent) : Statement (.nextEffect a) := fun _ _ => rfl
theorem prevEffect (a : Agent) : Statement (.prevEffect a) := fun _ _ => rfl
theorem setEffect (a : Agent) (k : Nat) : Statement (.setEffect a k) := fun _ _ => rfl
theorem currentEffect (a : Agent) : Statement (.currentEffect a) := fun _ _ => rfl

end Sys2Proof.Laws.EncodedLength
end

