-- ==== Sys2Proof/Laws/Render.lean ====
section
/-! SUPPORT. What rendering a strip yields (spec 41 R120 to R125), for a strip of the right shape whose stored colours are in
the block's domain. -/

namespace Sys2Proof.Machine

@[simp] theorem effect_length (k : Nat) (info : StripInfo) (tms : Nat) : (effect k info tms).length = info.ledCount := by
  simp [effect]

theorem toRgb8_of_noNaN {v : RgbaF32} (hr : F32.isNaN v.r = false) (hg : F32.isNaN v.g = false)
    (hb : F32.isNaN v.b = false) : ∃ p, toRgb8 v = some p := by
  obtain ⟨r, hr⟩ := toByte_isSome hr
  obtain ⟨g, hg⟩ := toByte_isSome hg
  obtain ⟨b, hb⟩ := toByte_isSome hb
  exact ⟨⟨r, g, b⟩, by simp [toRgb8, hr, hg, hb]⟩

/-- A stored colour blends over any pixel without a fault (40 R107). -/
theorem blendPixel_ok {v : RgbaF32} (hv : unitColour v = true) (p : Rgb8) : ∃ q, blendPixel v p = .ok q ∧
    toRgb8 (blendOver v (fromRgb8 p)) = some q := by
  obtain ⟨h1, h2, h3, h4⟩ := unitColour_iff.1 hv
  have ht := one_sub_unit h4
  obtain ⟨q, hq⟩ : ∃ q, toRgb8 (blendOver v (fromRgb8 p)) = some q :=
    toRgb8_of_noNaN (blend_noNaN h1 (b2f_unit _) ht) (blend_noNaN h2 (b2f_unit _) ht) (blend_noNaN h3 (b2f_unit _) ht)
  exact ⟨q, by simp [blendPixel, hq], hq⟩

/-- Over black, a stored colour converts to its own channels (41 R125). -/
theorem blend_over_black {v : RgbaF32} (hv : unitColour v = true) :
    toRgb8 (blendOver v (fromRgb8 ⟨0, 0, 0⟩)) = toRgb8 v := by
  obtain ⟨h1, h2, h3, h4⟩ := unitColour_iff.1 hv
  have ht := one_sub_unit h4
  have h0 : b2f 0 = 0x00000000 := by decide +kernel
  simp only [blendOver, fromRgb8, toRgb8, h0, zero_fmul ht, fadd_zero h1, fadd_zero h2, fadd_zero h3]

/-- The blend step of a whole strip (41 R122). -/
theorem blendPixels_ok {c : List RgbaF32} {w : List Rgb8} (hl : c.length = w.length)
    (hc : ∀ v ∈ c, unitColour v = true) : ∃ q, blendPixels c w = .ok q ∧ q.length = w.length ∧
      q.map some = List.zipWith (fun v e => toRgb8 (blendOver v (fromRgb8 e))) c w := by
  induction w generalizing c with
  | nil =>
    obtain rfl : c = [] := List.eq_nil_of_length_eq_zero (by simpa using hl)
    exact ⟨[], rfl, rfl, rfl⟩
  | cons p ps ih =>
    match c, hl with
    | v :: vs, hl =>
      obtain ⟨q, hq, hq'⟩ := blendPixel_ok (hc v (by simp)) p
      obtain ⟨qs, hqs, hlen, hmap⟩ := ih (c := vs) (by simpa using hl) fun u hu => hc u (by simp [hu])
      exact ⟨q :: qs, by simp [blendPixels, hq, hqs], by simp [hlen], by simp [hmap, hq']⟩

/-- The pixels of a strip in a mode other than `Off` (41 R125). -/
theorem composeStrip_ok {s : State} {i : Nat} {info : StripInfo} {m : StripMode} {c : List RgbaF32}
    (hh : s.lk.holder = some .tx) (hi : s.cfg.info? i = some info) (hm : m ≠ .off) (hc : s.cb[i]? = some c)
    (hl : c.length = info.ledCount) (hv : ∀ v ∈ c, unitColour v = true) :
    ∃ w : List Rgb8, w.length = info.ledCount ∧ composeStrip .tx i m s = .ok w ∧
      (m = .effects → w = effect s.sel info (s.tx.tIter / 1000)) ∧
      (m = .dynamic → w.map some = c.map toRgb8) ∧
      (m = .hybrid → w.map some = List.zipWith (fun v e => toRgb8 (blendOver v (fromRgb8 e))) c
        (effect s.sel info (s.tx.tIter / 1000))) := by
  have e1 : s.info i = .ok info := info_eq_ok.2 hi
  have e2 : currentEffect .tx s = .ok s.sel := readSel_eq_ok.2 ⟨hh, rfl⟩
  have e3 : s.readCb .tx i = .ok c := readCb_eq_ok.2 ⟨hh, hc⟩
  cases m with
  | off => exact absurd rfl hm
  | effects =>
    exact ⟨_, effect_length s.sel info (s.tx.tIter / 1000),
      by simp [composeStrip, e1, workingBuffer, usesEffect, e2, usesBuffer, iterMillis], fun _ => rfl, by simp, by simp⟩
  | dynamic =>
    obtain ⟨q, h1, h2, h3⟩ := blendPixels_ok (c := c) (w := List.replicate info.ledCount ⟨0, 0, 0⟩) (by simp [hl]) hv
    refine ⟨q, by simpa using h2, ?_, by simp, fun _ => ?_, by simp⟩
    · simp only [composeStrip, e1, workingBuffer, usesEffect, usesBuffer, e3, ok_bind, Bool.false_eq_true, if_false,
        if_true, h1]
    rw [h3, ← hl]
    clear h1 h2 h3 e3 hc hl
    induction c with
    | nil => rfl
    | cons v vs ih =>
      rw [List.length_cons, List.replicate_succ, List.zipWith_cons_cons, List.map_cons,
        blend_over_black (hv v (by simp)), ih fun u hu => hv u (by simp [hu])]
  | hybrid =>
    obtain ⟨q, h1, h2, h3⟩ := blendPixels_ok (c := c) (w := effect s.sel info (s.tx.tIter / 1000)) (by simp [hl]) hv
    exact ⟨q, by simpa using h2,
      by simp [composeStrip, e1, workingBuffer, usesEffect, e2, usesBuffer, iterMillis, e3, h1], by simp, by simp,
      fun _ => h3⟩

/-- Rendering an eligible strip rewrites all of its slots before the sentinel (41 R120, R123). -/
theorem renderStrip_fills {s : State} {i n : Nat} {m : StripMode} {w : List Rgb8} {buf : List Symbol}
    (hh : s.lk.holder = some .tx) (hn : s.cfg.ledCount? i = some n) (hm : s.mode[i]? = some m)
    (hw : composeStrip .tx i m s = .ok w) (hl : w.length = n) (hb : s.tx.tb[i]? = some buf)
    (hbl : buf.length = 24 * n + 1) (hi : i < s.tx.cur.length) :
    renderStrip .tx i s = .ok (s.withEncoders
      (s.tx.tb.set i (w.flatMap (encodeColor s.cfg) ++ buf.drop (24 * n))) (s.tx.cur.set i (24 * n))) := by
  refine renderStrip_eq_ok.2 ⟨m, w, hh, hm, hw, rfl, hi, ?_⟩
  rw [writeColors_fill (m := 0) (n := n) (pre := []) (suf := buf)]
  · simp [State.withEncoders, hl]
  · exact hn
  · simp [State.withEncoders, hi]
  · simpa [State.withEncoders] using hb
  · rfl
  · simpa using hbl
  · omega

end Sys2Proof.Machine
end

