-- ==== Sys2Proof/Laws/Step.lean ====
section
/-! SUPPORT. What a step of the machine can do: it waits, or has the effect of a step that an agent's phase names. -/

namespace Sys2Proof.Machine

/-- The instructions that `step` runs: the agents' own steps, among them the messages `CTL` applies. -/
def phaseStep : Instr → Bool
  | .ssm _ _ | .sem _ | .txStart _ | .txLock | .txRender | .txUnlock | .txSubmit | .txComplete _ _ | .txWaitcalc _
  | .txWake _ | .ingReceive _ | .ingLock | .ingParse | .ingUnlock | .ctlReceive _ | .ctlLock | .ctlUnlock => true
  | .sbm _ _ | .sbs _ _ | .rsv2 _ | .sbma _ _ | .rsv4 _ | .unrec _ _ | .encodeBit _ | .encodeByte _ | .construct _
  | .flush _ _ | .writeColor _ _ _ | .b2f _ | .rgbaNew _ _ _ _ | .rgbaNewPremultiplied _ _ _ _ | .fromRgb8 _
  | .blendOver _ _ | .toByte _ | .toRgb8 _ | .renderStrip _ _ | .acquire _ | .release _ | .nextEffect _
  | .prevEffect _ | .setEffect _ _ | .currentEffect _ => false

theorem txInstr_phaseStep (dt : Nat) (ok : Bool) (s : State) : phaseStep (txInstr dt ok s) = true := by
  unfold txInstr; split <;> rfl

theorem ingInstr_phaseStep (bytes : List Byte) (s : State) : phaseStep (ingInstr bytes s) = true := by
  unfold ingInstr; split <;> rfl

theorem ctlInstr_phaseStep {bytes : List Byte} {s : State} {i : Instr} (h : ctlInstr bytes s = some i) :
    phaseStep i = true := by
  unfold ctlInstr at h
  split at h
  · cases h; rfl
  · cases h; rfl
  · obtain ⟨m, -, rfl⟩ := Option.map_eq_some_iff.1 h
    cases m <;> rfl
  · cases h; rfl

theorem instrOf_phaseStep {c : Choice} {s : State} {i : Instr} (h : instrOf c s = some i) : phaseStep i = true := by
  cases c with
  | tx dt ok => cases h; exact txInstr_phaseStep dt ok s
  | ing bytes => cases h; exact ingInstr_phaseStep bytes s
  | ctl bytes => exact ctlInstr_phaseStep h

/-- Drawing a choice changes only the model's own `sched` and `draws`. -/
theorem drawn_eq (s : State) : ∃ cs d, s.drawn = { s with sched := cs, draws := d } := by
  unfold State.drawn; split <;> exact ⟨_, _, rfl⟩

/-- A step waits, or has one of the effects of an instruction an agent's phase names. -/
theorem step_effect {s t : State} (h : step s = .next t) :
    configValid s.cfg = true ∧ ∃ cs d, t = { s with sched := cs, draws := d } ∨
      ∃ i, phaseStep i = true ∧ Effect { s with sched := cs, draws := d } i t := by
  unfold step at h
  split at h
  · rename_i hv
    obtain ⟨cs, d, hd⟩ := drawn_eq s
    rw [hd] at h
    refine ⟨hv, cs, d, ?_⟩
    split at h
    · rename_i i hi
      exact .inr ⟨i, instrOf_phaseStep hi, exec_effect h⟩
    · exact .inl (by simpa [eq_comm] using h)
  · simp at h

end Sys2Proof.Machine
end

