-- ==== Sys2Proof/Laws/Wire.lean ====
section
/-! SUPPORT. What the waveform of a sequence is (spec 42 R139), symbol by symbol. -/

namespace Sys2Proof.Machine

@[simp] theorem waveform_pulse (hi lo : Nat) (ys : List Symbol) :
    waveform (.pulse hi lo :: ys) = (true, hi) :: (false, lo) :: waveform ys := rfl

@[simp] theorem waveform_endMark (ys : List Symbol) : waveform (.endMark :: ys) = [] := rfl

@[simp] theorem waveTicks_pulse (hi lo : Nat) (ys : List Symbol) :
    waveTicks (.pulse hi lo :: ys) = hi + lo + waveTicks ys := by
  simp [waveTicks, Nat.add_assoc]

@[simp] theorem waveTicks_endMark (ys : List Symbol) : waveTicks (.endMark :: ys) = 0 := rfl

/-- During its high half a pulse holds the line high. -/
theorem lineLevel_high {hi lo d : Nat} (ys : List Symbol) (h : d < hi) : lineLevel (.pulse hi lo :: ys) d = true := by
  simp [lineLevel, levelAt, h]

/-- During its low half a pulse holds the line low. -/
theorem lineLevel_low {hi lo d : Nat} (ys : List Symbol) (h : hi ≤ d) (h' : d < hi + lo) :
    lineLevel (.pulse hi lo :: ys) d = false := by
  simp [lineLevel, levelAt, Nat.not_lt.2 h, show d - hi < lo by omega]

/-- After a pulse the line follows the symbols after it. -/
theorem lineLevel_after (hi lo d : Nat) (ys : List Symbol) :
    lineLevel (.pulse hi lo :: ys) (hi + lo + d) = lineLevel ys d := by
  simp [lineLevel, levelAt, show ¬hi + lo + d < hi by omega, show ¬hi + lo + d - hi < lo by omega,
    show hi + lo + d - hi - lo = d by omega]

/-- From `End` on the line is low. -/
@[simp] theorem lineLevel_endMark (ys : List Symbol) (d : Nat) : lineLevel (.endMark :: ys) d = false := rfl

end Sys2Proof.Machine
end

