-- ==== Sys2Proof/Tests/Slice0.lean ====
section
/-! SUPPORT. Tests of the model. Expected values come from the spec's encodings (30) and its test vectors (95), named in
each docstring; `witness_*` theorems show that the hypotheses of an obligation can be met, clause by clause. -/

namespace Sys2Proof.Tests

open Sys2Proof.Machine

/-! ### Helpers -/

/-- The configuration of 95 section 2.6, with a third strip of no LEDs, on two cores. -/
def cfg : Config :=
  { Config.reference with
    strips := [⟨⟨3, false⟩, .dynamic⟩, ⟨⟨1, false⟩, .hybrid⟩, ⟨⟨0, false⟩, .dynamic⟩], cores := 2 }

/-- `LO` and `HI` of that configuration. -/
def lo : Symbol := .pulse 7 16
def hi : Symbol := .pulse 14 12

/-- Symbols from a string of `0` and `1`, as 95 writes them. -/
def syms (bits : String) : List Symbol := bits.toList.map fun c => if c = '1' then hi else lo

/-- An idle state: every transmit slot `LO`, every colour transparent black. -/
def idle : State where
  cfg := cfg
  mode := [.dynamic, .hybrid, .dynamic]
  cb := [List.replicate 3 transparentBlack, [transparentBlack], []]
  sel := 0
  lk := ⟨none⟩
  tx :=
    { phase := .tStart, k := 0, tIter := 0, rendered := [false, false, false], tFirst := none, deadline := 0
      tb := [List.replicate 72 lo ++ [.endMark], List.replicate 24 lo ++ [.endMark], [.endMark]]
      cur := [0, 0, 0], degraded := [false, false, false] }
  ing := ⟨.iIdle, [], 0⟩
  ctl := ⟨.cIdle, none⟩
  fault := .clear
  hist := []
  clk := 0
  hw := none
  out := .none
  sched := []
  draws := 0

/-- `idle` with the lock held. -/
def held (a : Agent) : State := { idle with lk := ⟨some a⟩ }

/-- `TX` in a phase. -/
def txIn (p : TxPhase) : State := { idle with tx := { idle.tx with phase := p } }

/-- `TX` in a phase that holds the lock. -/
def txHolds (p : TxPhase) : State := { txIn p with lk := ⟨some .tx⟩ }

/-- `ING` parsing a datagram at a cursor. -/
def parsing (dg : List Byte) (c : Nat) : State := { held .ing with ing := ⟨.iParse, dg, c⟩ }

/-- `CTL` applying a message. -/
def applying (m : ControlMsg) : State := { held .ctl with ctl := ⟨.cApply, some m⟩ }

/-- The next state of an outcome. -/
def next? : Outcome → Option State
  | .next s => some s
  | .fault _ => none
  | .refused _ => none

/-- One field of the state after an instruction. -/
def after {α : Type} (i : Instr) (s : State) (f : State → α) : Option α := (next? (exec i s)).map f

/-! ### WellFormed refuses each ill-formed term -/

theorem test_wf_sbm_short : WellFormed cfg (.sbm 0 [⟨1, 2, 3⟩]) = false := by decide
theorem test_wf_sbm_target : WellFormed cfg (.sbm 3 []) = false := by decide
theorem test_wf_sbs_target : WellFormed cfg (.sbs 3 ⟨1, 2, 3⟩) = false := by decide
theorem test_wf_rsv2_target : WellFormed cfg (.rsv2 255) = false := by decide
theorem test_wf_sbma_long : WellFormed cfg (.sbma 1 [⟨1, 2, 3, 4⟩, ⟨1, 2, 3, 4⟩]) = false := by decide
theorem test_wf_sbma_target : WellFormed cfg (.sbma 3 []) = false := by decide
theorem test_wf_rsv4_target : WellFormed cfg (.rsv4 3) = false := by decide
theorem test_wf_unrec_code : WellFormed cfg (.unrec 4 0) = false := by decide
theorem test_wf_unrec_target : WellFormed cfg (.unrec 5 3) = false := by decide
theorem test_wf_construct : WellFormed cfg (.construct 3) = false := by decide
theorem test_wf_flush : WellFormed cfg (.flush .tx 3) = false := by decide
theorem test_wf_write_color : WellFormed cfg (.writeColor .tx 3 ⟨0, 0, 0⟩) = false := by decide
theorem test_wf_render_strip : WellFormed cfg (.renderStrip .tx 3) = false := by decide
theorem test_wf_receive : WellFormed cfg (.ingReceive (List.replicate 65 0)) = false := by decide
theorem test_wf_good : WellFormed cfg (.sbma 1 [⟨1, 2, 3, 4⟩]) = true ∧ WellFormed cfg (.sbm 2 []) = true ∧
    WellFormed cfg (.unrec 5 2) = true ∧ WellFormed cfg (.ingReceive (List.replicate 64 0)) = true := by decide

/-! ### Decoding words written out from 30 R80 to R89 -/

/-- SBM: `00000000 tttttttt (rrrrrrrr gggggggg bbbbbbbb) x n`. -/
theorem test_decode_sbm : decodeRecord cfg [0b00000000, 0b00000001, 0b11001000, 0b00000010, 0b00000011, 0b10101010] =
    .ok (.sbm 1 [⟨0xC8, 2, 3⟩], [0xAA]) := by decide
/-- SBS: `00000001 tttttttt rrrrrrrr gggggggg bbbbbbbb`. -/
theorem test_decode_sbs : decodeRecord cfg [0b00000001, 0b00000000, 0b11111111, 0b10000000, 0b00000001] =
    .ok (.sbs 0 ⟨0xFF, 0x80, 1⟩, []) := by decide
/-- RSV2: `00000010 tttttttt`. -/
theorem test_decode_rsv2 : decodeRecord cfg [0b00000010, 0b00000001, 0b00000101] = .ok (.rsv2 1, [5]) := by decide
/-- SBMA: `00000011 tttttttt (rrrrrrrr gggggggg bbbbbbbb aaaaaaaa) x n`. -/
theorem test_decode_sbma : decodeRecord cfg [0b00000011, 0b00000001, 0b00000001, 0b00000010, 0b00000011, 0b10000000] =
    .ok (.sbma 1 [⟨1, 2, 3, 0x80⟩], []) := by decide
/-- RSV4: `00000100 tttttttt`. -/
theorem test_decode_rsv4 : decodeRecord cfg [0b00000100, 0b00000010] = .ok (.rsv4 2, []) := by decide
/-- UNREC, first and last code: `00000101 tttttttt`, `11111111 tttttttt`. -/
theorem test_decode_unrec : decodeRecord cfg [0b00000101, 0b00000000] = .ok (.unrec 5 0, []) ∧
    decodeRecord cfg [0b11111111, 0b00000001, 0b00000000] = .ok (.unrec 0xFF 1, [0]) := by decide
/-- SSM: `00000000 iiiiiiii mmmmmmmm`. -/
theorem test_decode_ssm : decodeControl [0b00000000, 0b00000111, 0b00000011] = .ok (.ssm 7 .hybrid) := by decide
/-- SEM: `00000001 dddddddd`. -/
theorem test_decode_sem : decodeControl [0b00000001, 0b11111101] = .ok (.sem 0xFD) := by decide
/-- V-I7 (short payload), V-I8 (target), one byte left (45 R203). -/
theorem test_decode_rejects : decodeRecord cfg [0x00, 0x00, 0xFF, 0x00, 0x00, 0x07] = .error (.shortPayload 0) ∧
    decodeRecord cfg [0x01, 0x05, 0xFF, 0xFF, 0xFF] = .error .targetOutOfRange ∧
    decodeRecord cfg [0x01] = .error .tooShort := by decide
/-- V-C4: unknown type and wrong lengths. -/
theorem test_decode_control_rejects : decodeControl [0x02] = .error .unknownType ∧
    decodeControl [0x01] = .error .badLength ∧ decodeControl [0x00, 0x00] = .error .badLength ∧
    decodeControl [0x00, 0x00, 0x01, 0x00] = .error .badLength ∧ decodeControl [] = .error .badLength := by decide
/-- The encodings written in 30 R93. -/
theorem test_encode : encode (.sbs 0 ⟨255, 128, 0⟩) = some [0x01, 0x00, 0xFF, 0x80, 0x00] ∧
    encode (.ssm 0 .hybrid) = some [0x00, 0x00, 0x03] ∧ encode (.sem 0xFF) = some [0x01, 0xFF] := by decide
/-- The rows of spec/opcode_table.json, 8 bits each. -/
theorem test_table_words : decodeTableWord 8 0x00 = some (.sbm 0 [⟨0, 0, 0⟩, ⟨0, 0, 0⟩, ⟨0, 0, 0⟩]) ∧
    decodeTableWord 8 0x01 = some (.sbs 0 ⟨0, 0, 0⟩) ∧ decodeTableWord 8 0x02 = some (.rsv2 0) ∧
    decodeTableWord 8 0x04 = some (.rsv4 0) ∧ decodeTableWord 8 0x80 = some (.unrec 0x80 0) ∧
    decodeTableWord 24 0x030100 = some (.ssm 1 .hybrid) ∧ decodeTableWord 16 0xFD01 = some (.sem 0xFD) := by
  decide

/-! ### Colour datapath (95 section 2.1) -/

/-- V-D3. -/
theorem test_b2f : after (.b2f 127) idle (·.out) = some (.channel 0x3EFEFEFF) ∧
    after (.b2f 128) idle (·.out) = some (.channel 0x3F008081) := by decide
/-- V-D6. -/
theorem test_rgba_new : after (.rgbaNew 0x3F48C8C9 0 0 0x3F008081) idle (·.out) =
    some (.colour ⟨0x3EC9925C, 0, 0, 0x3F008081⟩) := by decide
/-- V-D7: stored verbatim, though `r > a` is allowed. -/
theorem test_rgba_new_premultiplied : after (.rgbaNewPremultiplied 0x3F19999A 0x3E4CCCCD 0x3DCCCCCD 0x3F000000) idle
    (·.out) = some (.colour ⟨0x3F19999A, 0x3E4CCCCD, 0x3DCCCCCD, 0x3F000000⟩) := by decide
/-- V-D8. -/
theorem test_from_rgb8 : after (.fromRgb8 ⟨255, 0, 0⟩) idle (·.out) =
    some (.colour ⟨0x3F800000, 0, 0, 0x3F800000⟩) := by decide
/-- V-D12, half red over blue. -/
theorem test_blend_over : after (.blendOver ⟨0x3F008081, 0, 0, 0x3F008081⟩ ⟨0, 0, 0x3F800000, 0x3F800000⟩) idle
    (·.out) = some (.colour ⟨0x3F008081, 0, 0x3EFEFEFE, 0x3F800000⟩) := by decide
/-- V-D11. -/
theorem test_blend_over_half : after (.blendOver ⟨0x3F000000, 0, 0, 0x3F000000⟩ ⟨0, 0, 0x3F800000, 0x3F800000⟩) idle
    (·.out) = some (.colour ⟨0x3F000000, 0, 0x3F000000, 0x3F800000⟩) := by decide
/-- V-D14 (a half goes up) and V-D16 (0.498). -/
theorem test_to_byte : after (.toByte 0x3F000000) idle (·.out) = some (.byte 128) ∧
    after (.toByte 0x3EFEF9DB) idle (·.out) = some (.byte 127) := by decide
/-- V-D15, clamps; and a NaN is `Unmodelled` (40 R107). -/
theorem test_to_byte_clamps : after (.toByte 0x3FC00000) idle (·.out) = some (.byte 255) ∧
    after (.toByte 0xBE800000) idle (·.out) = some (.byte 0) ∧
    after (.toByte 0x7FC00000) idle (·.fault) = some ⟨false, false, false, false, true⟩ := by decide
/-- V-D18. -/
theorem test_to_rgb8 : after (.toRgb8 ⟨0x3F000000, 0, 0x3F000000, 0x3F800000⟩) idle (·.out) =
    some (.pixel ⟨128, 0, 128⟩) := by decide

/-! ### Bit encoder (95 section 2.3) -/

/-- V-E1. -/
theorem test_encode_bit : after (.encodeBit true) idle (·.out) = some (.symbol (.pulse 14 12)) ∧
    after (.encodeBit false) idle (·.out) = some (.symbol (.pulse 7 16)) := by decide
/-- V-E5. -/
theorem test_encode_byte : after (.encodeByte 0xA5) idle (·.out) = some (.symbols (syms "10100101")) := by
  decide
/-- V-E12: no LEDs, one slot. -/
theorem test_construct : after (.construct 2) { idle with tx := { idle.tx with cur := [0, 0, 9] } }
    (fun s => (s.tx.tb[2]?, s.tx.cur)) = some (some [.endMark], [0, 0, 0]) := by decide
/-- V-E10: no slot changes. -/
theorem test_flush : after (.flush .tx 0) { idle with tx := { idle.tx with cur := [48, 24, 0] } }
    (fun s => (s.tx.tb == idle.tx.tb, s.tx.cur)) = some (true, [0, 24, 0]) := by decide
/-- V-E7. -/
theorem test_write_color : after (.writeColor .tx 1 ⟨0x12, 0x34, 0x56⟩) idle (fun s => (s.tx.tb[1]?, s.tx.cur[1]?)) =
    some (some (syms "001101000001001001010110" ++ [.endMark]), some 24) := by decide
/-- 20 R65, 42 R135: another wire order, B, R, G. -/
theorem test_write_color_order : after (.writeColor .tx 1 ⟨0x12, 0x34, 0x56⟩) { idle with cfg := { cfg with wireOrder := .brg } }
    (fun s => s.tx.tb[1]?) = some (some (syms "010101100001001000110100" ++ [.endMark])) := by decide
/-- 42 R139: `HI` is high for 14 ticks and low for 12, then the line stays low. -/
theorem test_line_level : waveform [hi, .endMark, lo] = [(true, 14), (false, 12)] ∧ lineLevel [hi, .endMark, lo] 13 = true ∧
    lineLevel [hi, .endMark, lo] 14 = false ∧ lineLevel [hi, .endMark, lo] 26 = false := by decide
/-- V-E11. -/
theorem test_write_color_overflow : next? (exec (.writeColor .tx 1 ⟨1, 2, 3⟩)
    { idle with tx := { idle.tx with cur := [0, 24, 0] } }) =
    some { idle with tx := { idle.tx with cur := [0, 24, 0] }, fault := ⟨true, false, false, false, false⟩ } := by
  decide

/-! ### Render (95 section 2.2) -/

/-- V-R3, (100, 50, 25) in wire order G, R, B. -/
theorem test_render_strip : after (.renderStrip .tx 1)
    { held .tx with mode := [.off, .dynamic, .off], cb := [[], [rgbaNew (b2f 200) (b2f 100) (b2f 50) (b2f 128)], []] }
    (fun s => (s.tx.tb[1]?, s.tx.cur)) =
    some (some (syms "001100100110010000011001" ++ [.endMark]), [0, 24, 0]) := by decide
/-- V-R9: an `Off` strip is unchanged. -/
theorem test_render_off : next? (exec (.renderStrip .tx 1) { held .tx with mode := [.off, .off, .off] }) =
    some { held .tx with mode := [.off, .off, .off] } := by decide

/-! ### Transmission controller (95 section 2.4) -/

/-- 43 R151, its example. -/
theorem test_tx_start : after (.txStart 5000000) { idle with tx := { idle.tx with k := 2, rendered := [true, false, true] } }
    (fun s => (s.tx.tIter, s.tx.phase, s.tx.k, s.tx.rendered)) =
    some (5000000, .tLock, 0, [false, false, false]) := by decide
/-- 43 R152; and V-L2, the lock held by `ING`. -/
theorem test_tx_lock : after .txLock (txIn .tLock) (fun s => (s.lk, s.hist, s.tx.phase)) =
    some (⟨some .tx⟩, [.acquire .tx], .tRender) ∧
    next? (exec .txLock { txIn .tLock with lk := ⟨some .ing⟩ }) = some { txIn .tLock with lk := ⟨some .ing⟩ } := by decide
/-- V-R4: a `Dynamic` strip at its reset colours is black, its flag set, `k` moved. -/
theorem test_tx_render : after .txRender (txHolds .tRender) (fun s => (s.tx.rendered, s.tx.k, s.tx.cur, s.tx.phase)) =
    some ([true, false, false], 1, [72, 0, 0], .tRender) := by decide
/-- 43 R153: past the last strip. -/
theorem test_tx_render_end : after .txRender { txHolds .tRender with tx := { (txHolds .tRender).tx with k := 3 } }
    (·.tx.phase) = some .tUnlock := by decide
/-- 43 R154. -/
theorem test_tx_unlock : after .txUnlock (txHolds .tUnlock) (fun s => (s.lk, s.hist, s.tx.phase)) =
    some (⟨none⟩, [.release .tx], .tSubmit) := by decide
/-- V-T9: after strip 0, strip 2 is next; strip 1 is never submitted. -/
theorem test_tx_submit : after .txSubmit
    { txIn .tSubmit with tx := { (txIn .tSubmit).tx with k := 1, rendered := [true, false, true] } }
    (fun s => (s.tx.k, s.hist, s.hw, s.tx.phase)) = some (2, [.submit 2 1], some [.endMark], .tXmit) := by decide
/-- V-T10: a failed first completion sets `tFirst` and degrades the strip. -/
theorem test_tx_complete : after (.txComplete false 10) { txIn .tXmit with hw := some [.endMark] }
    (fun s => (s.tx.tFirst, s.tx.degraded, s.hist, s.tx.k, s.tx.phase)) =
    some (some 10, [true, false, false], [.complete 0 false 10], 1, .tSubmit) := by decide
/-- V-T3 and V-T5. -/
theorem test_tx_waitcalc :
    after (.txWaitcalc 5001199) { txIn .tWaitcalc with tx := { (txIn .tWaitcalc).tx with tFirst := some 5000900 } }
      (·.tx.deadline) = some 5001200 ∧
    after (.txWaitcalc 5001800) { txIn .tWaitcalc with tx := { (txIn .tWaitcalc).tx with tFirst := some 5000900 } }
      (·.tx.deadline) = some 5001800 := by decide
/-- V-T1. -/
theorem test_tx_waitcalc_fallback : after (.txWaitcalc 5000000) (txIn .tWaitcalc) (·.tx.deadline) = some 6000000 := by
  decide
/-- V-T8. -/
theorem test_tx_wake :
    next? (exec (.txWake 5001799) { txIn .tSleep with tx := { (txIn .tSleep).tx with deadline := 5001800 } }) =
    some { txIn .tSleep with tx := { (txIn .tSleep).tx with deadline := 5001800 } } ∧
    after (.txWake 5001800) { txIn .tSleep with tx := { (txIn .tSleep).tx with deadline := 5001800 } }
      (fun s => (s.hist, s.tx.phase)) = some ([.wake 5001800], .tStart) := by decide

/-! ### Lock (95 section 2.5) -/

/-- V-L1, V-L2. -/
theorem test_acquire : after (.acquire .ing) idle (fun s => (s.lk, s.hist)) = some (⟨some .ing⟩, [.acquire .ing]) ∧
    next? (exec (.acquire .tx) (held .ing)) = some (held .ing) := by decide
/-- V-L3, V-L4. -/
theorem test_release : after (.release .tx) (held .tx) (fun s => (s.lk, s.hist)) = some (⟨none⟩, [.release .tx]) ∧
    after (.release .ctl) idle (fun s => (s.lk, s.fault)) = some (⟨none⟩, ⟨false, true, false, false, false⟩) := by
  decide

/-! ### Ingestion port (95 section 2.6) -/

/-- V-I2. -/
theorem test_sbm : after (.sbm 0 [⟨255, 0, 0⟩, ⟨0, 255, 0⟩, ⟨0, 0, 255⟩]) (parsing [] 0)
    (fun s => (s.cb[0]?, s.ing.c, s.hist)) =
    some (some [⟨0x3F800000, 0, 0, 0x3F800000⟩, ⟨0, 0x3F800000, 0, 0x3F800000⟩, ⟨0, 0, 0x3F800000, 0x3F800000⟩], 11,
      [.apply 0 0]) := by decide
/-- V-I1. -/
theorem test_sbs : after (.sbs 0 ⟨0xFF, 0x80, 0⟩) (parsing [] 0) (fun s => (s.cb[0]?, s.ing.c)) =
    some (some (List.replicate 3 ⟨0x3F800000, 0x3F008081, 0, 0x3F800000⟩), 5) := by decide
/-- V-I3. -/
theorem test_sbma : after (.sbma 1 [⟨0xC8, 0, 0, 0x80⟩]) (parsing [] 0) (fun s => (s.cb[1]?, s.ing.c)) =
    some (some [⟨0x3EC9925C, 0, 0, 0x3F008081⟩], 6) := by decide
/-- V-I6: the target is `Off`, at cursor 5. -/
theorem test_sbs_off : next? (exec (.sbs 1 ⟨4, 5, 6⟩) { parsing [] 5 with mode := [.dynamic, .off, .dynamic] }) =
    some { parsing [] 5 with
      mode := [.dynamic, .off, .dynamic], hist := [.abort .protocolRangeError 5], ing := ⟨.iUnlock, [], 5⟩ } := by
  decide
/-- V-I9. -/
theorem test_rsv2 : after (.rsv2 0) (parsing [] 0) (fun s => (s.hist, s.ing.phase)) =
    some ([.abort .transportError 0], .iUnlock) := by decide
/-- V-I9. -/
theorem test_rsv4 : after (.rsv4 0) (parsing [] 0) (fun s => (s.hist, s.ing.phase)) =
    some ([.abort .transportError 0], .iUnlock) := by decide
/-- V-I9 and V-I10. -/
theorem test_unrec : after (.unrec 0xFF 0) (parsing [] 0) (·.hist) = some [.abort .transportError 0] ∧
    after (.unrec 7 5) (parsing [] 0) (·.hist) = some [.abort .protocolRangeError 0] := by decide
/-- 45 R201, its example. -/
theorem test_ing_receive : after (.ingReceive [0x01, 0x00, 0xFF, 0x00, 0x00]) idle (·.ing) =
    some ⟨.iLock, [0x01, 0x00, 0xFF, 0x00, 0x00], 0⟩ := by decide
/-- 45 R202, its example. -/
theorem test_ing_lock : after .ingLock { idle with ing := ⟨.iLock, [], 0⟩ } (fun s => (s.lk, s.ing.phase)) =
    some (⟨some .ing⟩, .iParse) := by decide
/-- V-I7, and V-I11 at its trailing byte. -/
theorem test_ing_parse : after .ingParse (parsing [0x00, 0x00, 0xFF, 0x00, 0x00, 0x07] 0) (·.hist) =
    some [.abort .transportError 0] ∧
    after .ingParse (parsing [0x01, 0x00, 0x01, 0x02, 0x03, 0xFF] 5) (fun s => (s.hist, s.ing.phase)) =
      some ([], .iUnlock) := by decide
/-- V-I14: SBM takes three payload bytes for a strip of one LED. -/
theorem test_ing_parse_sbm : after .ingParse
    (parsing [0x00, 0x01, 0xFF, 0x00, 0x00, 0x00, 0xFF, 0x00, 0x01, 0x00, 0x00, 0x00, 0xFF] 0)
    (fun s => (s.cb[1]?, s.ing.c)) = some (some [⟨0x3F800000, 0, 0, 0x3F800000⟩], 5) := by decide
/-- 45 R215. -/
theorem test_ing_unlock : after .ingUnlock { held .ing with ing := ⟨.iUnlock, [1], 1⟩ } (fun s => (s.lk, s.ing)) =
    some (⟨none⟩, ⟨.iIdle, [], 0⟩) := by decide
/-- V-L7 and V-L8: with one core `ING` waits while `TX` transmits, with two it goes on. -/
theorem test_single_core :
    next? (exec .ingLock { txIn .tXmit with cfg := { cfg with cores := 1 }, ing := ⟨.iLock, [], 0⟩ }) =
      some { txIn .tXmit with cfg := { cfg with cores := 1 }, ing := ⟨.iLock, [], 0⟩ } ∧
    after .ingLock { txIn .tXmit with ing := ⟨.iLock, [], 0⟩ } (·.ing.phase) = some .iParse := by decide

/-! ### Control port and selector (95 section 2.7) -/

/-- V-C1, V-C2. -/
theorem test_ssm : after (.ssm 1 .dynamic) (applying (.setStripMode 1 .dynamic)) (fun s => (s.mode[1]?, s.hist)) =
    some (some .dynamic, [.mode 1 .dynamic]) ∧
    after (.ssm 7 .off) (applying (.setStripMode 7 .off)) (fun s => (s.mode, s.hist, s.ctl.phase)) =
      some ([.dynamic, .hybrid, .dynamic], [], .cUnlock) := by decide
/-- V-C5. -/
theorem test_sem : after (.sem 0x80) (applying (.shiftEffectMode 0x80)) (fun s => (s.sel, s.hist)) =
    some (1, [.select 1]) := by decide
/-- V-C7. -/
theorem test_sem_negative : after (.sem 0xFD)
    { applying (.shiftEffectMode 0xFD) with sel := 1, cfg := { cfg with nEffects := 4 } } (·.sel) = some 2 := by
  decide
/-- V-C1, V-C3. -/
theorem test_ctl_receive : after (.ctlReceive [0x00, 0x01, 0x02]) idle (·.ctl) =
    some ⟨.cLock, some (.setStripMode 1 .dynamic)⟩ ∧ next? (exec (.ctlReceive [0x00, 0x00, 0x04]) idle) = some idle := by
  decide
/-- 46 R232. -/
theorem test_ctl_lock : after .ctlLock { idle with ctl := ⟨.cLock, some (.shiftEffectMode 1)⟩ }
    (fun s => (s.lk, s.ctl.phase)) = some (⟨some .ctl⟩, .cApply) := by decide
/-- 46 R240. -/
theorem test_ctl_unlock : after .ctlUnlock { held .ctl with ctl := ⟨.cUnlock, some (.shiftEffectMode 1)⟩ }
    (fun s => (s.lk, s.ctl)) = some (⟨none⟩, ⟨.cIdle, none⟩) := by decide
/-- V-C8, its second step. -/
theorem test_next_effect : after (.nextEffect .ctl) { held .ctl with sel := 2 } (·.sel) = some 0 := by decide
/-- V-C9. -/
theorem test_prev_effect : after (.prevEffect .ctl) (held .ctl) (·.sel) = some 2 := by decide
/-- V-C10. -/
theorem test_set_effect : after (.setEffect .ctl 7) (held .ctl) (·.sel) = some 1 := by decide
/-- 46 R238. -/
theorem test_current_effect : after (.currentEffect .tx) { held .tx with sel := 2 } (·.out) = some (.index 2) := by
  decide

/-! ### Steps -/

/-- The step runs the placed record, and the placed message, first after reset. -/
theorem test_step_runs_placed : (next? (step (State.reset.withFetchWord 8 0x01))).map (·.hist) = some [.apply 1 0] ∧
    (next? (step (State.reset.withFetchWord 24 0x030100))).map (·.hist) = some [.mode 1 .hybrid] := by decide
/-- 60 R252: `N_EFFECTS = 0`. -/
theorem test_step_invalid : next? (step { idle with cfg := { cfg with nEffects := 0 } }) = none := by decide

/-! ### Witnesses: states and operands that meet the hypotheses of the obligation each is named after -/

/-- Each kind of record; the smallest target, a strip of no LEDs, and both ends of the unrecognised codes. -/
theorem witness_RecordDecodesFromItsEncoding :
    (WellFormed cfg (Record.sbm 1 [⟨1, 2, 3⟩]).toInstr = true ∧
      encode (Record.sbm 1 [⟨1, 2, 3⟩]).toInstr = some [0, 1, 1, 2, 3]) ∧
    (WellFormed cfg (Record.sbm 2 []).toInstr = true ∧ encode (Record.sbm 2 []).toInstr = some [0, 2]) ∧
    (WellFormed cfg (Record.sbs 0 ⟨1, 2, 3⟩).toInstr = true ∧
      encode (Record.sbs 0 ⟨1, 2, 3⟩).toInstr = some [1, 0, 1, 2, 3]) ∧
    (WellFormed cfg (Record.rsv2 0).toInstr = true ∧ encode (Record.rsv2 0).toInstr = some [2, 0]) ∧
    (WellFormed cfg (Record.sbma 1 [⟨1, 2, 3, 4⟩]).toInstr = true ∧
      encode (Record.sbma 1 [⟨1, 2, 3, 4⟩]).toInstr = some [3, 1, 1, 2, 3, 4]) ∧
    (WellFormed cfg (Record.rsv4 0).toInstr = true ∧ encode (Record.rsv4 0).toInstr = some [4, 0]) ∧
    (WellFormed cfg (Record.unrec 5 0).toInstr = true ∧ encode (Record.unrec 5 0).toInstr = some [5, 0]) ∧
    (WellFormed cfg (Record.unrec 255 2).toInstr = true ∧ encode (Record.unrec 255 2).toInstr = some [255, 2]) := by
  decide

theorem witness_DecodedRecordAccountsForItsBytes :
    decodeRecord cfg [1, 0, 1, 2, 3, 9] = .ok (.sbs 0 ⟨1, 2, 3⟩, [9]) ∧
    decodeRecord cfg [0, 2, 9] = .ok (.sbm 2 [], [9]) := by decide

/-- A target of one LED with exactly `need` bytes and with one fewer; a target of none, which needs none. -/
theorem witness_RecordLengthIsTwoPlusNeed :
    (cfg.ledCount? (1 : Byte).toNat = some 1 ∧ payloadNeed 3 1 = some 4 ∧
      4 ≤ ([1, 2, 3, 4] : List Byte).length ∧ ([1, 2, 3] : List Byte).length < 4) ∧
    (cfg.ledCount? (1 : Byte).toNat = some 1 ∧ payloadNeed 0 1 = some 3 ∧ ([1, 2] : List Byte).length < 3) ∧
    (cfg.ledCount? (2 : Byte).toNat = some 0 ∧ payloadNeed 0 0 = some 0 ∧ 0 ≤ ([] : List Byte).length) ∧
    (cfg.ledCount? (2 : Byte).toNat = some 0 ∧ payloadNeed 1 0 = some 3 ∧ ([] : List Byte).length < 3) := by decide

/-- One state per agent and phase; a datagram whose bytes do not decode and one whose bytes do; `CTL` with either message and
with none; an empty schedule. -/
theorem witness_StepRunsDecodedInstruction :
    configValid cfg = true ∧
    (∀ p ∈ [TxPhase.tStart, .tLock, .tRender, .tUnlock, .tSubmit, .tXmit, .tWaitcalc, .tSleep],
      let s := { txIn p with sched := [.tx 3 true] }
      s.cfg = cfg ∧ s.sched = .tx 3 true :: [] ∧ s.tx.phase = p) ∧
    (∀ p ∈ [IngPhase.iIdle, .iLock, .iUnlock],
      let s := { idle with ing := ⟨p, [], 0⟩, sched := [.ing [5]] }
      s.cfg = cfg ∧ s.sched = .ing [5] :: [] ∧ s.ing.phase = p) ∧
    (let s := { parsing [1, 0, 1, 2, 3] 0 with sched := [.ing []] }
     s.cfg = cfg ∧ s.sched = .ing [] :: [] ∧ s.ing.phase = .iParse ∧
        decodeRecord s.cfg (s.ing.dg.drop s.ing.c) = .ok (.sbs 0 ⟨1, 2, 3⟩, [])) ∧
    (let s := { parsing [1, 0, 1] 0 with sched := [.ing []] }
     s.cfg = cfg ∧ s.sched = .ing [] :: [] ∧ s.ing.phase = .iParse ∧
        decodeRecord s.cfg (s.ing.dg.drop s.ing.c) = .error (.shortPayload 0)) ∧
    (∀ p ∈ [CtlPhase.cIdle, .cLock, .cApply, .cUnlock],
      let s := { idle with ctl := ⟨p, none⟩, sched := [.ctl [5]] }
      s.cfg = cfg ∧ s.sched = .ctl [5] :: [] ∧ s.ctl.phase = p ∧ s.ctl.msg = none) ∧
    (∀ m ∈ [ControlMsg.setStripMode 1 .off, .shiftEffectMode 1],
      let s := { applying m with sched := [.ctl []] }
      s.cfg = cfg ∧ s.sched = .ctl [] :: [] ∧ s.ctl.phase = .cApply ∧ s.ctl.msg = some m) ∧
    idle.sched = [] := by decide

/-- Each of the six conditions at the edge of its range, and a configuration that meets none. -/
theorem witness_InvalidConfigurationNeverSteps :
    256 < (List.replicate 257 (⟨⟨0, false⟩, .off⟩ : StripConfig)).length ∧
    (∃ sc ∈ [(⟨⟨4, false⟩, .off⟩ : StripConfig)], Config.reference.maxLeds < sc.info.ledCount) ∧
    ({ cfg with nEffects := 0 } : Config).nEffects = 0 ∧
    (∃ d ∈ [0, 16, 14, 12], d = 0 ∨ cfg.durMax < d) ∧ (∃ d ∈ [7, 17, 14, 12], d = 0 ∨ cfg.durMax < d) ∧
    ((7 : Nat) = 7 ∧ (16 : Nat) = 16) ∧ ¬((0 : Nat) = 1 ∨ (0 : Nat) = 2) ∧ ¬((3 : Nat) = 1 ∨ (3 : Nat) = 2) ∧
    ¬(256 < cfg.strips.length ∨ (∃ sc ∈ cfg.strips, cfg.maxLeds < sc.info.ledCount) ∨ cfg.nEffects = 0 ∨
      (∃ d ∈ [cfg.t0h, cfg.t0l, cfg.t1h, cfg.t1l], d = 0 ∨ cfg.durMax < d) ∨
      (cfg.t0h = cfg.t1h ∧ cfg.t0l = cfg.t1l) ∨ ¬(cfg.cores = 1 ∨ cfg.cores = 2)) := by decide +kernel

theorem witness_DisabledStepsChangeNothing :
    (let s := txIn .tSleep
     s.tx.phase ≠ .tStart ∧ s.tx.phase ≠ .tLock ∧ s.tx.phase ≠ .tRender ∧ s.tx.phase ≠ .tUnlock ∧
        s.tx.phase ≠ .tSubmit ∧ s.tx.phase ≠ .tXmit ∧ s.tx.phase ≠ .tWaitcalc) ∧ idle.tx.phase ≠ .tSleep ∧
    (idle.ing.phase ≠ .iLock ∧ idle.ing.phase ≠ .iParse ∧ idle.ing.phase ≠ .iUnlock) ∧
    (parsing [] 0).ing.phase ≠ .iIdle ∧
    (idle.ctl.phase ≠ .cLock ∧ idle.ctl.phase ≠ .cApply ∧ idle.ctl.phase ≠ .cUnlock) ∧
    (applying (.shiftEffectMode 1)).ctl.phase ≠ .cIdle := by decide

theorem witness_SingleCoreTransmissionRunsAlone :
    let s := { txIn .tXmit with cfg := { cfg with cores := 1 } }
    s.cfg.cores = 1 ∧ s.tx.phase = .tXmit ∧ ingStep (.ingReceive [1]) = true ∧ ctlStep (.sem 1) = true := by decide

/-- 0, 0.5 and 1.0 are channels of the domain. -/
theorem witness_PremultiplyBoundedByAlpha :
    unitChannel 0x00000000 = true ∧ unitChannel 0x3F000000 = true ∧ unitChannel 0x3F800000 = true := by decide

theorem witness_BlendCornersAreExact :
    unitColour ⟨0x3F000000, 0, 0x3F800000, 0x3F800000⟩ = true ∧ unitColour ⟨0, 0, 0, 0⟩ = true ∧
    unitColour ⟨0x3F000000, 0x3F800000, 0, 0x3F000000⟩ = true := by decide

theorem witness_BlendStaysInUnitRange : unitColour ⟨0x3F800000, 0, 0x3F000000, 0x3F800000⟩ = true := by decide

/-- A NaN; 0.5 (a half) and -0.25 with a finite product; -0.0 and minus infinity; 1.0, 1.5 and infinity; a byte's channel; the
largest finite value, whose product is no finite value. -/
theorem witness_ToByteRoundsAndClamps :
    F32.isNaN 0x7FC00000 = true ∧
    (F32.isNaN 0x3F000000 = false ∧ F32.isFinite (fmul 0x3F000000 0x437F0000) = true) ∧
    (F32.isNaN 0xBE800000 = false ∧ F32.isFinite (fmul 0xBE800000 0x437F0000) = true) ∧
    (F32.isNaN 0x7F7FFFFF = false ∧ F32.isFinite (fmul 0x7F7FFFFF 0x437F0000) = false) ∧
    (F32.isNaN 0x80000000 = false ∧ F32.neg 0x80000000 = true) ∧
    (F32.isNaN 0xFF800000 = false ∧ F32.neg 0xFF800000 = true ∧ F32.isFinite (fmul 0xFF800000 0x437F0000) = false) ∧
    (F32.isNaN 0x3F800000 = false ∧ F32.neg 0x3F800000 = false ∧
      (F32.isFinite 0x3F800000 = true → F32.oneUnits ≤ F32.mag 0x3F800000)) ∧
    (F32.isNaN 0x3FC00000 = false ∧ F32.neg 0x3FC00000 = false ∧
      (F32.isFinite 0x3FC00000 = true → F32.oneUnits ≤ F32.mag 0x3FC00000)) ∧
    (F32.isNaN 0x7F800000 = false ∧ F32.neg 0x7F800000 = false ∧
      (F32.isFinite 0x7F800000 = true → F32.oneUnits ≤ F32.mag 0x7F800000)) ∧
    (0x3F008081 : F32) = b2f 128 := by decide

theorem witness_ToRgb8DropsAlpha :
    (toByte 0x3F000000 = some 128 ∧ toByte 0 = some 0 ∧ toByte 0x3F800000 = some 255) ∧
    F32.isNaN 0x7FC00000 = true := by decide

theorem witness_ConstructBuildsEncoder :
    Memory.wf idle = true ∧ idle.cfg.ledCount? 0 = some 3 ∧ idle.cfg.ledCount? 2 = some 0 := by decide

theorem witness_FlushResetsCursorOnly : 0 < idle.tx.cur.length ∧ 2 < idle.tx.cur.length := by decide

/-- Room at the first and at the last cursor, no room at the sentinel, and no room in a strip of no LEDs. -/
theorem witness_WriteColorAppendsTwentyFour :
    (idle.cfg.ledCount? 0 = some 3 ∧ idle.tx.cur[0]? = some 0 ∧ (∃ buf, idle.tx.tb[0]? = some buf ∧
      buf.length = 24 * 3 + 1) ∧ 0 + 24 ≤ 24 * 3) ∧
    (let s := { idle with tx := { idle.tx with cur := [48, 24, 0] } }
     (s.cfg.ledCount? 0 = some 3 ∧ s.tx.cur[0]? = some 48 ∧ 48 + 24 ≤ 24 * 3) ∧
      (s.cfg.ledCount? 1 = some 1 ∧ s.tx.cur[1]? = some 24 ∧ (∃ buf, s.tx.tb[1]? = some buf ∧
        buf.length = 24 * 1 + 1) ∧ 24 * 1 < 24 + 24)) ∧
    (idle.cfg.ledCount? 2 = some 0 ∧ idle.tx.cur[2]? = some 0 ∧ (∃ buf, idle.tx.tb[2]? = some buf ∧
      buf.length = 24 * 0 + 1) ∧ 24 * 0 < 0 + 24) :=
  ⟨⟨rfl, rfl, ⟨_, rfl, rfl⟩, by decide⟩, ⟨⟨rfl, rfl, by decide⟩, rfl, rfl, ⟨_, rfl, rfl⟩, by decide⟩,
    rfl, rfl, ⟨_, rfl, rfl⟩, by decide⟩

theorem witness_TransmitPathIsOwnedByTx : Agent.ing ≠ .tx ∧ Agent.ctl ≠ .tx := by decide

/-- Fewer colours than the strip has LEDs, exactly as many, and none for a strip of no LEDs. -/
theorem witness_FlushThenColoursFillThePrefix :
    (idle.cfg.ledCount? 0 = some 3 ∧ (∃ buf, idle.tx.tb[0]? = some buf ∧ buf.length = 24 * 3 + 1) ∧
      0 < idle.tx.cur.length ∧ ([⟨1, 2, 3⟩] : List Rgb8).length ≤ 3) ∧
    (idle.cfg.ledCount? 1 = some 1 ∧ (∃ buf, idle.tx.tb[1]? = some buf ∧ buf.length = 24 * 1 + 1) ∧
      1 < idle.tx.cur.length ∧ ([⟨1, 2, 3⟩] : List Rgb8).length ≤ 1) ∧
    (idle.cfg.ledCount? 2 = some 0 ∧ (∃ buf, idle.tx.tb[2]? = some buf ∧ buf.length = 24 * 0 + 1) ∧
      2 < idle.tx.cur.length ∧ ([] : List Rgb8).length ≤ 0) :=
  ⟨⟨rfl, ⟨_, rfl, rfl⟩, by decide, by decide⟩, ⟨rfl, ⟨_, rfl, rfl⟩, by decide, by decide⟩,
    rfl, ⟨_, rfl, rfl⟩, by decide, by decide⟩

/-- A property of every configured strip of `idle` follows from the three of them. -/
theorem forall_strip {P : Nat → Nat → Prop} (h0 : P 0 3) (h1 : P 1 1) (h2 : P 2 0) (i n : Nat)
    (h : cfg.ledCount? i = some n) : P i n := by
  rcases i with _ | _ | _ | i
  · cases h; exact h0
  · cases h; exact h1
  · cases h; exact h2
  · simp [Config.ledCount?, cfg] at h

theorem idle_sentinels : SentinelsOk idle :=
  forall_strip (P := fun i n => ∃ buf, idle.tx.tb[i]? = some buf ∧ buf[24 * n]? = some .endMark)
    ⟨_, rfl, rfl⟩ ⟨_, rfl, rfl⟩ ⟨_, rfl, rfl⟩

theorem witness_SentinelsAreKept : Memory.wf idle = true ∧ SentinelsOk idle ∧
    exec (.writeColor .tx 2 ⟨1, 2, 3⟩) idle = .next (faulted idle .encoderOverflow) := ⟨by decide, idle_sentinels, rfl⟩

/-- Two symbols and none; a tick of each half of the second symbol; a tick at the end. -/
theorem witness_WaveformDurationIsBounded : (∀ y ∈ [cfg.hi, cfg.lo], y = cfg.lo ∨ y = cfg.hi) ∧
    (∀ y ∈ ([] : List Symbol), y = cfg.lo ∨ y = cfg.hi) ∧
    ([cfg.hi, cfg.lo][1]? = some (.pulse 7 16) ∧ 6 < 7 ∧ 7 ≤ 7 ∧ 22 < 7 + 16) ∧
    waveTicks ([cfg.hi, cfg.lo] ++ .endMark :: []) ≤ 49 := by decide

/-- The three modes that render, on a strip of three LEDs and on one of one LED. -/
theorem witness_RenderStripEncodesTheComposition :
    let s := { held .tx with mode := [.effects, .dynamic, .off] }
    let s' := { held .tx with mode := [.hybrid, .off, .off] }
    (Memory.wf s = true ∧ s.lk.holder = some .tx ∧ s.cfg.info? 0 = some ⟨3, false⟩ ∧ s.mode[0]? = some .effects ∧
      s.tx.degraded[0]? = some false ∧ (∃ c, s.cb[0]? = some c ∧ ∀ v ∈ c, premultiplied v = true) ∧
      ∃ buf, s.tx.tb[0]? = some buf) ∧
    (s.cfg.info? 1 = some ⟨1, false⟩ ∧ s.mode[1]? = some .dynamic ∧ s.tx.degraded[1]? = some false ∧
      (∃ c, s.cb[1]? = some c ∧ ∀ v ∈ c, premultiplied v = true) ∧ ∃ buf, s.tx.tb[1]? = some buf) ∧
    (Memory.wf s' = true ∧ s'.lk.holder = some .tx ∧ s'.cfg.info? 0 = some ⟨3, false⟩ ∧ s'.mode[0]? = some .hybrid ∧
      s'.tx.degraded[0]? = some false ∧ (∃ c, s'.cb[0]? = some c ∧ ∀ v ∈ c, premultiplied v = true) ∧
      ∃ buf, s'.tx.tb[0]? = some buf) :=
  ⟨⟨by decide, rfl, rfl, rfl, rfl, ⟨_, rfl, by decide⟩, _, rfl⟩, ⟨rfl, rfl, rfl, ⟨_, rfl, by decide⟩, _, rfl⟩,
    by decide, rfl, rfl, rfl, rfl, ⟨_, rfl, by decide⟩, _, rfl⟩

theorem witness_IneligibleStripsAreNotRendered :
    (idle.cfg.ledCount? 0 = some 3 ∧ idle.lk.holder ≠ some .tx ∧ (held .ing).lk.holder ≠ some .tx) ∧
    (let s := { held .tx with mode := [.off, .dynamic, .dynamic]
                              tx := { idle.tx with degraded := [false, true, false] } }
     s.lk.holder = some .tx ∧
        (s.cfg.ledCount? 0 = some 3 ∧ s.mode[0]? = some .off ∧ s.tx.degraded[0]? = some false) ∧
        (s.cfg.ledCount? 1 = some 1 ∧ s.mode[1]? = some .dynamic ∧ s.tx.degraded[1]? = some true) ∧
        (s.cfg.ledCount? 2 = some 0 ∧ s.mode[2]? = some .dynamic ∧ s.tx.degraded[2]? = some false)) := by decide

theorem witness_TxStartBeginsIteration : idle.tx.phase = .tStart ∧ idle.clk ≤ 0 ∧ idle.clk ≤ 5000000 := by decide

theorem witness_TxLockAcquiresOrWaits : (txIn .tLock).tx.phase = .tLock ∧ (txIn .tLock).lk.holder = none ∧
    ({ txIn .tLock with lk := ⟨some .ctl⟩ } : State).lk.holder ≠ none := by decide

/-- At strip 0, at the last strip, and past it; `ColoursOk` by its three buffers. -/
theorem idle_colours : ColoursOk idle := by unfold ColoursOk; decide

theorem witness_TxRenderTakesOneStrip :
    (let s := txHolds .tRender
     s.tx.phase = .tRender ∧ Memory.wf s = true ∧ s.lk.holder = some .tx ∧ ColoursOk s ∧
        s.cfg.ledCount? s.tx.k = some 3 ∧ s.mode[s.tx.k]? = some .dynamic ∧ s.tx.degraded[s.tx.k]? = some false ∧
        1 ≤ 3 ∧ StripMode.dynamic ≠ .off) ∧
    (let s := { txHolds .tRender with tx := { (txHolds .tRender).tx with k := 2 } }
     s.tx.phase = .tRender ∧ Memory.wf s = true ∧ s.lk.holder = some .tx ∧ ColoursOk s ∧
        s.cfg.ledCount? s.tx.k = some 0 ∧ s.mode[s.tx.k]? = some .dynamic ∧ s.tx.degraded[s.tx.k]? = some false) ∧
    (let s := { txHolds .tRender with tx := { (txHolds .tRender).tx with k := 3 } }
     s.tx.phase = .tRender ∧ Memory.wf s = true ∧ s.lk.holder = some .tx ∧ ColoursOk s ∧ s.cfg.nStrips ≤ s.tx.k) :=
  ⟨⟨rfl, by decide, rfl, idle_colours, rfl, rfl, rfl, by decide, by decide⟩,
    ⟨rfl, by decide, rfl, idle_colours, rfl, rfl, rfl⟩, rfl, by decide, rfl, idle_colours, by decide⟩

theorem witness_TxUnlockReleases : (txHolds .tUnlock).tx.phase = .tUnlock ∧
    (txHolds .tUnlock).lk.holder = some .tx := by decide

/-- `k` at a rendered strip, before one, and past the last one. -/
theorem witness_TxSubmitHandsOverTheNextRenderedStrip :
    let st (k : Nat) : State := { txIn .tSubmit with tx := { (txIn .tSubmit).tx with k := k, rendered := [true, false, true] } }
    ((st 0).tx.phase = .tSubmit ∧ (st 0).tx.k ≤ 0 ∧ (st 0).tx.rendered[0]? = some true ∧
      (∀ j, (st 0).tx.k ≤ j → j < 0 → (st 0).tx.rendered[j]? ≠ some true) ∧ (st 0).cfg.ledCount? 0 = some 3 ∧
      ∃ buf, (st 0).tx.tb[0]? = some buf ∧ buf.length = 24 * 3 + 1) ∧
    ((st 1).tx.phase = .tSubmit ∧ (st 1).tx.k ≤ 2 ∧ (st 1).tx.rendered[2]? = some true ∧
      (∀ j, (st 1).tx.k ≤ j → j < 2 → (st 1).tx.rendered[j]? ≠ some true) ∧ (st 1).cfg.ledCount? 2 = some 0 ∧
      ∃ buf, (st 1).tx.tb[2]? = some buf ∧ buf.length = 24 * 0 + 1) ∧
    ((st 3).tx.phase = .tSubmit ∧
      ∀ j, (st 3).tx.k ≤ j → j < (st 3).cfg.nStrips → (st 3).tx.rendered[j]? ≠ some true) := by
  intro st
  refine ⟨⟨rfl, by decide, rfl, fun j _ h => absurd h (Nat.not_lt_zero j), rfl, _, rfl, rfl⟩,
    ⟨rfl, by decide, rfl, fun j (h1 : 1 ≤ j) h2 => ?_, rfl, _, rfl, rfl⟩, rfl, fun j (h1 : 3 ≤ j) (h2 : j < 3) => ?_⟩
  · obtain rfl : j = 1 := by omega
    decide
  · omega

theorem witness_TxCompleteRecordsOutcome :
    let s := { txIn .tXmit with hw := some [.endMark] }
    s.tx.phase = .tXmit ∧ s.hw = some [.endMark] ∧ s.clk ≤ 0 ∧ s.tx.k < s.tx.degraded.length := by decide

/-- Nothing sent; a wait left; the wait used up exactly, and passed. -/
theorem witness_TxWaitcalcSetsDeadline :
    let s := txIn .tWaitcalc
    let s' := { txIn .tWaitcalc with tx := { (txIn .tWaitcalc).tx with tFirst := some 900 } }
    (s.tx.phase = .tWaitcalc ∧ s.clk ≤ 0 ∧ s.tx.tFirst = none) ∧
    (s'.tx.phase = .tWaitcalc ∧ s'.tx.tFirst = some 900 ∧ s'.clk ≤ 1199 ∧ 900 ≤ 1199 ∧ 1199 - 900 ≤ s'.cfg.latchUs ∧
      1200 - 900 ≤ s'.cfg.latchUs ∧ ¬1201 - 900 ≤ s'.cfg.latchUs) := by decide

/-- The deadline exactly, and one microsecond before. -/
theorem witness_TxWakesAtDeadline :
    let s := { txIn .tSleep with tx := { (txIn .tSleep).tx with deadline := 1200 } }
    s.tx.phase = .tSleep ∧ s.clk ≤ 1200 ∧ s.tx.deadline ≤ 1200 ∧ 1199 < s.tx.deadline := by decide

/-- Asleep with the deadline at the latch's end, woken by the time read there. -/
theorem witness_LatchIsKept :
    let s := { txIn .tSleep with tx := { (txIn .tSleep).tx with deadline := 1200, tFirst := some 900 } }
    LatchOk s ∧ ∃ t, exec (.txWake 1200) s = .next t ∧ t.tx.phase = .tStart :=
  ⟨fun _ h => by cases h; exact ⟨fun _ => by decide, fun h => by cases h⟩, _, rfl, rfl⟩

theorem witness_LockIsTakenFreeAndReleasedByItsHolder : idle.lk.holder = none ∧ (held .tx).lk.holder ≠ none ∧
    (held .ctl).lk.holder = some .ctl ∧ (held .ctl).lk.holder ≠ some .ing ∧ idle.lk.holder ≠ some .ing := by decide

theorem witness_LockDisciplineIsKept :
    let s := { txIn .tLock with sched := [.tx 0 true] }
    LockDiscipline s ∧ ∃ t, step s = .next t ∧ t.lk.holder = some .tx :=
  ⟨by unfold LockDiscipline; decide, _, rfl, rfl⟩

/-- The lock free, and held by another agent; the last target and the last index in range. -/
theorem witness_AccessWithoutLockFaults :
    (idle.lk.holder ≠ some .tx ∧ (held .tx).lk.holder ≠ some .ing) ∧
    (let s := { parsing [] 0 with lk := ⟨none⟩ }
     s.lk.holder ≠ some .ing ∧ s.mayStep .ing = true ∧ s.ing.phase = .iParse ∧
        (recordTarget (.rsv2 2)).toNat < s.cfg.nStrips) ∧
    (let s := { applying (.setStripMode 2 .off) with lk := ⟨some .tx⟩ }
     s.lk.holder ≠ some .ctl ∧ s.mayStep .ctl = true ∧ s.ctl.phase = .cApply ∧
        ∀ idx md, ControlMsg.setStripMode 2 .off = .setStripMode idx md → idx.toNat < s.cfg.nStrips) :=
  ⟨by decide, by decide, by decide, by decide, rfl, fun _ _ h => by cases h; decide⟩

theorem witness_SharedStateChangesUnderTheLock :
    idle.lk.holder = none ∧ exec (.acquire .tx) idle = .next { idle with lk := ⟨some .tx⟩, hist := [.acquire .tx] } :=
  ⟨rfl, rfl⟩

theorem witness_IngestionPortSteps :
    (idle.mayStep .ing = true ∧ idle.ing.phase = .iIdle ∧ (List.replicate 64 (0 : Byte)).length ≤ idle.cfg.maxDgram) ∧
    (let s := { idle with ing := ⟨.iLock, [], 0⟩ }
     s.mayStep .ing = true ∧ s.ing.phase = .iLock ∧ s.lk.holder = none) ∧
    (let s := { held .tx with ing := ⟨.iLock, [], 0⟩ }
     s.mayStep .ing = true ∧ s.ing.phase = .iLock ∧ s.lk.holder ≠ none) ∧
    (let s := { held .ing with ing := ⟨.iUnlock, [], 0⟩ }
     s.mayStep .ing = true ∧ s.ing.phase = .iUnlock ∧ s.lk.holder = some .ing) := by decide

/-- One byte left, and a whole record of two bytes. -/
theorem witness_ParseStepRunsTheRecordAtTheCursor :
    (let s := parsing [9, 9, 9] 2
     s.mayStep .ing = true ∧ s.ing.phase = .iParse ∧ s.ing.dg.length < s.ing.c + 2) ∧
    (let s := parsing [9, 2, 0] 1
     s.mayStep .ing = true ∧ s.ing.phase = .iParse ∧
        decodeRecord s.cfg (s.ing.dg.drop s.ing.c) = .ok (.rsv2 0, [])) := by decide

/-- A parsing state under PerRecord. -/
def perRecord : State := { parsing [] 0 with cfg := { cfg with atomicity := .perRecord } }

/-- Both modes, both granularities, and a strip of no LEDs. -/
theorem witness_SetBufferToManyStoresEveryPixel :
    (∀ s ∈ [parsing [] 0, perRecord],
      s.mayStep .ing = true ∧ s.ing.phase = .iParse ∧ s.lk.holder = some .ing ∧ Memory.wf s = true ∧
        (s.cfg.ledCount? (1 : Byte).toNat = some 1 ∧ s.mode[(1 : Byte).toNat]? = some .hybrid ∧
          ([⟨1, 2, 3⟩] : List Rgb8).length = 1) ∧
        (s.cfg.ledCount? (2 : Byte).toNat = some 0 ∧ s.mode[(2 : Byte).toNat]? = some .dynamic ∧
          ([] : List Rgb8).length = 0)) ∧
    (parsing [] 0).cfg.atomicity = .perDatagram ∧ perRecord.cfg.atomicity = .perRecord := by decide

theorem witness_SetBufferToSingleFills :
    (∀ s ∈ [parsing [] 0, perRecord],
      s.mayStep .ing = true ∧ s.ing.phase = .iParse ∧ s.lk.holder = some .ing ∧ Memory.wf s = true ∧
        (s.cfg.ledCount? (0 : Byte).toNat = some 3 ∧ s.mode[(0 : Byte).toNat]? = some .dynamic) ∧
        (s.cfg.ledCount? (2 : Byte).toNat = some 0 ∧ s.mode[(2 : Byte).toNat]? = some .dynamic)) ∧
    (parsing [] 0).cfg.atomicity = .perDatagram ∧ perRecord.cfg.atomicity = .perRecord := by decide

theorem witness_SetBufferToManyAlphaPremultiplies :
    (∀ s ∈ [parsing [] 0, perRecord],
      s.mayStep .ing = true ∧ s.ing.phase = .iParse ∧ s.lk.holder = some .ing ∧ Memory.wf s = true ∧
        (s.cfg.ledCount? (1 : Byte).toNat = some 1 ∧ s.mode[(1 : Byte).toNat]? = some .hybrid ∧
          ([⟨1, 2, 3, 4⟩] : List Rgba8).length = 1) ∧
        (s.cfg.ledCount? (2 : Byte).toNat = some 0 ∧ s.mode[(2 : Byte).toNat]? = some .dynamic ∧
          ([] : List Rgba8).length = 0)) ∧
    (parsing [] 0).cfg.atomicity = .perDatagram ∧ perRecord.cfg.atomicity = .perRecord := by decide

/-- The first target out of range, without the lock; both rejecting modes; at the parse step, an unknown command with a
target out of range, and a short payload on a target in `Effects`. -/
theorem witness_RejectedTargetAborts :
    (let s := { parsing [] 0 with lk := ⟨none⟩ }
     s.mayStep .ing = true ∧ s.ing.phase = .iParse ∧ s.cfg.nStrips ≤ (recordTarget (.unrec 9 3)).toNat) ∧
    (let s := { parsing [] 0 with mode := [.off, .dynamic, .effects] }
     s.mayStep .ing = true ∧ s.ing.phase = .iParse ∧ s.lk.holder = some .ing ∧
        ((recordTarget (.rsv4 0)).toNat < s.cfg.nStrips ∧ s.mode[(recordTarget (.rsv4 0)).toNat]? = some .off) ∧
        ((recordTarget (.sbm 2 [])).toNat < s.cfg.nStrips ∧
          s.mode[(recordTarget (.sbm 2 [])).toNat]? = some .effects)) ∧
    (let s := { parsing [9, 7, 3] 1 with lk := ⟨none⟩ }
     s.mayStep .ing = true ∧ s.ing.phase = .iParse ∧ s.ing.dg.drop s.ing.c = 7 :: 3 :: [] ∧
        s.cfg.nStrips ≤ (3 : Byte).toNat) ∧
    (let s := { parsing [1, 2, 5] 0 with mode := [.off, .dynamic, .effects] }
     s.mayStep .ing = true ∧ s.ing.phase = .iParse ∧ s.ing.dg.drop s.ing.c = 1 :: 2 :: [5] ∧
        s.lk.holder = some .ing ∧ s.mode[(2 : Byte).toNat]? = some .effects) := by decide

/-- The first and last unrecognised codes, payloads one pixel or one byte short, and a code with no payload. -/
theorem witness_TransportErrorsAbort :
    let s := parsing [0, 1, 5, 6] 0
    s.mayStep .ing = true ∧ s.ing.phase = .iParse ∧ s.lk.holder = some .ing ∧
      s.cfg.ledCount? (1 : Byte).toNat = some 1 ∧ s.mode[(1 : Byte).toNat]? = some .hybrid ∧
      5 ≤ (5 : Byte).toNat ∧ 5 ≤ (255 : Byte).toNat ∧ ([] : List Rgb8).length < 1 ∧ ([] : List Rgba8).length < 1 ∧
      payloadNeed 0 1 = some 3 ∧ s.ing.dg.drop s.ing.c = 0 :: 1 :: [5, 6] ∧ ([5, 6] : List Byte).length < 3 ∧
      payloadNeed 4 1 = none ∧ (parsing [4, 1] 0).ing.dg.drop (parsing [4, 1] 0).ing.c = 4 :: 1 :: [] := by decide

theorem witness_ControlPortSteps :
    (idle.mayStep .ctl = true ∧ idle.ctl.phase = .cIdle ∧
      encode (ControlMsg.setStripMode 1 .hybrid).toInstr = some [0, 1, 3] ∧
      encode (ControlMsg.shiftEffectMode 0x80).toInstr = some [1, 0x80] ∧
      ∀ m : ControlMsg, encode m.toInstr ≠ some [0, 1, 4]) ∧
    (let s := { idle with ctl := ⟨.cLock, some (.shiftEffectMode 1)⟩ }
     s.mayStep .ctl = true ∧ s.ctl.phase = .cLock ∧ s.lk.holder = none) ∧
    (let s := { held .tx with ctl := ⟨.cLock, some (.shiftEffectMode 1)⟩ }
     s.mayStep .ctl = true ∧ s.ctl.phase = .cLock ∧ s.lk.holder ≠ none) ∧
    (let s := { held .ctl with ctl := ⟨.cUnlock, some (.shiftEffectMode 1)⟩ }
     s.mayStep .ctl = true ∧ s.ctl.phase = .cUnlock ∧ s.lk.holder = some .ctl) := by
  refine ⟨⟨rfl, rfl, rfl, rfl, fun m h => ?_⟩, by decide, by decide, by decide⟩
  rcases m with ⟨idx, m⟩ | d
  · cases m <;> simp [ControlMsg.toInstr, encode, StripMode.code] at h
  · simp [ControlMsg.toInstr, encode] at h

/-- The last index in range and the first out of range. -/
theorem witness_SetStripModeIsBoundsChecked :
    let s := applying (.setStripMode 2 .off)
    s.mayStep .ctl = true ∧ s.ctl.phase = .cApply ∧ s.lk.holder = some .ctl ∧ s.mode.length = s.cfg.nStrips ∧
      (2 : Byte).toNat < s.cfg.nStrips ∧ s.cfg.nStrips ≤ (3 : Byte).toNat := by decide

theorem witness_ShiftEffectModeWraps :
    let s := applying (.shiftEffectMode 0x80)
    s.mayStep .ctl = true ∧ s.ctl.phase = .cApply ∧ s.lk.holder = some .ctl ∧ 1 ≤ s.cfg.nEffects := by decide

theorem witness_SelectorOperationsOfTheHolder : (held .tx).lk.holder = some .tx ∧
    (held .ctl).lk.holder = some .ctl := by decide

/-- The selector at its last index. -/
theorem witness_NextEffectCycles :
    let s := { held .ctl with sel := 2 }
    s.lk.holder = some .ctl ∧ s.sel < s.cfg.nEffects := by decide

theorem witness_ShiftIsRepeatedMoves :
    let s := { applying (.shiftEffectMode 0x80) with sel := 2 }
    s.mayStep .ctl = true ∧ s.ctl.phase = .cApply ∧ s.lk.holder = some .ctl ∧ s.sel < s.cfg.nEffects := by decide

/-- Every configured strip, the one of no LEDs among them. -/
theorem witness_ResetLeavesTheStatedValues :
    (∃ sc, cfg.strips[0]? = some sc ∧ sc.info.ledCount = 3) ∧ (∃ sc, cfg.strips[2]? = some sc ∧ sc.info.ledCount = 0) :=
  ⟨⟨_, rfl, rfl⟩, _, rfl, rfl⟩

theorem witness_ResetMeetsTheInvariant : configValid cfg = true ∧ configValid Config.reference = true := by decide

theorem idle_invariant : Invariant { idle with sched := [.tx 7 true] } where
  shape := by decide
  colours := idle_colours
  sentinels := idle_sentinels
  cursors :=
    forall_strip (P := fun i n => ∃ c, idle.tx.cur[i]? = some c ∧ c % 24 = 0 ∧ c ≤ 24 * n)
      ⟨_, rfl, rfl, by decide⟩ ⟨_, rfl, rfl, by decide⟩ ⟨_, rfl, rfl, by decide⟩
  lock := by unfold LockDiscipline; decide
  latch := fun _ h => by cases h
  rendered := fun i n buf h => by
    rcases i with _ | _ | _ | i <;> simp [idle] at h
  inFlight := ⟨fun _ => rfl, fun h => by cases h⟩
  indices := by unfold IndicesOk; decide
  message := by unfold MessageOk; decide
  faultFree := rfl

theorem witness_StepKeepsTheInvariant :
    Invariant { idle with sched := [.tx 7 true] } ∧ ∃ t, step { idle with sched := [.tx 7 true] } = .next t :=
  ⟨idle_invariant, _, rfl⟩

theorem witness_StorageShapeIsKept : Memory.wf idle = true ∧
    exec (.flush .tx 0) idle = .next { idle with tx := { idle.tx with cur := [0, 0, 0] } } := ⟨by decide, rfl⟩

theorem witness_NothingIsUndone :
    let s := { idle with fault := ⟨true, true, true, true, true⟩, hist := [.wake 1]
                         tx := { idle.tx with degraded := [true, false, false] } }
    (∃ t, exec (.txStart 9) s = .next t) ∧ s.fault.has .unmodelled = true ∧ s.tx.degraded[0]? = some true :=
  ⟨⟨_, rfl⟩, rfl, rfl⟩

/-- A fault raised; the same fault raised where its bit is set already, which shows once the bits are cleared; and none. -/
theorem witness_FaultingStepsHaveNoOtherEffect :
    (exec (.release .ctl) idle = .next (faulted idle .lockMisuse) ∧ (faulted idle .lockMisuse).fault ≠ idle.fault) ∧
    (let s := { idle with fault := ⟨false, true, false, false, false⟩ }
     exec (.release .ctl) s = .next s ∧ s = faulted s .lockMisuse ∧
        exec (.release .ctl) { s with fault := .clear } = .next (faulted { s with fault := .clear } .lockMisuse)) ∧
    ∃ t, exec (.acquire .ctl) idle = .next t ∧ t.fault = idle.fault :=
  ⟨⟨rfl, by decide⟩, ⟨rfl, rfl, rfl⟩, _, rfl, rfl⟩

/-- An instruction outside each class of writers, and one of each agent's steps. -/
theorem witness_EachElementHasItsWriters :
    (∃ t, exec (.txStart 0) idle = .next t) ∧ (∃ t, exec (.ingReceive [1]) idle = .next t) ∧
    (∃ t, exec (.ctlReceive [1, 1]) idle = .next t) ∧
    writesMode (.txStart 0) = false ∧ writesSel (.txStart 0) = false ∧ writesColours (.txStart 0) = false ∧
    writesTransmitPath (.txStart 0) = false ∧ ingStep (.ingReceive [1]) = true ∧ ctlStep (.ctlReceive [1, 1]) = true :=
  ⟨⟨_, rfl⟩, ⟨_, rfl⟩, ⟨_, rfl⟩, rfl, rfl, rfl, rfl, rfl, rfl⟩

end Sys2Proof.Tests
end

/-! PROOFS of the family 00_scope: the invariant of the block (O56); that every instruction answers a next state and never
reads the fault bits (O8, O59); `to_byte` (O16); the configuration check (O7); and the steps that wait (O9). -/

namespace Sys2Proof.Machine

/-! ### Frames of the operations that write more than one field -/

theorem Parsed.frame {s t : State} {i : Instr} (h : Parsed i s t) :
    ∃ cb hist lk ing, t = { s with cb := cb, hist := hist, lk := lk, ing := ing } := by
  cases h with
  | ended _ _ h => exact ⟨s.cb, s.hist, s.lk, _, h⟩
  | aborted _ h => exact ⟨s.cb, _, s.lk, _, h⟩
  | applied _ _ _ _ _ _ _ _ _ _ _ _ _ hcase =>
    rcases hcase with ⟨-, h⟩ | ⟨-, h⟩
    · exact ⟨_, _, s.lk, _, h⟩
    · exact ⟨_, _, _, _, h⟩

/-- `write_color` is `write_color` for each pixel of a list of one. -/
theorem writeColors_singleton (a : Agent) (i : Nat) (p : Rgb8) (s : State) :
    writeColors a i [p] s = writeColor a i p s := by
  simp only [writeColors]
  cases writeColor a i p s <;> rfl

theorem writeColor_frame {s t : State} {a : Agent} {i : Nat} {p : Rgb8} (h : writeColor a i p s = .ok t) :
    ∃ tb cur, t = s.withEncoders tb cur := by
  obtain ⟨-, c, n, buf, -, -, -, -, -, rfl⟩ := writeColor_eq_ok.1 h
  exact ⟨_, _, rfl⟩

theorem renderStrip_frame {s t : State} {a : Agent} {i : Nat} (h : renderStrip a i s = .ok t) :
    ∃ tb cur, t = s.withEncoders tb cur := by
  obtain ⟨-, -, tb, cur, rfl, -⟩ := renderStrip_ok h
  exact ⟨_, _, rfl⟩

/-! ### What every instruction keeps -/

/-- An applied record replaces one colour buffer by one of its length (45 R207 to R209). -/
theorem Parsed.sameShape {s t : State} {i : Instr} (h : Parsed i s t) : SameShape s t := by
  cases h with
  | ended _ _ h => subst h; exact SameShape.refl s
  | aborted _ h => subst h; exact SameShape.refl s
  | applied _ tgt _ _ vs old _ _ _ _ ho hl _ hcase =>
    have hcb : (s.cb.set tgt.toNat (vs ++ old.drop vs.length)).map List.length = s.cb.map List.length :=
      map_length_set ho (by simp; omega)
    rcases hcase with ⟨-, rfl⟩ | ⟨-, rfl⟩ <;> exact ⟨rfl, rfl, hcb, rfl, rfl, rfl, rfl⟩

theorem renderStrip_sameShape {s t : State} {a : Agent} {i : Nat} (h : renderStrip a i s = .ok t) :
    SameShape s t := by
  obtain ⟨-, -, tb, cur, rfl, htb, hcur, -⟩ := renderStrip_ok h
  exact ⟨rfl, rfl, rfl, htb, hcur, rfl, rfl⟩

/-- No effect changes the configuration or the size of a storage space (10 R22, R28, R38). -/
theorem Effect.sameShape {s t : State} {i : Instr} (hw : Memory.wf s = true) (he : Effect s i t) :
    SameShape s t := by
  cases he with
  | quiet _ _ h => rcases h with rfl | ⟨k, rfl⟩ <;> exact SameShape.refl _
  | construct j n hn hb hc => exact construct_sameShape hw (construct_eq_ok.2 ⟨n, hn, hb, hc, rfl⟩)
  | flush j hc => exact flush_sameShape (flush_eq_ok.2 ⟨rfl, hc, rfl⟩)
  | writeColor j p _ h => exact writeColors_sameShape ((writeColors_singleton ..).trans h)
  | renderStrip j _ _ h => exact renderStrip_sameShape h
  | txStart => exact ⟨rfl, rfl, rfl, rfl, rfl, by simp, rfl⟩
  | txRenderStrip s1 _ _ _ h _ =>
    obtain ⟨hcfg, hmode, hcb, htb, hcur, hren, hdeg⟩ := renderStrip_sameShape h
    exact ⟨hcfg, hmode, hcb, htb, hcur, by simpa using hren, hdeg⟩
  | txComplete ok => exact ⟨rfl, rfl, rfl, rfl, rfl, rfl, by cases ok <;> simp⟩
  | parsed _ _ _ _ _ h => exact h.sameShape
  | ssm idx m => exact ⟨rfl, by simp, rfl, rfl, rfl, rfl, rfl⟩
  | _ => exact SameShape.refl s

/-- The colours a record stores are premultiplied (45 R207 to R209). -/
theorem storedColour_premultiplied {v : RgbaF32}
    (h : ∃ p : Rgba8, v = alphaColour p ∨ v = opaqueColour ⟨p.r, p.g, p.b⟩) : premultiplied v = true := by
  have hone : unitChannel fone = true := by decide +kernel
  obtain ⟨p, rfl | rfl⟩ := h
  · exact rgbaNew_premultiplied (b2f_unit _) (b2f_unit _) (b2f_unit _) (b2f_unit _)
  · exact rgbaNew_premultiplied (b2f_unit _) (b2f_unit _) (b2f_unit _) hone

/-- Premultiplied colours written at the head of a buffer leave every stored colour premultiplied. -/
theorem premultiplied_of_mem_set {s : State} {j : Nat} {vs old : List RgbaF32} (hc : ColoursOk s)
    (ho : s.cb[j]? = some old) (hv : ∀ v ∈ vs, premultiplied v = true) :
    ∀ buf ∈ s.cb.set j (vs ++ old.drop vs.length), ∀ v ∈ buf, premultiplied v = true := by
  intro buf hbuf v hvb
  rcases List.mem_or_eq_of_mem_set hbuf with hbuf | rfl
  · exact hc buf hbuf v hvb
  · rcases List.mem_append.1 hvb with h | h
    · exact hv v h
    · exact hc old (List.mem_of_getElem? ho) v (List.mem_of_mem_drop h)

theorem Parsed.coloursOk {s t : State} {i : Instr} (hc : ColoursOk s) (h : Parsed i s t) : ColoursOk t := by
  cases h with
  | ended _ _ h => subst h; exact hc
  | aborted _ h => subst h; exact hc
  | applied _ tgt _ _ vs old _ _ _ _ ho _ hv hcase =>
    have hset := premultiplied_of_mem_set hc ho fun v hm => storedColour_premultiplied (hv v hm)
    rcases hcase with ⟨-, rfl⟩ | ⟨-, rfl⟩ <;> exact hset

/-- No effect leaves a stored colour that is not premultiplied (10 R27): only an applied record stores any. -/
theorem Effect.coloursOk {s t : State} {i : Instr} (hc : ColoursOk s) (he : Effect s i t) : ColoursOk t := by
  cases he with
  | quiet _ _ h => rcases h with rfl | ⟨k, rfl⟩ <;> exact hc
  | writeColor j p _ h => obtain ⟨tb, cur, rfl⟩ := writeColor_frame h; exact hc
  | renderStrip j _ _ h => obtain ⟨tb, cur, rfl⟩ := renderStrip_frame h; exact hc
  | txRenderStrip s1 _ _ _ h _ => obtain ⟨tb, cur, rfl⟩ := renderStrip_frame h; exact hc
  | parsed _ _ _ _ _ h => exact h.coloursOk hc
  | _ => exact hc

/-- New buffers keep the sentinels when only strip `i`'s differs and that one still ends in `End`. -/
theorem SentinelsOk.withEncoders {s : State} {i : Nat} {tb : List (List Symbol)} {cur : List Nat} (hs : SentinelsOk s)
    (hother : ∀ j, j ≠ i → tb[j]? = s.tx.tb[j]?)
    (hi : ∀ n, s.cfg.ledCount? i = some n → ∃ buf, tb[i]? = some buf ∧ buf[24 * n]? = some .endMark) :
    SentinelsOk (s.withEncoders tb cur) := by
  intro j n hn
  by_cases hj : j = i
  · subst hj; exact hi n hn
  · obtain ⟨buf, hb, hend⟩ := hs j n hn
    exact ⟨buf, (hother j hj).trans hb, hend⟩

theorem construct_sentinelsOk {s t : State} {i : Nat} (hs : SentinelsOk s) (h : construct i s = .ok t) :
    SentinelsOk t := by
  obtain ⟨n, hn, hb, -, rfl⟩ := construct_eq_ok.1 h
  show SentinelsOk (s.withEncoders _ _)
  refine hs.withEncoders (fun j hj => List.getElem?_set_ne hj.symm) fun n' hn' => ?_
  obtain rfl : n = n' := by simpa [hn] using hn'
  exact ⟨_, List.getElem?_set_self hb, freshBuffer_sentinel ..⟩

theorem writeColors_sentinelsOk {s t : State} {a : Agent} {i : Nat} {ps : List Rgb8} (hs : SentinelsOk s)
    (h : writeColors a i ps s = .ok t) : SentinelsOk t := by
  obtain ⟨tb, cur, rfl, -, -, hother, hslot⟩ := writeColors_ok h
  refine hs.withEncoders (fun j hj => (hother j hj).1) fun n hn => ?_
  obtain ⟨buf, hb, hend⟩ := hs i n hn
  obtain ⟨buf', hb', heq⟩ := hslot n buf hn hb
  exact ⟨buf', hb', (heq _ le_rfl).trans hend⟩

theorem renderStrip_sentinelsOk {s t : State} {a : Agent} {i : Nat} (hs : SentinelsOk s)
    (h : renderStrip a i s = .ok t) : SentinelsOk t := by
  obtain ⟨m, w, -, -, -, -, -, h⟩ := renderStrip_eq_ok.1 h
  exact writeColors_sentinelsOk (s := s.withEncoders s.tx.tb (s.tx.cur.set i 0)) hs h

/-- No effect changes a sentinel slot (42 R137). -/
theorem Effect.sentinelsOk {s t : State} {i : Instr} (hs : SentinelsOk s) (he : Effect s i t) : SentinelsOk t := by
  cases he with
  | quiet _ _ h => rcases h with rfl | ⟨k, rfl⟩ <;> exact hs
  | construct j n hn hb hc => exact construct_sentinelsOk hs (construct_eq_ok.2 ⟨n, hn, hb, hc, rfl⟩)
  | writeColor j p _ h => exact writeColors_sentinelsOk hs ((writeColors_singleton ..).trans h)
  | renderStrip j _ _ h => exact renderStrip_sentinelsOk hs h
  | txRenderStrip s1 _ _ _ h _ => exact show SentinelsOk s1 from renderStrip_sentinelsOk hs h
  | parsed _ _ _ _ _ h => obtain ⟨cb, hist, lk, ing, rfl⟩ := h.frame; exact hs
  | _ => exact hs

/-- A cursor moved to a multiple of 24 within its strip keeps the cursors (10 R39). -/
theorem CursorsOk.set {s : State} {i c : Nat} {tb : List (List Symbol)} (hs : CursorsOk s) (hi : i < s.tx.cur.length)
    (hc : c % 24 = 0) (hle : ∀ n, s.cfg.ledCount? i = some n → c ≤ 24 * n) :
    CursorsOk (s.withEncoders tb (s.tx.cur.set i c)) := by
  intro j n hn
  by_cases hj : i = j
  · subst hj; exact ⟨c, List.getElem?_set_self hi, hc, hle n hn⟩
  · obtain ⟨c', hc', h24, hn'⟩ := hs j n hn
    exact ⟨c', (List.getElem?_set_ne hj).trans hc', h24, hn'⟩

theorem writeColor_cursorsOk {s t : State} {a : Agent} {i : Nat} {p : Rgb8} (hs : CursorsOk s)
    (h : writeColor a i p s = .ok t) : CursorsOk t := by
  obtain ⟨-, c, n, buf, hc, hn, hle, -, -, rfl⟩ := writeColor_eq_ok.1 h
  obtain ⟨c', hc', h24, -⟩ := hs i n hn
  obtain rfl : c = c' := by simpa [hc] using hc'
  refine hs.set (List.getElem?_eq_some_iff.1 hc).1 (by omega) fun n' hn' => ?_
  obtain rfl : n = n' := by simpa [hn] using hn'
  exact hle

theorem writeColors_cursorsOk {a : Agent} {i : Nat} {ps : List Rgb8} {s t : State} (hs : CursorsOk s)
    (h : writeColors a i ps s = .ok t) : CursorsOk t := by
  induction ps generalizing s with
  | nil => obtain rfl := ok_eq_ok.1 h; exact hs
  | cons p ps ih =>
    obtain ⟨s1, h1, h2⟩ := bind_eq_ok.1 h
    exact ih (writeColor_cursorsOk hs h1) h2

theorem flush_cursorsOk {s : State} {i : Nat} (hs : CursorsOk s) (hi : i < s.tx.cur.length) (tb : List (List Symbol)) :
    CursorsOk (s.withEncoders tb (s.tx.cur.set i 0)) := hs.set hi rfl fun _ _ => Nat.zero_le _

theorem renderStrip_cursorsOk {s t : State} {a : Agent} {i : Nat} (hs : CursorsOk s) (h : renderStrip a i s = .ok t) :
    CursorsOk t := by
  obtain ⟨m, w, -, -, -, -, hi, h⟩ := renderStrip_eq_ok.1 h
  exact writeColors_cursorsOk (flush_cursorsOk hs hi _) h

/-- No effect moves a cursor off the multiples of 24 or past its strip (10 R39). -/
theorem Effect.cursorsOk {s t : State} {i : Instr} (hs : CursorsOk s) (he : Effect s i t) : CursorsOk t := by
  cases he with
  | quiet _ _ h => rcases h with rfl | ⟨k, rfl⟩ <;> exact hs
  | construct j n _ _ hc => exact flush_cursorsOk hs hc _
  | flush j hc => exact flush_cursorsOk hs hc _
  | writeColor j p _ h => exact writeColor_cursorsOk hs h
  | renderStrip j _ _ h => exact renderStrip_cursorsOk hs h
  | txRenderStrip s1 _ _ _ h _ => exact show CursorsOk s1 from renderStrip_cursorsOk hs h
  | parsed _ _ _ _ _ h => obtain ⟨cb, hist, lk, ing, rfl⟩ := h.frame; exact hs
  | _ => exact hs

/-- The deadline of the latch wait is at or past `tFirst + LATCH_US` (43 R157). -/
theorem latch_le_deadline (cfg : Config) (f t : Nat) : f + cfg.latchUs ≤ t + latchWait cfg (some f) t := by
  simp only [latchWait, sat]; omega

/-- No effect shortens the latch (43 R163): `tx_waitcalc` sets the deadline past it, and `tx_wake` reads a time past the
deadline. -/
theorem Effect.latchOk {s t : State} {i : Instr} (hl : LatchOk s) (he : Effect s i t) : LatchOk t := by
  cases he with
  | quiet _ _ h => rcases h with rfl | ⟨k, rfl⟩ <;> exact hl
  | writeColor j p _ h => obtain ⟨tb, cur, rfl⟩ := writeColor_frame h; exact hl
  | renderStrip j _ _ h => obtain ⟨tb, cur, rfl⟩ := renderStrip_frame h; exact hl
  | txRenderStrip s1 _ _ _ h _ => obtain ⟨tb, cur, rfl⟩ := renderStrip_frame h; exact hl
  | txStart | txLock | txRenderEnd | txUnlock | txSubmit | txSubmitEnd | txComplete => exact fun f _ => ⟨nofun, nofun⟩
  | txWaitcalc t =>
    refine fun f hf => ⟨fun _ => ?_, nofun⟩
    have hf : s.tx.tFirst = some f := hf
    simpa [hf] using latch_le_deadline s.cfg f t
  | txWake t hp _ hd => exact fun f hf => ⟨nofun, fun _ => ((hl f hf).1 hp).trans hd⟩
  | parsed _ _ _ _ _ h => obtain ⟨cb, hist, lk, ing, rfl⟩ := h.frame; exact hl
  | _ => exact hl

/-! ### What the agents' own steps keep -/

theorem LockDiscipline.txHolds {s : State} (h : LockDiscipline s) (hp : s.tx.phase = .tRender ∨ s.tx.phase = .tUnlock) :
    s.lk.holder = some .tx := h.1.2 hp

theorem LockDiscipline.ingHolds {s : State} (h : LockDiscipline s)
    (hp : s.ing.phase = .iParse ∨ s.ing.phase = .iUnlock) : s.lk.holder = some .ing := h.2.1.2 hp

theorem LockDiscipline.ctlHolds {s : State} (h : LockDiscipline s)
    (hp : s.ctl.phase = .cApply ∨ s.ctl.phase = .cUnlock) : s.lk.holder = some .ctl := h.2.2.2 hp

/-- The lock passes with the phases (44 R184): the steps that take and free it are those that enter and leave the
phases that hold it. -/
theorem Effect.lockDiscipline {s t : State} {i : Instr} (hi : phaseStep i = true) (hl : LockDiscipline s)
    (he : Effect s i t) : LockDiscipline t := by
  cases he with
  | quiet _ _ h => rcases h with rfl | ⟨k, rfl⟩ <;> exact hl
  | construct | flush | writeColor | renderStrip | acquire | release => cases hi
  | select _ a k hs _ => rcases hs with ⟨rfl, -⟩ | ⟨rfl, -⟩ | ⟨j, rfl, -⟩ <;> cases hi
  | txRenderStrip s1 _ _ _ h _ => obtain ⟨tb, cur, rfl⟩ := renderStrip_frame h; exact hl
  | txRenderEnd hp _ => have hh := hl.txHolds (.inl hp); simp_all [LockDiscipline]
  | ssmNone _ _ hp => have hh := hl.ctlHolds (.inl hp); simp_all [LockDiscipline]
  | parsed _ _ _ _ hp h =>
    have hh := hl.ingHolds (.inl hp)
    cases h with
    | ended _ _ h => subst h; simp_all [LockDiscipline]
    | aborted _ h => subst h; simp_all [LockDiscipline, aborted]
    | applied _ _ _ _ _ _ _ _ _ _ _ _ _ hcase =>
      rcases hcase with ⟨-, rfl⟩ | ⟨-, rfl⟩
      · exact hl
      · simp_all [LockDiscipline]
  | value | txRenderSkip => exact hl
  | _ => simp_all [LockDiscipline]

/-- `CTL` takes a message when it leaves idle and drops it when it returns (46 R231, R240). -/
theorem Effect.messageOk {s t : State} {i : Instr} (hm : MessageOk s) (he : Effect s i t) : MessageOk t := by
  cases he with
  | quiet _ _ h => rcases h with rfl | ⟨k, rfl⟩ <;> exact hm
  | writeColor j p _ h => obtain ⟨tb, cur, rfl⟩ := writeColor_frame h; exact hm
  | renderStrip j _ _ h => obtain ⟨tb, cur, rfl⟩ := renderStrip_frame h; exact hm
  | txRenderStrip s1 _ _ _ h _ => obtain ⟨tb, cur, rfl⟩ := renderStrip_frame h; exact hm
  | parsed _ _ _ _ _ h => obtain ⟨cb, hist, lk, ing, rfl⟩ := h.frame; exact hm
  | ssm | ssmNone | sem | ctlReceive | ctlLock | ctlUnlock => simp_all [MessageOk]
  | _ => exact hm

/-! ### A rendered strip -/

theorem info_of_ledCount {cfg : Config} {i n : Nat} (h : cfg.ledCount? i = some n) :
    ∃ x, cfg.info? i = some x ∧ x.ledCount = n := by
  obtain ⟨sc, hs, rfl⟩ := ledCount?_eq_some_iff.1 h
  exact ⟨sc.info, by simp [Config.info?, hs], rfl⟩

/-- Rendering an eligible strip of a well-shaped state never faults, and fills every slot before the sentinel with the
encodings of `n_s` pixels (41 R120, R123). -/
theorem renderStrip_of_eligible {s : State} {i : Nat} (hw : Memory.wf s = true) (hc : ColoursOk s)
    (he : eligible .tx i s = .ok true) : ∃ (w : List Rgb8) (buf : List Symbol),
      s.cfg.ledCount? i = some w.length ∧ s.tx.tb[i]? = some buf ∧
      renderStrip .tx i s = .ok (s.withEncoders
        (s.tx.tb.set i (w.flatMap (encodeColor s.cfg) ++ buf.drop (24 * w.length)))
        (s.tx.cur.set i (24 * w.length))) := by
  obtain ⟨hh, n, m, d, hn, hm, -, hel⟩ := eligible_eq_ok.1 he
  obtain ⟨x, hx, rfl⟩ := info_of_ledCount hn
  obtain ⟨c, hcb, hcl⟩ := cb_of_wf hw hn
  obtain ⟨buf, hb, hbl⟩ := tb_of_wf hw hn
  have hoff : m ≠ .off := by rintro rfl; simp at hel
  have hunit : ∀ v ∈ c, unitColour v = true := fun v hv =>
    (premultiplied_iff.1 (hc c (List.mem_of_getElem? hcb) v hv)).1
  obtain ⟨w, hwl, hcomp, -⟩ := composeStrip_ok hh hx hoff hcb hcl hunit
  obtain ⟨-, -, -, hcur, -⟩ := memory_wf_iff.1 hw
  have hi : i < s.tx.cur.length := hcur ▸ lt_nStrips_of_ledCount hn
  rw [← hwl] at hn hbl
  exact ⟨w, buf, hn, hb, renderStrip_fills hh hn hm hcomp rfl hb hbl hi⟩

theorem length_flatMap_encodeColor (cfg : Config) (w : List Rgb8) :
    (w.flatMap (encodeColor cfg)).length = 24 * w.length := by
  simp [List.length_flatMap, Nat.mul_comm]

/-- Setting the flag of a strip whose slots are freshly written keeps every rendered buffer rewritten (10 R48). -/
theorem RenderedOk.renderStrip {s s1 : State} {i : Nat} (hw : Memory.wf s = true) (hc : ColoursOk s) (hr : RenderedOk s)
    (he : eligible .tx i s = .ok true) (h : renderStrip .tx i s = .ok s1) :
    RenderedOk { s1 with tx := { s1.tx with rendered := s1.tx.rendered.set i true, k := i + 1 } } := by
  obtain ⟨w, buf, hn, hb, hren⟩ := renderStrip_of_eligible hw hc he
  obtain rfl := ok_eq_ok.1 (hren.symm.trans h)
  intro j n buf' hj hn' hb' y hy
  by_cases hij : i = j
  · subst hij
    obtain rfl : w.length = n := by simpa [hn] using hn'
    have hi : i < s.tx.tb.length := (List.getElem?_eq_some_iff.1 hb).1
    obtain rfl : w.flatMap (encodeColor s.cfg) ++ buf.drop (24 * w.length) = buf' := by simpa [hi] using hb'
    rw [← length_flatMap_encodeColor s.cfg w, List.take_left] at hy
    obtain ⟨p, -, hyp⟩ := List.mem_flatMap.1 hy
    exact encodeColor_symbols hyp
  · exact hr j n buf' (by simpa [hij] using hj) hn' (by simpa [hij] using hb') y hy

/-- Only `tx_render` sets a flag, for the strip it has just rewritten; `tx_start` clears them (10 R48). -/
theorem Effect.renderedOk {s t : State} {i : Instr} (hi : phaseStep i = true) (hw : Memory.wf s = true)
    (hc : ColoursOk s) (hr : RenderedOk s) (he : Effect s i t) : RenderedOk t := by
  cases he with
  | quiet _ _ h => rcases h with rfl | ⟨k, rfl⟩ <;> exact hr
  | construct | flush | writeColor | renderStrip | acquire | release => cases hi
  | txStart t =>
    intro j n buf hj
    simp [List.getElem?_replicate] at hj
  | txRenderStrip s1 _ _ he h _ => exact hr.renderStrip hw hc he h
  | parsed _ _ _ _ _ h => obtain ⟨cb, hist, lk, ing, rfl⟩ := h.frame; exact hr
  | _ => exact hr

/-- A submission is taken over by `HW` when `TX` enters `T_XMIT` and reported when it leaves (43 R155, R156). -/
theorem Effect.inFlightOk {s t : State} {i : Instr} (hi : phaseStep i = true) (hw : Memory.wf s = true)
    (hf : InFlightOk s) (he : Effect s i t) : InFlightOk t := by
  obtain ⟨hidle, hxmit⟩ := hf
  cases he with
  | quiet _ _ h => rcases h with rfl | ⟨k, rfl⟩ <;> exact ⟨hidle, hxmit⟩
  | construct | flush | writeColor | renderStrip | acquire | release => cases hi
  | txSubmit j n buf _ _ _ hr hn hb _ =>
    obtain ⟨buf', hb', hlen⟩ := tb_of_wf hw hn
    obtain rfl : buf = buf' := by simpa [hb] using hb'
    exact ⟨fun h => absurd rfl h, fun _ => ⟨hr, _, rfl, by rw [← hlen, List.take_length]; exact hb⟩⟩
  | txComplete => exact ⟨fun _ => rfl, nofun⟩
  | txStart _ hp | txLock hp | txRenderEnd hp | txUnlock hp | txSubmitEnd hp | txWaitcalc _ hp | txWake _ hp =>
    exact ⟨fun _ => hidle (by simp [hp]), nofun⟩
  | txRenderSkip hp => exact ⟨hidle, fun h => by simp [hp] at h⟩
  | txRenderStrip s1 hp _ _ h _ =>
    obtain ⟨tb, cur, rfl⟩ := renderStrip_frame h
    exact ⟨hidle, fun h => by simp [hp] at h⟩
  | parsed _ _ _ _ _ h => obtain ⟨cb, hist, lk, ing, rfl⟩ := h.frame; exact ⟨hidle, hxmit⟩
  | _ => exact ⟨hidle, hxmit⟩

/-! ### Index ranges -/

theorem shiftedSel_lt {n : Nat} (hn : 0 < n) (sel : Nat) (d : Int) : shiftedSel sel d n < n := by
  have hpos : (0 : Int) < n := by omega
  have h0 := Int.emod_nonneg ((sel : Int) + d) hpos.ne'
  have h1 := Int.emod_lt_of_pos ((sel : Int) + d) hpos
  simp only [shiftedSel]; omega

/-- While a submission is in flight, `k` names a strip (10 R33). -/
theorem k_lt_nStrips_of_xmit {s : State} (hw : Memory.wf s = true) (hf : InFlightOk s) (hp : s.tx.phase = .tXmit) :
    s.tx.k < s.cfg.nStrips := by
  obtain ⟨-, -, -, -, hren, -⟩ := memory_wf_iff.1 hw
  exact hren ▸ (List.getElem?_eq_some_iff.1 (hf.2 hp).1).1

theorem Record.not_phaseStep (r : Record) : phaseStep r.toInstr = false := by cases r <;> rfl

/-- The parse step moves the cursor past a record that fits in the datagram (45 R203, R213). -/
theorem Parsed.ingRange {s t : State} {i : Instr} (hi : i = .ingParse) (h : Parsed i s t)
    (hc : s.ing.c ≤ s.ing.dg.length) : t.ing.dg = s.ing.dg ∧ t.ing.c ≤ s.ing.dg.length := by
  cases h with
  | ended _ _ h => subst h; exact ⟨rfl, hc⟩
  | aborted _ h => subst h; exact ⟨rfl, hc⟩
  | applied _ _ _ _ _ _ _ hneed _ _ _ _ _ hcase =>
    rcases hcase with ⟨-, rfl⟩ | ⟨-, rfl⟩ <;> exact ⟨rfl, hneed.2 hi⟩

/-- The index registers stay in their ranges (10 R29, R33, R41). -/
theorem Effect.indicesOk {s t : State} {i : Instr} (hi : phaseStep i = true) (hw : Memory.wf s = true)
    (hf : InFlightOk s) (hx : IndicesOk s) (he : Effect s i t) : IndicesOk t := by
  have hwhole := hx
  obtain ⟨hsel, hk, hc, hdg⟩ := hx
  cases he with
  | quiet _ _ h => rcases h with rfl | ⟨k, rfl⟩ <;> exact hwhole
  | construct | flush | writeColor | renderStrip | acquire | release => cases hi
  | select _ a k hs _ => rcases hs with ⟨rfl, -⟩ | ⟨rfl, -⟩ | ⟨j, rfl, -⟩ <;> cases hi
  | txStart | txLock | txUnlock => exact ⟨hsel, Nat.zero_le _, hc, hdg⟩
  | txRenderSkip _ hk => exact ⟨hsel, hk, hc, hdg⟩
  | txRenderStrip s1 _ hk _ h _ =>
    obtain ⟨tb, cur, rfl⟩ := renderStrip_frame h
    exact ⟨hsel, hk, hc, hdg⟩
  | txSubmit j _ _ _ _ hj => exact ⟨hsel, hj.le, hc, hdg⟩
  | txComplete _ _ hp => exact ⟨hsel, k_lt_nStrips_of_xmit hw hf hp, hc, hdg⟩
  | parsed _ _ hpi _ _ h =>
    have hparse : i = .ingParse := hpi.resolve_right fun ⟨r, hr⟩ => by simp [hr, Record.not_phaseStep] at hi
    obtain ⟨hdg', hc'⟩ := h.ingRange hparse hc
    obtain ⟨cb, hist, lk, ing, rfl⟩ := h.frame
    exact ⟨hsel, hk, hdg' ▸ hc', hdg' ▸ hdg⟩
  | ingReceive bytes _ hl => exact ⟨hsel, hk, Nat.zero_le _, hl⟩
  | ingUnlock => exact ⟨hsel, hk, le_rfl, Nat.zero_le _⟩
  | sem d => exact ⟨shiftedSel_lt (Nat.zero_lt_of_lt hsel) _ _, hk, hc, hdg⟩
  | _ => exact hwhole

/-! ### No step of an agent raises a fault from a state that meets the invariant -/

/-- The operation answers a state with the fault bits of `s`. -/
def Completes (s : State) (e : Except FaultKind State) : Prop := ∃ u, e = .ok u ∧ u.fault = s.fault

theorem whenEnabled_fault {p : Bool} {s t : State} {e : Except FaultKind State} (h : whenEnabled p s e = .next t)
    (he : p = true → Completes s e) : t.fault = s.fault := by
  rcases whenEnabled_eq_next.1 h with ⟨-, rfl⟩ | ⟨hp, h⟩
  · rfl
  · obtain ⟨u, rfl, hu⟩ := he hp
    rcases h with h | ⟨k, h, -⟩
    · obtain rfl := ok_eq_ok.1 h; exact hu
    · simp at h

theorem release_completes {s : State} {a : Agent} {f : State → Except FaultKind State} (hh : s.lk.holder = some a)
    (hf : ∀ s1 : State, s1.fault = s.fault → Completes s (f s1)) : Completes s ((s.release a).bind f) := by
  rw [release_eq_ok.2 ⟨hh, rfl⟩]
  exact hf _ rfl

/-- `ING`, holding the lock, checks any target without a fault (45 R204). -/
theorem onTarget_completes {s : State} {tgt : Byte} {body : Nat → Except FaultKind State} (hw : Memory.wf s = true)
    (hh : s.lk.holder = some .ing) (hb : ∀ n, s.cfg.ledCount? tgt.toNat = some n → Completes s (body n)) :
    Completes s (onTarget s tgt body) := by
  cases hn : s.cfg.ledCount? tgt.toNat with
  | none => exact ⟨_, onTarget_eq_ok.2 (.inl ⟨hn, rfl⟩), rfl⟩
  | some n =>
    obtain ⟨m, hm⟩ := mode_of_wf hw (lt_nStrips_of_ledCount hn)
    obtain ⟨u, hu, hfault⟩ := hb n hn
    by_cases ha : acceptsData m = true
    · exact ⟨u, onTarget_eq_ok.2 (.inr ⟨n, m, hn, hh, hm, by simpa [ha] using hu⟩), hfault⟩
    · exact ⟨s.abort .protocolRangeError, onTarget_eq_ok.2 (.inr ⟨n, m, hn, hh, hm, by simp [ha]⟩), rfl⟩

/-- A record of at most `n_tgt` colours is applied or aborts, without a fault (45 R206 to R209). -/
theorem applyRecord_completes {s : State} {cmd tgt : Byte} {need avail n : Nat} {vs : List RgbaF32}
    (hw : Memory.wf s = true) (hh : s.lk.holder = some .ing) (hn : s.cfg.ledCount? tgt.toNat = some n)
    (hl : vs.length ≤ n) : Completes s (s.applyRecord cmd tgt need avail vs) := by
  by_cases hlt : avail < need
  · exact ⟨_, applyRecord_eq_ok.2 (.inl ⟨hlt, rfl⟩), rfl⟩
  · obtain ⟨old, ho, rfl⟩ := cb_of_wf hw hn
    have hwrite := writeCb_eq_ok.2 ⟨hh, old, ho, hl, rfl⟩
    cases ha : s.cfg.atomicity with
    | perDatagram =>
      exact ⟨_, applyRecord_eq_ok.2 (.inr ⟨not_lt.1 hlt, _, hwrite, endRecord_eq_ok.2 (.inl ⟨ha, rfl⟩)⟩), rfl⟩
    | perRecord =>
      exact ⟨_, applyRecord_eq_ok.2 (.inr ⟨not_lt.1 hlt, _, hwrite, endRecord_eq_ok.2 (.inr ⟨ha, hh, rfl⟩)⟩), rfl⟩

theorem unknownCommand_completes {s : State} (hw : Memory.wf s = true) (hh : s.lk.holder = some .ing) (tgt : Byte) :
    Completes s (unknownCommand tgt s) := onTarget_completes hw hh fun _ _ => ⟨_, rfl, rfl⟩

/-- No record raises a fault: `ING` holds the lock in `I_PARSE` (44 R184), and every error it meets aborts (45 R214). -/
theorem execRecord_fault {s t : State} {r : Record} (hw : Memory.wf s = true) (hl : LockDiscipline s)
    (h : execRecord r s = .next t) : t.fault = s.fault := by
  have holds (hp : s.parsing = true) : s.lk.holder = some .ing := hl.ingHolds (.inl (parsing_eq_true.1 hp).2)
  cases r with
  | sbm | sbs | sbma =>
    exact whenEnabled_fault h fun hp => onTarget_completes hw (holds hp) fun n hn =>
      applyRecord_completes hw (holds hp) hn (by simp)
  | rsv2 tgt | rsv4 tgt | unrec _ tgt =>
    exact whenEnabled_fault h fun hp => unknownCommand_completes hw (holds hp) tgt

theorem decodePayload_error {cmd tgt : Byte} {n : Nat} {bs : List Byte} {e : DecodeError}
    (h : decodePayload cmd tgt n bs = .error e) : e = .shortPayload tgt := by
  unfold decodePayload at h
  split at h <;> (try split at h) <;> cases h <;> rfl

/-- The record decoder never answers an error of the control decoder. -/
theorem decodeRecordHead_error {cfg : Config} {bs : List Byte} {e : DecodeError}
    (h : decodeRecordHead cfg bs = .error e) :
    e = .tooShort ∨ e = .targetOutOfRange ∨ ∃ tgt, e = .shortPayload tgt := by
  unfold decodeRecordHead at h
  split at h
  · split at h
    · exact .inr (.inr ⟨_, decodePayload_error h⟩)
    · exact .inr (.inl (by cases h; rfl))
  · exact .inl (by cases h; rfl)

theorem execIngParse_fault {s t : State} (hw : Memory.wf s = true) (hl : LockDiscipline s)
    (h : execIngParse s = .next t) : t.fault = s.fault := by
  unfold execIngParse at h
  split at h
  · exact execRecord_fault hw hl h
  · rename_i e he
    refine whenEnabled_fault h fun hp => ?_
    have hh : s.lk.holder = some .ing := hl.ingHolds (.inl (parsing_eq_true.1 hp).2)
    rcases decodeRecordHead_error he with rfl | rfl | ⟨tgt, rfl⟩
    · exact ⟨_, rfl, rfl⟩
    · exact ⟨_, rfl, rfl⟩
    · exact unknownCommand_completes hw hh tgt

theorem eligible_answers {s : State} {a : Agent} {i : Nat} (hw : Memory.wf s = true) (hh : s.lk.holder = some a)
    (hi : i < s.cfg.nStrips) : ∃ e, eligible a i s = .ok e := by
  obtain ⟨n, hn⟩ := ledCount_of_lt hi
  obtain ⟨m, hm⟩ := mode_of_wf hw hi
  obtain ⟨d, hd⟩ := degraded_of_wf hw hi
  exact ⟨_, eligible_eq_ok.2 ⟨hh, n, m, d, hn, hm, hd, rfl⟩⟩

theorem txRender_completes {s : State} (hw : Memory.wf s = true) (hc : ColoursOk s) (hh : s.lk.holder = some .tx) :
    Completes s (txRender s) := by
  unfold txRender
  split
  · rename_i hk
    obtain ⟨e, he⟩ := eligible_answers hw hh hk
    cases e with
    | false => rw [he]; exact ⟨_, rfl, rfl⟩
    | true =>
      obtain ⟨w, buf, -, -, hren⟩ := renderStrip_of_eligible hw hc he
      obtain ⟨-, -, -, -, hlen, -⟩ := memory_wf_iff.1 hw
      have hflag := setFlag_eq_ok.2 ⟨hlen ▸ hk, rfl⟩
      rw [he, ok_bind, if_pos rfl, hren, ok_bind, State.withEncoders_tx, hflag]
      exact ⟨_, rfl, rfl⟩
  · exact ⟨_, rfl, rfl⟩

theorem txSubmit_completes {s : State} (hw : Memory.wf s = true) : Completes s (txSubmit s) := by
  unfold txSubmit
  split
  · rename_i i hl
    obtain ⟨-, hi, -⟩ := leastSet_eq_some hl
    obtain ⟨n, hn⟩ := ledCount_of_lt hi
    obtain ⟨buf, hb, hlen⟩ := tb_of_wf hw hn
    rw [leds_eq_ok.2 hn, ok_bind, readTb_eq_ok.2 ⟨rfl, buf, hb, hlen.ge, rfl⟩]
    exact ⟨_, rfl, rfl⟩
  · exact ⟨_, rfl, rfl⟩

theorem txComplete_completes {s : State} {ok : Bool} {t : Nat} (hk : s.tx.k < s.tx.degraded.length) :
    Completes s (txComplete ok t s) := by
  unfold txComplete
  cases ok
  · rw [if_neg (by decide), setFlag_eq_ok.2 ⟨hk, rfl⟩]
    exact ⟨_, rfl, rfl⟩
  · exact ⟨_, rfl, rfl⟩

theorem applySetStripMode_completes {s : State} (hw : Memory.wf s = true) (hh : s.lk.holder = some .ctl) (idx : Byte)
    (m : StripMode) : Completes s (applySetStripMode idx m s) := by
  obtain ⟨hlen, -⟩ := memory_wf_iff.1 hw
  unfold applySetStripMode
  split
  · rename_i hi
    rw [writeMode_eq_ok.2 ⟨hh, hlen ▸ hi, rfl⟩]
    exact ⟨_, rfl, rfl⟩
  · exact ⟨_, rfl, rfl⟩

theorem applyShiftEffectMode_completes {s : State} (hh : s.lk.holder = some .ctl) (d : Byte) :
    Completes s (applyShiftEffectMode d s) := by
  rw [applyShiftEffectMode, shiftSel_eq_ok.2 ⟨hh, rfl⟩]
  exact ⟨_, rfl, rfl⟩

/-- No step of an agent raises a fault from a state that meets the invariant (60 R256): what it touches is in range, and
where it needs the lock its phase holds it. -/
theorem exec_phaseStep_fault {s t : State} {i : Instr} (hs : Invariant s) (hi : phaseStep i = true)
    (h : exec i s = .next t) : t.fault = s.fault := by
  have hw := hs.shape
  have hl := hs.lock
  cases i with
  | ssm idx m =>
    exact whenEnabled_fault h fun hp =>
      applySetStripMode_completes hw (hl.ctlHolds (.inl (applying_eq_true.1 hp).2)) idx m
  | sem d =>
    exact whenEnabled_fault h fun hp =>
      applyShiftEffectMode_completes (hl.ctlHolds (.inl (applying_eq_true.1 hp).2)) d
  | txStart | txLock | txWaitcalc | txWake | ingReceive | ingLock | ctlLock =>
    exact whenEnabled_fault h fun _ => ⟨_, rfl, rfl⟩
  | ctlReceive bytes =>
    exact whenEnabled_fault h fun _ => ⟨_, rfl, by unfold ctlReceive; split <;> rfl⟩
  | txRender =>
    exact whenEnabled_fault h fun hp => txRender_completes hw hs.colours (hl.txHolds (.inl (txAt_eq_true.1 hp)))
  | txSubmit => exact whenEnabled_fault h fun _ => txSubmit_completes hw
  | txComplete ok t =>
    refine whenEnabled_fault h fun hp => txComplete_completes ?_
    simp only [Bool.and_eq_true, txAt_eq_true] at hp
    obtain ⟨⟨hxmit, -⟩, -⟩ := hp
    obtain ⟨-, -, -, -, -, hdeg⟩ := memory_wf_iff.1 hw
    exact hdeg ▸ k_lt_nStrips_of_xmit hw hs.inFlight hxmit
  | txUnlock =>
    exact whenEnabled_fault h fun hp =>
      release_completes (hl.txHolds (.inr (txAt_eq_true.1 hp))) fun _ h1 => ⟨_, rfl, h1⟩
  | ingParse => exact execIngParse_fault hw hl h
  | ingUnlock =>
    refine whenEnabled_fault h fun hp => release_completes (hl.ingHolds (.inr ?_)) fun _ h1 => ⟨_, rfl, h1⟩
    simp only [Bool.and_eq_true, beq_iff_eq] at hp
    exact hp.2
  | ctlUnlock =>
    refine whenEnabled_fault h fun hp => release_completes (hl.ctlHolds (.inr ?_)) fun _ h1 => ⟨_, rfl, h1⟩
    simp only [Bool.and_eq_true, beq_iff_eq] at hp
    exact hp.2
  | _ => cases hi

/-! ### The invariant -/

theorem exec_phaseStep_invariant {s t : State} {i : Instr} (hs : Invariant s) (hi : phaseStep i = true)
    (h : exec i s = .next t) : Invariant t where
  shape := ((exec_effect h).sameShape hs.shape).wf.trans hs.shape
  colours := (exec_effect h).coloursOk hs.colours
  sentinels := (exec_effect h).sentinelsOk hs.sentinels
  cursors := (exec_effect h).cursorsOk hs.cursors
  lock := (exec_effect h).lockDiscipline hi hs.lock
  latch := (exec_effect h).latchOk hs.latch
  rendered := (exec_effect h).renderedOk hi hs.shape hs.colours hs.rendered
  inFlight := (exec_effect h).inFlightOk hi hs.shape hs.inFlight
  indices := (exec_effect h).indicesOk hi hs.shape hs.inFlight hs.indices
  message := (exec_effect h).messageOk hs.message
  faultFree := (exec_phaseStep_fault hs hi h).trans hs.faultFree

/-- The invariant says nothing of the choices drawn. -/
theorem Invariant.drawn {s : State} (hs : Invariant s) : Invariant s.drawn := by
  obtain ⟨cs, d, hd⟩ := drawn_eq s
  rw [hd]
  exact ⟨hs.shape, hs.colours, hs.sentinels, hs.cursors, hs.lock, hs.latch, hs.rendered, hs.inFlight, hs.indices,
    hs.message, hs.faultFree⟩

/-- A step draws a choice, and runs the step of an agent or none. -/
theorem step_eq_next {s t : State} (h : step s = .next t) :
    t = s.drawn ∨ ∃ i, phaseStep i = true ∧ exec i s.drawn = .next t := by
  unfold step at h
  split at h
  · split at h
    · rename_i i hi
      exact .inr ⟨i, instrOf_phaseStep hi, h⟩
    · exact .inl (by simpa [eq_comm] using h)
  · simp at h

/-- Settles O56: the choice drawn is no part of the invariant, and each agent's step keeps its eleven parts, each shown
above by the step's effects. -/
theorem stepKeepsTheInvariant : Obligations.StepKeepsTheInvariant := by
  intro s t hs h
  rcases step_eq_next h with rfl | ⟨i, hi, h⟩
  · exact hs.drawn
  · exact exec_phaseStep_invariant hs.drawn hi h

/-! ### Every instruction is a `commit` that does not read the fault bits -/

/-- `o f` is the outcome, begun in `s` with the fault bits `f`, of an operation that does not read those bits (60 R256). -/
def FaultBlind (s : State) (o : FaultBits → Outcome) : Prop :=
  ∃ e : FaultBits → Except FaultKind State,
    (∀ f, o f = commit { s with fault := f } (e f)) ∧ ∀ f, SameUnder f (e s.fault) (e f)

namespace FaultBlind

variable {s : State} {e : FaultBits → Except FaultKind State}

theorem commit (h : ∀ f, SameUnder f (e s.fault) (e f)) :
    FaultBlind s fun f => Machine.commit { s with fault := f } (e f) := ⟨e, fun _ => rfl, h⟩

theorem value {v : FaultBits → OpResult} (hv : ∀ f, v f = v s.fault := by intro; rfl) :
    FaultBlind s fun f => .next (State.yield { s with fault := f } (v f)) := by
  simp only [hv]
  exact commit (e := fun f => .ok (State.yield { s with fault := f } (v s.fault))) fun _ => .ok

/-- A step that is not enabled commits the state it began in. -/
theorem whenEnabled {p : FaultBits → Bool} (h : ∀ f, SameUnder f (e s.fault) (e f))
    (hp : ∀ f, p f = p s.fault := by intro; rfl) :
    FaultBlind s fun f => Machine.whenEnabled (p f) { s with fault := f } (e f) := by
  simp only [hp]
  cases p s.fault
  · exact commit (e := fun f => .ok { s with fault := f }) fun _ => .ok
  · exact commit h

end FaultBlind

section Operations

variable (f : FaultBits) (s : State)

theorem unknownCommand_fault (tgt : Byte) :
    SameUnder f (unknownCommand tgt s) (unknownCommand tgt { s with fault := f }) :=
  onTarget_fault f s tgt fun _ => .ok

theorem parseFailure_fault (e : DecodeError) :
    SameUnder f (parseFailure e s) (parseFailure e { s with fault := f }) := by
  cases e with
  | tooShort | targetOutOfRange => exact .ok
  | shortPayload tgt => exact unknownCommand_fault f s tgt
  | unknownType | badLength | badMode => exact .error

theorem txSubmit_fault : SameUnder f (txSubmit s) (txSubmit { s with fault := f }) := by
  unfold txSubmit
  show SameUnder f _ (match leastSet s.tx.k s.cfg.nStrips s.tx.rendered with | some i => _ | none => _)
  cases leastSet s.tx.k s.cfg.nStrips s.tx.rendered with
  | some i => exact .read fun _ => .read fun _ => .ok
  | none => exact .ok

theorem applySetStripMode_fault (idx : Byte) (m : StripMode) :
    SameUnder f (applySetStripMode idx m s) (applySetStripMode idx m { s with fault := f }) :=
  .ite (.bind (writeMode_fault f s ..) fun _ => .ok) .ok

theorem applyShiftEffectMode_fault (d : Byte) :
    SameUnder f (applyShiftEffectMode d s) (applyShiftEffectMode d { s with fault := f }) :=
  .bind (.read fun _ => writeSel_fault f s ..) fun _ => .ok

theorem ctlReceive_fault (bytes : List Byte) :
    SameUnder f (.ok (ctlReceive bytes s)) (.ok (ctlReceive bytes { s with fault := f })) := by
  unfold ctlReceive
  cases decodeControlMsg bytes <;> exact .ok

theorem renderIfEligible_fault (a : Agent) (i : Nat) :
    SameUnder f (renderIfEligible a i s) (renderIfEligible a i { s with fault := f }) :=
  .read fun _ => .ite (renderStrip_fault f s ..) .ok

end Operations

theorem execRecord_faultBlind (s : State) (r : Record) :
    FaultBlind s fun f => execRecord r { s with fault := f } := by
  cases r with
  | sbm | sbs | sbma => exact .whenEnabled fun f => onTarget_fault f s _ fun _ => applyRecord_fault f s ..
  | rsv2 | rsv4 | unrec => exact .whenEnabled fun f => unknownCommand_fault f s _

theorem execIngParse_faultBlind (s : State) : FaultBlind s fun f => execIngParse { s with fault := f } := by
  unfold execIngParse
  show FaultBlind s fun f => match decodeRecordHead s.cfg s.remaining with | .ok (r, _) => _ | .error e => _
  cases decodeRecordHead s.cfg s.remaining with
  | ok p => exact execRecord_faultBlind s p.1
  | error e => exact .whenEnabled fun f => parseFailure_fault f s e

theorem exec_faultBlind (i : Instr) (s : State) : FaultBlind s fun f => exec i { s with fault := f } := by
  cases i with
  | sbm tgt px => exact execRecord_faultBlind s (.sbm tgt px)
  | sbs tgt p => exact execRecord_faultBlind s (.sbs tgt p)
  | rsv2 tgt => exact execRecord_faultBlind s (.rsv2 tgt)
  | sbma tgt px => exact execRecord_faultBlind s (.sbma tgt px)
  | rsv4 tgt => exact execRecord_faultBlind s (.rsv4 tgt)
  | unrec cmd tgt => exact execRecord_faultBlind s (.unrec cmd tgt)
  | ssm idx m => exact .whenEnabled fun f => applySetStripMode_fault f s idx m
  | sem d => exact .whenEnabled fun f => applyShiftEffectMode_fault f s d
  | encodeBit | encodeByte | b2f | rgbaNew | rgbaNewPremultiplied | fromRgb8 | blendOver => exact .value
  | construct j => exact .commit fun f => construct_fault f s j
  | flush a j => exact .commit fun f => writeCur_fault f s a j 0
  | writeColor a j p => exact .commit fun f => writeColor_fault f s a j p
  | toByte x => exact .commit fun f => by cases toByte x with | some b => exact .ok | none => exact .error
  | toRgb8 v => exact .commit fun f => by cases toRgb8 v with | some p => exact .ok | none => exact .error
  | renderStrip a j => exact .commit fun f => renderIfEligible_fault f s a j
  | txStart | txLock | txWaitcalc | txWake | acquire | ingReceive | ingLock | ctlLock =>
    exact .whenEnabled fun f => .ok
  | txRender => exact .whenEnabled fun f => txRender_fault f s
  | txUnlock => exact .whenEnabled fun f => .bind (release_fault f s .tx) fun _ => .ok
  | txSubmit => exact .whenEnabled fun f => txSubmit_fault f s
  | txComplete ok t => exact .whenEnabled fun f => .read fun _ => .ok
  | release a => exact .commit fun f => release_fault f s a
  | ingParse => exact execIngParse_faultBlind s
  | ingUnlock => exact .whenEnabled fun f => .bind (release_fault f s .ing) fun _ => .ok
  | ctlReceive bytes => exact .whenEnabled fun f => ctlReceive_fault f s bytes
  | ctlUnlock => exact .whenEnabled fun f => .bind (release_fault f s .ctl) fun _ => .ok
  | nextEffect a | prevEffect a => exact .commit fun f => .read fun _ => writeSel_fault f s a _
  | setEffect a k => exact .commit fun f => writeSel_fault f s a _
  | currentEffect a => exact .commit fun f => .read fun _ => .ok

/-- An operation that answers the same whatever the fault bits are answers the bits it was given. -/
theorem SameUnder.fault_eq {s t : State} {e : Except FaultKind State} (h : SameUnder s.fault e e) (ht : e = .ok t) :
    t.fault = s.fault := by
  rcases h with ⟨k, hk, -⟩ | ⟨u, hu, hu'⟩
  · simp [hk] at ht
  · obtain rfl : t = u := Except.ok.inj (ht.symm.trans hu)
    have heq : t = { t with fault := s.fault } := Except.ok.inj (hu.symm.trans hu')
    exact (congrArg State.fault heq :)

/-- Settles O8: every arm of `exec` is a `commit`, and a `commit` always answers. -/
theorem everyInstructionAnswersNext : Obligations.EveryInstructionAnswersNext := by
  intro i s
  obtain ⟨e, he, -⟩ := exec_faultBlind i s
  obtain ⟨t, ht⟩ := commit_answers s (e s.fault)
  exact ⟨t, (he s.fault).trans ht⟩

/-- Settles O59: with the bits `f` the step raises the same kind or does the same, and with the bits that the state already
has it keeps them unless it raises one. -/
theorem faultingStepsHaveNoOtherEffect : Obligations.FaultingStepsHaveNoOtherEffect := by
  intro i s t f h
  obtain ⟨e, he, hsame⟩ := exec_faultBlind i s
  have hs : commit s (e s.fault) = .next t := (he s.fault).symm.trans h
  rcases hsame f with ⟨k, hk, hkf⟩ | ⟨u, hu, huf⟩
  · rw [hk, commit_error] at hs
    obtain rfl : faulted s k = t := Host.Outcome.next.inj hs
    exact ⟨fun _ => ⟨k, rfl⟩, .inl ⟨k, rfl, (he f).trans (by rw [hkf]; rfl)⟩⟩
  · obtain rfl : u = t := by simpa [hu] using hs
    have hfault := (hsame s.fault).fault_eq hu
    exact ⟨fun hne => absurd hfault hne, .inr ⟨hfault, (he f).trans (by rw [huf]; rfl)⟩⟩

/-! ### `to_byte` -/

theorem F32.isInf_of_not_finite {x : F32} (hn : F32.isNaN x = false) (hf : F32.isFinite x = false) :
    F32.isInf x = true := by
  rw [Bool.eq_false_iff, ne_eq, F32.isNaN_iff] at hn
  rw [Bool.eq_false_iff, ne_eq, F32.isFinite_iff] at hf
  exact F32.isInf_iff.2 (by omega)

theorem F32.mag_f255 : F32.mag f255 = 255 * F32.oneUnits := by decide +kernel

theorem fmul_f255_of_finite {x : F32} (hf : F32.isFinite x = true) :
    fmul x f255 = F32.round (F32.neg x) (F32.mag x * F32.mag f255) F32.oneUnits := by
  have hs : F32.neg f255 = false := by decide
  rw [fmul_finite hf (by decide), hs, Bool.bne_false]

theorem fmul_f255_of_inf {x : F32} (hi : F32.isInf x = true) : fmul x f255 = F32.inf (F32.neg x) := by
  have hb := F32.isInf_iff.1 hi
  have hn : F32.isNaN x = false := by rw [Bool.eq_false_iff, ne_eq, F32.isNaN_iff]; omega
  have hf : F32.isFinite x = false := by rw [Bool.eq_false_iff, ne_eq, F32.isFinite_iff]; omega
  have hs : F32.neg f255 = false := by decide
  have hn255 : F32.isNaN f255 = false := by decide
  have hpos := F32.oneUnits_pos
  have hm : (F32.mag f255 == 0) = false := by rw [F32.mag_f255]; simp; omega
  simp [fmul, hn, hn255, hi, hf, hm, hs]

/-- Scaling a value that is no NaN to the byte range keeps its sign and gives no NaN. -/
theorem fmul_f255_sign {x : F32} (hn : F32.isNaN x = false) :
    F32.isNaN (fmul x f255) = false ∧ F32.neg (fmul x f255) = F32.neg x := by
  cases hf : F32.isFinite x with
  | true =>
    rw [fmul_f255_of_finite hf]
    exact ⟨F32.isNaN_round .., F32.neg_round ..⟩
  | false =>
    rw [fmul_f255_of_inf (F32.isInf_of_not_finite hn hf), F32.inf]
    refine ⟨?_, F32.neg_pack (by decide)⟩
    rw [Bool.eq_false_iff, ne_eq, F32.isNaN_iff, F32.bits_pack (by decide)]
    omega

/-- A magnitude of 1.0 or more scales to 255.0 or more. -/
theorem bits_f255_le_fmul {x : F32} (hn : F32.isNaN x = false) (hx : F32.isFinite x = true → F32.oneUnits ≤ F32.mag x) :
    F32.bits f255 ≤ F32.bits (fmul x f255) := by
  cases hf : F32.isFinite x with
  | true =>
    rw [fmul_f255_of_finite hf, F32.bits_round, ← roundBits_mag F32.oneUnits_pos (x := f255) (by decide), Nat.mul_comm]
    exact roundBits_mono F32.oneUnits_pos (Nat.mul_le_mul_right _ (hx hf))
  | false =>
    rw [fmul_f255_of_inf (F32.isInf_of_not_finite hn hf), F32.inf, F32.bits_pack (by decide)]
    decide

/-- The rounded magnitude is the nearest whole number, a half going up (00 R13). -/
theorem F32.roundMagTiesAway_bounds (y : F32) :
    2 * F32.roundMagTiesAway y * F32.oneUnits ≤ 2 * F32.mag y + F32.oneUnits ∧
      2 * F32.mag y < 2 * F32.roundMagTiesAway y * F32.oneUnits + F32.oneUnits := by
  have hpos := F32.oneUnits_pos
  have hcomm : 2 * F32.roundMagTiesAway y * F32.oneUnits = 2 * F32.oneUnits * F32.roundMagTiesAway y := by ring
  have hlow := Nat.mul_div_le (2 * F32.mag y + F32.oneUnits) (2 * F32.oneUnits)
  have hup := Nat.lt_mul_div_succ (2 * F32.mag y + F32.oneUnits) (show 0 < 2 * F32.oneUnits by omega)
  rw [hcomm, F32.roundMagTiesAway]
  rw [Nat.mul_add, Nat.mul_one] at hup
  omega

theorem clampByte_of_finite {y : F32} (hf : F32.isFinite y = true) :
    clampByte y = if F32.neg y then 0 else BitVec.ofNat 8 (min 255 (F32.roundMagTiesAway y)) := by
  rw [clampByte, F32.isInf_eq_false_of_finite hf, roundTiesAway]
  have hclamp : (min 255 (max 0 (F32.roundMagTiesAway y : Int))).toNat = min 255 (F32.roundMagTiesAway y) := by omega
  cases F32.neg y
  · simp only [Bool.false_eq_true, if_false, hclamp]
  · simp

theorem clampByte_of_inf {y : F32} (hi : F32.isInf y = true) : clampByte y = if F32.neg y then 0 else 255 := by
  rw [clampByte, if_pos hi]

theorem clampByte_of_neg {y : F32} (hn : F32.isNaN y = false) (hs : F32.neg y = true) : clampByte y = 0 := by
  cases hf : F32.isFinite y with
  | true => rw [clampByte_of_finite hf, if_pos hs]
  | false => rw [clampByte_of_inf (F32.isInf_of_not_finite hn hf), if_pos hs]

/-- A value of 255.0 or more clamps to the byte 255. -/
theorem clampByte_of_ge {y : F32} (hn : F32.isNaN y = false) (hs : F32.neg y = false)
    (hge : F32.bits f255 ≤ F32.bits y) : clampByte y = 255 := by
  cases hf : F32.isFinite y with
  | true =>
    have hmag : 255 * F32.oneUnits ≤ F32.mag y := F32.mag_f255 ▸ F32.mag_le_mag hge
    have hround : 255 ≤ F32.roundMagTiesAway y := by
      rw [F32.roundMagTiesAway, Nat.le_div_iff_mul_le (Nat.mul_pos two_pos F32.oneUnits_pos)]
      omega
    rw [clampByte_of_finite hf, hs, Nat.min_eq_left hround]
    rfl
  | false => rw [clampByte_of_inf (F32.isInf_of_not_finite hn hf), hs]; rfl

theorem exec_toByte {x : F32} {b : Byte} (h : toByte x = some b) (s : State) :
    exec (.toByte x) s = .next { s with out := .byte b } := by
  show execToByte x s = _
  rw [execToByte, h]
  rfl

theorem exec_toByte_of_nan {x : F32} (h : F32.isNaN x = true) (s : State) :
    exec (.toByte x) s = .next (faulted s .unmodelled) := by
  show execToByte x s = _
  rw [execToByte, toByte, if_pos h]
  rfl

theorem toByte_of_not_nan {x : F32} (h : F32.isNaN x = false) : toByte x = some (clampByte (fmul x f255)) := by
  rw [toByte, h]; rfl

/-- `to_byte` undoes `b2f` (40 R105). -/
theorem toByte_b2f : ∀ c : Byte, toByte (b2f c) = some c := by decide +kernel

/-- Settles O16: `to_byte` clamps `fmul(x, 255.0)`, which has the sign of `x` and is no NaN; on the bytes' own channels it is
evaluated. -/
theorem toByteRoundsAndClamps : Obligations.ToByteRoundsAndClamps := by
  intro s x
  show let y := fmul x f255; _
  intro y
  have hexec (hn : F32.isNaN x = false) (b : Byte) (hb : clampByte y = b) :
      exec (.toByte x) s = .next { s with out := .byte b } := exec_toByte (hb ▸ toByte_of_not_nan hn) s
  refine ⟨fun hn => exec_toByte_of_nan hn s, fun hn hf => ?_, fun hn hf => ?_, fun hn => ⟨_, hexec hn _ rfl⟩,
    fun hn hs => ?_, fun hn hs hx => ?_, fun c hc => ?_, fun hx => ?_⟩
  · obtain ⟨hlow, hup⟩ := F32.roundMagTiesAway_bounds y
    exact ⟨_, hlow, hup, hexec hn _ (clampByte_of_finite hf)⟩
  · exact hexec hn _ (clampByte_of_inf (F32.isInf_of_not_finite (fmul_f255_sign hn).1 hf))
  · obtain ⟨hyn, hys⟩ := fmul_f255_sign hn
    exact hexec hn _ (clampByte_of_neg hyn (hys.trans hs))
  · obtain ⟨hyn, hys⟩ := fmul_f255_sign hn
    exact hexec hn _ (clampByte_of_ge hyn (hys.trans hs) (bits_f255_le_fmul hn hx))
  · exact exec_toByte (hc ▸ toByte_b2f c) s
  · have hhalf : toByte 0x3F000000 = some 128 := by decide +kernel
    exact exec_toByte (hx ▸ hhalf) s

/-! ### The configuration check -/

theorem durationOk_iff {cfg : Config} {d : Nat} : durationOk cfg d = true ↔ ¬(d = 0 ∨ cfg.durMax < d) := by
  simp only [durationOk, Bool.and_eq_true, decide_eq_true_eq]; omega

/-- The six conditions of 60 R252, each negated. -/
theorem configValid_iff {c : Config} : configValid c = true ↔
    ¬(256 < c.strips.length ∨ (∃ sc ∈ c.strips, c.maxLeds < sc.info.ledCount) ∨ c.nEffects = 0 ∨
      (∃ d ∈ [c.t0h, c.t0l, c.t1h, c.t1l], d = 0 ∨ c.durMax < d) ∨ (c.t0h = c.t1h ∧ c.t0l = c.t1l) ∨
      ¬(c.cores = 1 ∨ c.cores = 2)) := by
  simp only [configValid, Bool.and_eq_true, durationOk_iff, List.all_eq_true, decide_eq_true_eq, Bool.not_eq_true',
    Bool.and_eq_false_iff, Bool.or_eq_true, beq_iff_eq, beq_eq_false_iff_ne, Config.nStrips]
  grind

/-- Settles O7: `step` tests the configuration and nothing else before it draws, and then runs an instruction, which always
answers, or none. -/
theorem invalidConfigurationNeverSteps : Obligations.InvalidConfigurationNeverSteps := by
  intro s c invalid
  constructor
  · intro h
    have hv : ¬configValid s.cfg = true := fun hv => configValid_iff.1 hv h
    rw [step, if_neg hv]
  · intro h
    rw [step, if_pos (configValid_iff.2 h)]
    cases instrOf s.choice s with
    | some i => exact everyInstructionAnswersNext i s.drawn
    | none => exact ⟨s.drawn, rfl⟩

/-! ### Steps that wait -/

theorem parsing_eq_false {s : State} (h : s.ing.phase ≠ .iParse) : s.parsing = false := by simp [State.parsing, h]

theorem applying_eq_false {s : State} (h : s.ctl.phase ≠ .cApply) : s.applying = false := by simp [State.applying, h]

theorem execRecord_waits {s : State} (h : s.ing.phase ≠ .iParse) (r : Record) : execRecord r s = .next s := by
  cases r <;> exact whenEnabled_false (parsing_eq_false h) s _

theorem execIngParse_waits {s : State} (h : s.ing.phase ≠ .iParse) : execIngParse s = .next s := by
  unfold execIngParse
  split
  · exact execRecord_waits h _
  · exact whenEnabled_false (parsing_eq_false h) s _

theorem exec_toInstr_record (r : Record) (s : State) : exec r.toInstr s = execRecord r s := by cases r <;> rfl

theorem exec_toInstr_message_waits {s : State} (h : s.ctl.phase ≠ .cApply) (m : ControlMsg) :
    exec m.toInstr s = .next s := by
  cases m <;> exact whenEnabled_false (applying_eq_false h) s _

/-- Settles O9: the phase is a conjunct of every step's enabling condition. -/
theorem disabledStepsChangeNothing : Obligations.DisabledStepsChangeNothing := by
  intro s t ok bytes r m
  refine ⟨fun h => ?_, fun h => ?_, fun h => ?_, fun h => ?_, fun h => ?_, fun h => ?_, fun h => ?_, fun h => ?_,
    fun h => ?_, fun h => ?_, fun h => ⟨execIngParse_waits h, (exec_toInstr_record r s).trans (execRecord_waits h r)⟩,
    fun h => ?_, fun h => ?_, fun h => ?_, fun h => exec_toInstr_message_waits h m, fun h => ?_⟩
  all_goals exact whenEnabled_false (by simp [State.txAt, h]) s _

end Sys2Proof.Machine

/-! PROOFS of the family 10_state: the shape of the storage spaces (O57); who writes the shared state and the transmit path,
and under which lock (O40, O60, O39); what no instruction undoes (O58); the instruction a step runs (O6); and reset (O54,
O55). -/

namespace Sys2Proof.Machine

/-- Settles O57: no effect changes the size of a space, and the shape depends on the sizes only. -/
theorem storageShapeIsKept : Obligations.StorageShapeIsKept :=
  fun _ _ _ hw h => ((exec_effect h).sameShape hw).wf.trans hw

/-! ### Writers of the shared state and of the transmit path -/

/-- From `s` to `t` each element is kept, or `i` is one of its writers and, for the shared state, an agent that may write
it holds the lock (10 R25, R28, R29, 20 R61, 44 R185). What a step does not touch it keeps by definition. -/
structure WritesOwn (s : State) (i : Instr) (t : State) : Prop where
  mode : t.mode = s.mode ∨ writesMode i = true ∧ s.lk.holder = some .ctl := by exact .inl rfl
  cb : t.cb = s.cb ∨ writesColours i = true ∧ s.lk.holder = some .ing := by exact .inl rfl
  sel : t.sel = s.sel ∨ writesSel i = true ∧ ∃ a, s.lk.holder = some a := by exact .inl rfl
  encoders : (t.tx.tb = s.tx.tb ∧ t.tx.cur = s.tx.cur) ∨ writesTransmitPath i = true := by exact .inl ⟨rfl, rfl⟩

theorem Parsed.writesOwn {s t : State} {i : Instr} (h : Parsed i s t) : WritesOwn s i t := by
  cases h with
  | ended _ _ h => subst h; exact {}
  | aborted _ h => subst h; exact {}
  | applied _ _ _ _ _ _ hi _ holder _ _ _ _ hcase =>
    rcases hcase with ⟨-, rfl⟩ | ⟨-, rfl⟩ <;> exact { cb := .inr ⟨hi, holder⟩ }

theorem Effect.writesOwn {s t : State} {i : Instr} (he : Effect s i t) : WritesOwn s i t := by
  cases he with
  | quiet _ _ h => rcases h with rfl | ⟨k, rfl⟩ <;> exact {}
  | construct | flush => exact { encoders := .inr rfl }
  | writeColor j p _ h => obtain ⟨tb, cur, rfl⟩ := writeColor_frame h; exact { encoders := .inr rfl }
  | renderStrip j _ _ h => obtain ⟨tb, cur, rfl⟩ := renderStrip_frame h; exact { encoders := .inr rfl }
  | txRenderStrip s1 _ _ _ h _ => obtain ⟨tb, cur, rfl⟩ := renderStrip_frame h; exact { encoders := .inr rfl }
  | parsed _ _ _ _ _ h => exact h.writesOwn
  | ssm _ _ _ _ hh => exact { mode := .inr ⟨rfl, hh⟩ }
  | sem _ _ hh => exact { sel := .inr ⟨rfl, _, hh⟩ }
  | select _ a _ hi hh =>
    have hwrites : writesSel i = true := by rcases hi with ⟨rfl, -⟩ | ⟨rfl, -⟩ | ⟨j, rfl, -⟩ <;> rfl
    exact { sel := .inr ⟨hwrites, a, hh⟩ }
  | _ => exact {}

/-- Settles O40: an effect that writes a mode, a colour or the selector has a holder of the lock. -/
theorem sharedStateChangesUnderTheLock : Obligations.SharedStateChangesUnderTheLock := by
  intro i s t h hfree
  obtain ⟨hmode, hcb, hsel, -⟩ := (exec_effect h).writesOwn
  exact ⟨hmode.resolve_right (by simp [hfree]), hcb.resolve_right (by simp [hfree]), hsel.resolve_right (by simp [hfree])⟩

/-- No step of a port changes `TX`'s state or the submission in flight (45 R218). -/
theorem Effect.tx_hw_eq_of_port {s t : State} {i : Instr} (he : Effect s i t)
    (hi : ingStep i = true ∨ ctlStep i = true) : t.tx = s.tx ∧ t.hw = s.hw := by
  cases he with
  | construct | flush | writeColor | renderStrip | txStart | txLock | txRenderEnd | txRenderSkip | txRenderStrip
  | txUnlock | txSubmit | txSubmitEnd | txComplete | txWaitcalc | txWake => rcases hi with hi | hi <;> cases hi
  | quiet _ _ h => rcases h with rfl | ⟨k, rfl⟩ <;> exact ⟨rfl, rfl⟩
  | parsed _ _ _ _ _ h => obtain ⟨cb, hist, lk, ing, rfl⟩ := h.frame; exact ⟨rfl, rfl⟩
  | _ => exact ⟨rfl, rfl⟩

theorem writesMode_of_ingStep {i : Instr} (hi : ingStep i = true) : writesMode i = false := by
  cases i with
  | ssm => cases hi
  | _ => rfl

theorem writesSel_of_ingStep {i : Instr} (hi : ingStep i = true) : writesSel i = false := by
  cases i with
  | sem | nextEffect | prevEffect | setEffect => cases hi
  | _ => rfl

/-- Settles O60: every effect writes only what its instruction is a writer of, and no step of `ING` is a writer of a mode
or of the selector. -/
theorem eachElementHasItsWriters : Obligations.EachElementHasItsWriters := by
  intro i s t h
  have he := exec_effect h
  obtain ⟨mode, cb, sel, encoders⟩ := he.writesOwn
  have hmode (hi : writesMode i = false) : t.mode = s.mode := mode.resolve_right (by simp [hi])
  have hsel (hi : writesSel i = false) : t.sel = s.sel := sel.resolve_right (by simp [hi])
  exact ⟨hmode, hsel, fun hi => cb.resolve_right (by simp [hi]), fun hi => encoders.resolve_right (by simp [hi]),
    he.tx_hw_eq_of_port, fun hi => ⟨hmode (writesMode_of_ingStep hi), hsel (writesSel_of_ingStep hi)⟩⟩

/-! ### Accesses without the lock -/

theorem bind_of_error {α β : Type} {e : Except FaultKind α} {k : FaultKind} (h : e = .error k)
    (f : α → Except FaultKind β) : e.bind f = .error k := by
  rw [h, error_bind]

theorem commit_of_error {s : State} {e : Except FaultKind State} {k : FaultKind} (h : e = .error k) :
    commit s e = .next (faulted s k) := by
  rw [h, commit_error]; rfl

theorem readSel_of_not_holder {s : State} {a : Agent} (h : s.lk.holder ≠ some a) :
    s.readSel a = .error .accessWithoutLock := bind_of_error (guard_of_not_holder h) _

theorem writeSel_of_not_holder {s : State} {a : Agent} (h : s.lk.holder ≠ some a) (k : Nat) :
    s.writeSel a k = .error .accessWithoutLock := bind_of_error (guard_of_not_holder h) _

theorem readMode_of_not_holder {s : State} {a : Agent} (h : s.lk.holder ≠ some a) (i : Nat) :
    s.readMode a i = .error .accessWithoutLock := bind_of_error (guard_of_not_holder h) _

theorem writeMode_of_not_holder {s : State} {a : Agent} (h : s.lk.holder ≠ some a) (i : Nat) (m : StripMode) :
    s.writeMode a i m = .error .accessWithoutLock := bind_of_error (guard_of_not_holder h) _

/-- The mode of a target in range is read under the lock (45 R204). -/
theorem onTarget_of_not_holder {s : State} {tgt : Byte} (h : s.lk.holder ≠ some .ing) (ht : tgt.toNat < s.cfg.nStrips)
    (body : Nat → Except FaultKind State) : onTarget s tgt body = .error .accessWithoutLock := by
  obtain ⟨n, hn⟩ := ledCount_of_lt ht
  rw [onTarget, hn]
  exact bind_of_error (readMode_of_not_holder h _) _

theorem execRecord_of_not_holder {s : State} (h : s.lk.holder ≠ some .ing) (hp : s.parsing = true) (r : Record)
    (hr : (recordTarget r).toNat < s.cfg.nStrips) : execRecord r s = .next (faulted s .accessWithoutLock) := by
  cases r <;> exact (whenEnabled_true hp s _).trans (commit_of_error (onTarget_of_not_holder h hr _))

theorem applySetStripMode_of_not_holder {s : State} {idx : Byte} (h : s.lk.holder ≠ some .ctl)
    (hi : idx.toNat < s.cfg.nStrips) (m : StripMode) : applySetStripMode idx m s = .error .accessWithoutLock := by
  rw [applySetStripMode, if_pos hi]
  exact bind_of_error (writeMode_of_not_holder h _ m) _

theorem exec_toInstr_message_of_not_holder {s : State} (h : s.lk.holder ≠ some .ctl) (hp : s.applying = true)
    (m : ControlMsg) (hm : ∀ idx md, m = .setStripMode idx md → idx.toNat < s.cfg.nStrips) :
    exec m.toInstr s = .next (faulted s .accessWithoutLock) := by
  cases m with
  | setStripMode idx md =>
    exact (whenEnabled_true hp s _).trans (commit_of_error (applySetStripMode_of_not_holder h (hm idx md rfl) md))
  | shiftEffectMode d =>
    have hshift : shiftSel .ctl (int8 d) s = .error .accessWithoutLock := bind_of_error (readSel_of_not_holder h) _
    exact (whenEnabled_true hp s _).trans (commit_of_error (bind_of_error hshift _))

/-- Settles O39: the selector operations, the target check of every record and the two messages all begin with the
access that needs the lock. -/
theorem accessWithoutLockFaults : Obligations.AccessWithoutLockFaults := by
  intro s a k r m
  refine ⟨fun h => ?_, fun h hm hp hr => ?_, fun h hm hp hreach => ?_⟩
  · have hread := readSel_of_not_holder h
    exact ⟨commit_of_error (bind_of_error hread _), commit_of_error (bind_of_error hread _),
      commit_of_error (writeSel_of_not_holder h _), commit_of_error (bind_of_error hread _)⟩
  · exact (exec_toInstr_record r s).trans (execRecord_of_not_holder h (parsing_eq_true.2 ⟨hm, hp⟩) r hr)
  · exact exec_toInstr_message_of_not_holder h (applying_eq_true.2 ⟨hm, hp⟩) m hreach

/-! ### What is never undone -/

/-- `t` keeps what was fixed and recorded in `s`: the configuration, the fault bits and degraded flags that were set, the
events, and the time seen (10 R22, R40, R44, R45, 20 R75). What a step does not touch it keeps by definition. -/
structure KeepsPast (s t : State) : Prop where
  cfg : t.cfg = s.cfg := by rfl
  fault : ∀ k, s.fault.has k = true → t.fault.has k = true := by exact fun _ h => h
  degraded : ∀ j : Nat, s.tx.degraded[j]? = some true → t.tx.degraded[j]? = some true := by exact fun _ h => h
  hist : s.hist <+: t.hist := by exact List.prefix_rfl
  clk : s.clk ≤ t.clk := by exact le_rfl

theorem FaultBits.has_add (f : FaultBits) (k k' : FaultKind) : (f.add k').has k = (f.has k || k == k') := by
  cases k' <;> cases k <;> simp [FaultBits.add, FaultBits.has]

/-- A flag that is set stays set when any flag is set. -/
theorem getElem?_set_true {flags : List Bool} {i j : Nat} (h : flags[j]? = some true) :
    (flags.set i true)[j]? = some true := by
  by_cases hij : i = j
  · subst hij
    exact List.getElem?_set_self (List.getElem?_eq_some_iff.1 h).1
  · exact (List.getElem?_set_ne hij).trans h

theorem Parsed.keepsPast {s t : State} {i : Instr} (h : Parsed i s t) : KeepsPast s t := by
  cases h with
  | ended _ _ h => subst h; exact {}
  | aborted _ h => subst h; exact { hist := List.prefix_append _ _ }
  | applied _ _ _ _ _ _ _ _ _ _ _ _ _ hcase =>
    rcases hcase with ⟨-, rfl⟩ | ⟨-, rfl⟩
    · exact { hist := List.prefix_append _ _ }
    · exact { hist := List.append_assoc .. ▸ List.prefix_append _ _ }

theorem Effect.keepsPast {s t : State} {i : Instr} (he : Effect s i t) : KeepsPast s t := by
  cases he with
  | quiet _ _ h =>
    rcases h with rfl | ⟨k, rfl⟩
    · exact {}
    · exact { fault := fun k' hk => by simp [FaultBits.has_add, hk] }
  | writeColor j p _ h => obtain ⟨tb, cur, rfl⟩ := writeColor_frame h; exact {}
  | renderStrip j _ _ h => obtain ⟨tb, cur, rfl⟩ := renderStrip_frame h; exact {}
  | txRenderStrip s1 _ _ _ h _ => obtain ⟨tb, cur, rfl⟩ := renderStrip_frame h; exact {}
  | txStart _ _ ht | txWaitcalc _ _ ht => exact { clk := ht }
  | txComplete ok _ _ ht _ =>
    refine { degraded := fun j hj => ?_, hist := List.prefix_append _ _, clk := ht }
    cases ok
    · exact getElem?_set_true hj
    · exact hj
  | txWake _ _ ht _ => exact { hist := List.prefix_append _ _, clk := ht }
  | txLock | txUnlock | txSubmit | acquire | release | ingLock | ingUnlock | ssm | sem | ctlLock | ctlUnlock =>
    exact { hist := List.prefix_append _ _ }
  | parsed _ _ _ _ _ h => exact h.keepsPast
  | _ => exact {}

/-- Settles O58: every effect only adds to the fault bits, the degraded flags and the history, and reads no time before
`clk`. -/
theorem nothingIsUndone : Obligations.NothingIsUndone := by
  intro i s t h
  obtain ⟨hcfg, hfault, hdeg, hhist, hclk⟩ := (exec_effect h).keepsPast
  exact ⟨hcfg, hfault, hdeg, hhist, hclk⟩

/-! ### The instruction a step runs -/

theorem choice_of_cons {s : State} {c : Choice} {cs : List Choice} (h : s.sched = c :: cs) : s.choice = c := by
  rw [State.choice, h]

theorem drawn_of_cons {s : State} {c : Choice} {cs : List Choice} (h : s.sched = c :: cs) :
    s.drawn = { s with sched := cs } := by
  rw [State.drawn, h]

/-- The chosen agent's instruction runs in the state the draw leaves. -/
theorem step_of_instrOf {s : State} {c : Choice} {cs : List Choice} {i : Instr} (hv : configValid s.cfg = true)
    (hs : s.sched = c :: cs) (hi : instrOf c s = some i) : step s = exec i { s with sched := cs } := by
  rw [step, if_pos hv, choice_of_cons hs, drawn_of_cons hs, hi]

/-- With no instruction to run, a step only draws the choice. -/
theorem step_of_instrOf_none {s : State} {c : Choice} {cs : List Choice} (hv : configValid s.cfg = true)
    (hs : s.sched = c :: cs) (hi : instrOf c s = none) : step s = .next { s with sched := cs } := by
  rw [step, if_pos hv, choice_of_cons hs, drawn_of_cons hs, hi]

/-- The parse step runs the record decoded at the cursor (45 R203). -/
theorem exec_ingParse_of_decodeRecord {s : State} {i : Instr} {rest : List Byte}
    (h : decodeRecord s.cfg s.remaining = .ok (i, rest)) : exec .ingParse s = exec i s := by
  show execIngParse s = _
  cases hd : decodeRecordHead s.cfg s.remaining with
  | error e => simp [decodeRecord, hd, Except.map] at h
  | ok p =>
    obtain ⟨rfl, -⟩ : p.1.toInstr = i ∧ p.2 = rest := by simpa [decodeRecord, hd, Except.map] using h
    rw [execIngParse, hd]
    exact (exec_toInstr_record p.1 s).symm

/-- With an empty schedule a step runs as with the free value scheduled. -/
theorem step_of_nil {s : State} (h : s.sched = []) :
    step s = step { s with sched := [Config.freeChoice s.draws], draws := s.draws + 1 } := by
  have hchoice : s.choice = Config.freeChoice s.draws := by rw [State.choice, h]
  have hdrawn : s.drawn = { s with sched := [], draws := s.draws + 1 } := by rw [State.drawn, h]
  rw [step, hchoice, hdrawn]
  rfl

/-- Settles O6: the phase picks the instruction, row by row of the three phase graphs. -/
theorem stepRunsDecodedInstruction : Obligations.StepRunsDecodedInstruction := by
  intro s cs hv
  refine ⟨fun dt ok hs => ?_, fun bytes hs => ?_, fun bytes hs => ?_, step_of_nil⟩
  · refine ⟨?_, ?_, ?_, ?_, ?_, ?_, ?_, ?_⟩
    all_goals exact fun hp => step_of_instrOf hv hs (by simp only [instrOf, txInstr, hp])
  · have hparse (hp : s.ing.phase = .iParse) : step s = exec .ingParse { s with sched := cs } :=
      step_of_instrOf hv hs (by simp only [instrOf, ingInstr, hp])
    refine ⟨?_, ?_, fun hp => ⟨hparse hp, fun i rest hd => (hparse hp).trans (exec_ingParse_of_decodeRecord hd)⟩, ?_⟩
    all_goals exact fun hp => step_of_instrOf hv hs (by simp only [instrOf, ingInstr, hp])
  · have hrun {i : Instr} (hi : ctlInstr bytes s = some i) : step s = exec i { s with sched := cs } :=
      step_of_instrOf hv hs hi
    refine ⟨fun hp => hrun ?_, fun hp => hrun ?_, fun idx m hp hm => hrun ?_, fun d hp hm => hrun ?_,
      fun hp hm => step_of_instrOf_none hv hs ?_, fun hp => hrun ?_⟩
    all_goals simp [instrOf, ctlInstr, ControlMsg.toInstr, *]

/-! ### Reset -/

/-- Strip `i`'s transmit buffer is built at the draw after those of the strips before it (70 R281 step 3). -/
theorem freshBuffers_getElem? (cfg : Config) (d : Nat) (strips : List StripConfig) (i : Nat) :
    (freshBuffers cfg d strips)[i]? = (strips[i]?).map fun sc => freshBuffer cfg (d + i) sc.info.ledCount := by
  induction strips generalizing d i with
  | nil => rfl
  | cons sc rest ih =>
    cases i with
    | zero => rfl
    | succ i => simpa [freshBuffers, Nat.add_assoc, Nat.add_comm 1 i] using ih (d + 1) i

/-- At reset the transmit buffer of a configured strip is a fresh one. -/
theorem resetWith_tb {cfg : Config} {i : Nat} {sc : StripConfig} (h : cfg.strips[i]? = some sc) :
    (State.resetWith cfg).tx.tb[i]? = some (freshBuffer cfg i sc.info.ledCount) := by
  simp [State.resetWith, freshBuffers_getElem?, h]

/-- What `f` gives of strip `i` stands at index `i` of the list of what it gives of every strip. -/
theorem strips_map_getElem? {α : Type} {cfg : Config} {i : Nat} {sc : StripConfig} (f : StripConfig → α)
    (h : cfg.strips[i]? = some sc) : (cfg.strips.map f)[i]? = some (f sc) := by
  rw [List.getElem?_map, h]; rfl

theorem resetWith_cur {cfg : Config} {i : Nat} {sc : StripConfig} (h : cfg.strips[i]? = some sc) :
    (State.resetWith cfg).tx.cur[i]? = some 0 := strips_map_getElem? _ h

theorem resetWith_rendered {cfg : Config} {i : Nat} {sc : StripConfig} (h : cfg.strips[i]? = some sc) :
    (State.resetWith cfg).tx.rendered[i]? = some false := strips_map_getElem? _ h

/-- Settles O54: the registers by definition, and each strip's elements entry by entry of the configuration. -/
theorem resetLeavesTheStatedValues : Obligations.ResetLeavesTheStatedValues := by
  intro cfg
  refine ⟨rfl, rfl, rfl, rfl, rfl, rfl, rfl, rfl, rfl, rfl, ?_⟩
  rintro i n sc h rfl
  exact ⟨strips_map_getElem? _ h, strips_map_getElem? _ h, resetWith_rendered h,
    ⟨_, resetWith_tb h, freshBuffer_length .., freshBuffer_sentinel ..⟩, resetWith_cur h, strips_map_getElem? _ h⟩

theorem transparentBlack_premultiplied : premultiplied transparentBlack = true := by decide +kernel

theorem resetWith_coloursOk (cfg : Config) : ColoursOk (State.resetWith cfg) := by
  intro buf hbuf v hv
  obtain ⟨sc, -, rfl⟩ := List.mem_map.1 hbuf
  exact (List.eq_of_mem_replicate hv).symm ▸ transparentBlack_premultiplied

theorem resetWith_sentinelsOk (cfg : Config) : SentinelsOk (State.resetWith cfg) := by
  intro i n hn
  obtain ⟨sc, h, rfl⟩ := ledCount?_eq_some_iff.1 hn
  exact ⟨_, resetWith_tb h, freshBuffer_sentinel ..⟩

theorem resetWith_cursorsOk (cfg : Config) : CursorsOk (State.resetWith cfg) := by
  intro i n hn
  obtain ⟨sc, h, rfl⟩ := ledCount?_eq_some_iff.1 hn
  exact ⟨0, resetWith_cur h, rfl, Nat.zero_le _⟩

/-- No strip is rendered at reset. -/
theorem resetWith_renderedOk (cfg : Config) : RenderedOk (State.resetWith cfg) := by
  intro i n buf hr hn
  obtain ⟨sc, h, -⟩ := ledCount?_eq_some_iff.1 hn
  cases (resetWith_rendered (cfg := cfg) h).symm.trans hr

theorem nEffects_pos_of_configValid {cfg : Config} (h : configValid cfg = true) : 0 < cfg.nEffects :=
  Nat.pos_of_ne_zero fun h0 => configValid_iff.1 h (.inr (.inr (.inl h0)))

/-- Settles O55: the check of 60 R252 that `N_EFFECTS` is positive puts the selector in its range; the rest holds of every
configuration's reset state. -/
theorem resetMeetsTheInvariant : Obligations.ResetMeetsTheInvariant := fun cfg hv =>
  { shape := memory_wf_resetWith cfg
    colours := resetWith_coloursOk cfg
    sentinels := resetWith_sentinelsOk cfg
    cursors := resetWith_cursorsOk cfg
    lock := by simp [LockDiscipline, State.resetWith]
    latch := nofun
    rendered := resetWith_renderedOk cfg
    inFlight := ⟨fun _ => rfl, nofun⟩
    indices := ⟨nEffects_pos_of_configValid hv, Nat.zero_le _, le_rfl, Nat.zero_le _⟩
    message := by simp [MessageOk, State.resetWith]
    faultFree := rfl }

end Sys2Proof.Machine

/-! PROOFS of the family 20_memory: the steps of `TX` that read the clock, where they are enabled: `tx_start` (O28),
`tx_complete` (O33) and `tx_waitcalc` (O34). -/

namespace Sys2Proof.Machine

/-- An enabled step without a fault ends in the state its effect answers. -/
theorem whenEnabled_of_ok {p : Bool} {s t : State} {e : Except FaultKind State} (hp : p = true) (he : e = .ok t) :
    whenEnabled p s e = .next t := by
  rw [whenEnabled_true hp, he, commit_ok]

/-- A phase whose step reads the time enables it at any time not before the last one seen (20 R75). -/
theorem txAt_and_mayRead {s : State} {p : TxPhase} {t : Nat} (hp : s.tx.phase = p) (ht : s.clk ≤ t) :
    (s.txAt p && s.mayRead t) = true := by
  rw [txAt_eq_true.2 hp, mayRead_eq_true.2 ht, Bool.and_self]

/-- Settles O28: the step is enabled, and its effect is the stated one by definition. -/
theorem txStartBeginsIteration : Obligations.TxStartBeginsIteration :=
  fun _ _ hp ht => whenEnabled_of_ok (txAt_and_mayRead hp ht) rfl

/-- The strip index is that of a strip, so the outcome is recorded without a fault: a failure sets the strip's flag
(43 R156). -/
theorem degraded_after {s : State} (hk : s.tx.k < s.tx.degraded.length) (ok : Bool) :
    (if ok then .ok s.tx.degraded else setFlag s.tx.k s.tx.degraded) =
      .ok (if ok then s.tx.degraded else s.tx.degraded.set s.tx.k true) := by
  cases ok
  · exact setFlag_eq_ok.2 ⟨hk, rfl⟩
  · rfl

/-- Settles O33: the step is enabled while a submission is in flight, and its one access that could fault, the degraded
flag of strip `k`, is in range; a time already in `tFirst` is kept. -/
theorem txCompleteRecordsOutcome : Obligations.TxCompleteRecordsOutcome := by
  intro s ok t ys hp hhw ht hk
  have henabled : (s.txAt .tXmit && s.hw.isSome && s.mayRead t) = true := by
    rw [txAt_eq_true.2 hp, hhw, mayRead_eq_true.2 ht]; rfl
  refine whenEnabled_of_ok henabled ?_
  rw [txComplete, degraded_after hk, ok_bind]
  cases s.tx.tFirst <;> rfl

/-- The step of `T_WAITCALC` adds `latchWait` to the time read (43 R157). -/
theorem exec_txWaitcalc {s : State} {t : Nat} (hp : s.tx.phase = .tWaitcalc) (ht : s.clk ≤ t) :
    exec (.txWaitcalc t) s = .next { s with
      clk := t, tx := { s.tx with deadline := t + latchWait s.cfg s.tx.tFirst t, phase := .tSleep } } :=
  whenEnabled_of_ok (txAt_and_mayRead hp ht) rfl

/-- The wait runs to the end of the latch, and there is none once the latch is over: the difference saturates at 0
(43 R157). -/
theorem add_latchWait_some {cfg : Config} {f t : Nat} (hf : f ≤ t) :
    t + latchWait cfg (some f) t = if t - f ≤ cfg.latchUs then t + (cfg.latchUs - (t - f)) else t := by
  simp only [latchWait, sat]
  split <;> omega

/-- Settles O34: the deadline is the time read plus `latchWait`, the fallback with nothing sent and else the rest of the
latch. -/
theorem txWaitcalcSetsDeadline : Obligations.TxWaitcalcSetsDeadline := by
  intro s t hp ht
  refine ⟨fun hnone => ?_, fun f hsome hf => ?_⟩
  · rw [exec_txWaitcalc hp ht, hnone]; rfl
  · rw [exec_txWaitcalc hp ht, hsome, add_latchWait_some hf]

end Sys2Proof.Machine

/-! PROOFS of the family 30_encoding: the record decoder accepts exactly the encodings of well-formed records, whatever
follows them (O1, O2), and takes `need` payload bytes (O4); the control decoder accepts exactly the encodings of messages
(O3); sample words (O5); the bit encoder's operations (O18). -/

namespace Sys2Proof.Machine

/-! ### The parts of a record -/

/-- The command byte of a record (30 R81). -/
def recordCode : Record → Byte
  | .sbm _ _ => 0
  | .sbs _ _ => 1
  | .rsv2 _ => 2
  | .sbma _ _ => 3
  | .rsv4 _ => 4
  | .unrec cmd _ => cmd

/-- The payload bytes of a record (30 R83, R84, R87). -/
def recordPayload : Record → List Byte
  | .sbm _ px => rgbBytes px
  | .sbs _ p => [p.r, p.g, p.b]
  | .sbma _ px => rgbaBytes px
  | .rsv2 _ | .rsv4 _ | .unrec _ _ => []

/-- A record suits a target of `n` LEDs: one colour per LED (30 R82), and no unrecognised code below 5 (30 R86). -/
def FitsLeds (n : Nat) : Record → Prop
  | .sbm _ px => px.length = n
  | .sbma _ px => px.length = n
  | .unrec cmd _ => 5 ≤ cmd.toNat
  | .sbs _ _ | .rsv2 _ | .rsv4 _ => True

/-- A record is laid out as command, target, payload (30 R80, R81). -/
theorem encode_toInstr_record (r : Record) :
    encode r.toInstr = some (recordCode r :: recordTarget r :: recordPayload r) := by
  cases r <;> rfl

theorem targetOk_iff {cfg : Config} {tgt : Byte} : targetOk cfg tgt = true ↔ ∃ n, cfg.ledCount? tgt.toNat = some n :=
  decide_eq_true_iff.trans ⟨ledCount_of_lt, fun ⟨_, hn⟩ => lt_nStrips_of_ledCount hn⟩

/-- A record is well-formed when it suits the LED count of its target (30 R82, R85, R86). -/
theorem wellFormed_toInstr_record {cfg : Config} {r : Record} :
    WellFormed cfg r.toInstr = true ↔ ∃ n, cfg.ledCount? (recordTarget r).toNat = some n ∧ FitsLeds n r := by
  cases r with
  | sbm tgt px | sbma tgt px =>
    simp only [Record.toInstr, WellFormed, Bool.and_eq_true, beq_iff_eq, targetOk_iff, recordTarget, FitsLeds]
    exact ⟨fun h => ⟨_, h.2, rfl⟩, fun ⟨n, hn, hpx⟩ => ⟨⟨n, hn⟩, hpx ▸ hn⟩⟩
  | sbs tgt | rsv2 tgt | rsv4 tgt =>
    simp only [Record.toInstr, WellFormed, targetOk_iff, recordTarget, FitsLeds, and_true]
  | unrec cmd tgt =>
    simp only [Record.toInstr, WellFormed, Bool.and_eq_true, decide_eq_true_eq, targetOk_iff, recordTarget, FitsLeds,
      exists_and_right]
    exact and_comm

/-! ### The record decoder -/

/-- What the payload decoder accepts is a record of that command and target that suits its LED count, and its payload is
what was read (30 R82 to R87). -/
theorem decodePayload_ok {cmd tgt : Byte} {n : Nat} {bs rest : List Byte} {r : Record}
    (h : decodePayload cmd tgt n bs = .ok (r, rest)) :
    FitsLeds n r ∧ recordCode r = cmd ∧ recordTarget r = tgt ∧ bs = recordPayload r ++ rest := by
  have code {m : Nat} (hm : cmd.toNat = m) : BitVec.ofNat 8 m = cmd := by simp [← hm]
  unfold decodePayload at h
  split at h
  case h_1 hc =>
    split at h <;> cases h
    next hpx =>
      obtain ⟨hlen, hbs⟩ := takeRgb_inv hpx
      exact ⟨hlen, code hc, rfl, hbs⟩
  case h_2 hc =>
    split at h <;> cases h
    exact ⟨trivial, code hc, rfl, rfl⟩
  case h_3 hc => cases h; exact ⟨trivial, code hc, rfl, rfl⟩
  case h_4 hc =>
    split at h <;> cases h
    next hpx =>
      obtain ⟨hlen, hbs⟩ := takeRgba_inv hpx
      exact ⟨hlen, code hc, rfl, hbs⟩
  case h_5 hc => cases h; exact ⟨trivial, code hc, rfl, rfl⟩
  case h_6 =>
    have hc : 5 ≤ cmd.toNat := by grind
    cases h
    exact ⟨hc, rfl, rfl, rfl⟩

/-- A code above 4 is decoded as unrecognised, with no payload (30 R87). -/
theorem decodePayload_unrec {cmd tgt : Byte} {n : Nat} {bs : List Byte} (h : 5 ≤ cmd.toNat) :
    decodePayload cmd tgt n bs = .ok (.unrec cmd tgt, bs) := by
  unfold decodePayload
  split
  case h_6 => rfl
  all_goals omega

/-- A record that suits its target's LED count is read back from its payload. -/
theorem decodePayload_recordPayload {n : Nat} {r : Record} (h : FitsLeds n r) (rest : List Byte) :
    decodePayload (recordCode r) (recordTarget r) n (recordPayload r ++ rest) = .ok (r, rest) := by
  cases r with
  | sbm tgt px =>
    obtain rfl : px.length = n := h
    simp [decodePayload, recordCode, recordTarget, recordPayload, takeRgb_bytes]
  | sbma tgt px =>
    obtain rfl : px.length = n := h
    simp [decodePayload, recordCode, recordTarget, recordPayload, takeRgba_bytes]
  | sbs | rsv2 | rsv4 => rfl
  | unrec cmd tgt => exact decodePayload_unrec h

theorem decodeRecordHead_of_ledCount {cfg : Config} {tgt : Byte} {n : Nat} (hn : cfg.ledCount? tgt.toNat = some n)
    (cmd : Byte) (bs : List Byte) : decodeRecordHead cfg (cmd :: tgt :: bs) = decodePayload cmd tgt n bs := by
  rw [decodeRecordHead, hn]

/-- The record decoder accepts exactly the encodings of well-formed records, with any bytes after them (30 R80). -/
theorem decodeRecordHead_eq_ok {cfg : Config} {bs rest : List Byte} {r : Record} :
    decodeRecordHead cfg bs = .ok (r, rest) ↔
      WellFormed cfg r.toInstr = true ∧ bs = recordCode r :: recordTarget r :: recordPayload r ++ rest := by
  rw [wellFormed_toInstr_record]
  constructor
  · intro h
    unfold decodeRecordHead at h
    split at h
    · split at h
      next hn =>
        obtain ⟨hfits, rfl, rfl, rfl⟩ := decodePayload_ok h
        exact ⟨⟨_, hn, hfits⟩, rfl⟩
      next => cases h
    · cases h
  · rintro ⟨⟨n, hn, hfits⟩, rfl⟩
    exact (decodeRecordHead_of_ledCount hn _ _).trans (decodePayload_recordPayload hfits rest)

theorem decodeRecord_eq_ok {cfg : Config} {bs rest : List Byte} {i : Instr} :
    decodeRecord cfg bs = .ok (i, rest) ↔ ∃ r, i = r.toInstr ∧ decodeRecordHead cfg bs = .ok (r, rest) := by
  cases h : decodeRecordHead cfg bs with
  | error e => simp [decodeRecord, h, Except.map]
  | ok p => simp [decodeRecord, h, Except.map, Prod.ext_iff, eq_comm]

/-- Settles O1: from the bytes of a well-formed record, the decoder accepts that record. -/
theorem recordDecodesFromItsEncoding : Obligations.RecordDecodesFromItsEncoding := by
  intro cfg r bs rest hwf henc
  obtain rfl := Option.some.inj ((encode_toInstr_record r).symm.trans henc)
  exact decodeRecord_eq_ok.2 ⟨r, rfl, decodeRecordHead_eq_ok.2 ⟨hwf, rfl⟩⟩

/-- Settles O2: the decoder accepts nothing but the encodings of well-formed records. -/
theorem decodedRecordAccountsForItsBytes : Obligations.DecodedRecordAccountsForItsBytes := by
  intro cfg i bs rest h
  obtain ⟨r, rfl, hr⟩ := decodeRecord_eq_ok.1 h
  obtain ⟨hwf, hbs⟩ := decodeRecordHead_eq_ok.1 hr
  exact ⟨hwf, _, encode_toInstr_record r, hbs⟩

/-! ### The length of a record -/

theorem length_lt_of_takeRgb_eq_none {n : Nat} {bs : List Byte} (h : takeRgb n bs = none) : bs.length < 3 * n := by
  fun_induction takeRgb n bs with
  | case1 => cases h
  | case2 n r g b bs ih =>
    have := ih (Option.map_eq_none_iff.1 h)
    simp only [List.length_cons]; omega
  | case3 n bs hshort =>
    match bs with
    | [] | [_] | [_, _] => simp only [List.length_cons, List.length_nil]; omega
    | r :: g :: b :: bs => exact absurd rfl (hshort r g b bs)

theorem length_lt_of_takeRgba_eq_none {n : Nat} {bs : List Byte} (h : takeRgba n bs = none) : bs.length < 4 * n := by
  fun_induction takeRgba n bs with
  | case1 => cases h
  | case2 n r g b a bs ih =>
    have := ih (Option.map_eq_none_iff.1 h)
    simp only [List.length_cons]; omega
  | case3 n bs hshort =>
    match bs with
    | [] | [_] | [_, _] | [_, _, _] => simp only [List.length_cons, List.length_nil]; omega
    | r :: g :: b :: a :: bs => exact absurd rfl (hshort r g b a bs)

/-- A code above 4 has no payload length (30 R82). -/
theorem payloadNeed_unrec {cmd : Byte} (h : 5 ≤ cmd.toNat) (n : Nat) : payloadNeed cmd n = none := by
  unfold payloadNeed
  split
  case h_4 => rfl
  all_goals omega

/-- A record that suits its target carries the payload its command needs (30 R82). -/
theorem recordPayload_length {n need : Nat} {r : Record} (h : FitsLeds n r)
    (hneed : payloadNeed (recordCode r) n = some need) : (recordPayload r).length = need := by
  cases r with
  | sbm tgt px =>
    obtain rfl : px.length = n := h
    exact (rgbBytes_length px).trans (Option.some.inj hneed)
  | sbma tgt px =>
    obtain rfl : px.length = n := h
    exact (rgbaBytes_length px).trans (Option.some.inj hneed)
  | sbs => exact Option.some.inj hneed
  | rsv2 | rsv4 => cases hneed
  | unrec => cases (payloadNeed_unrec h n).symm.trans hneed

/-- The payload decoder rejects only a payload shorter than the command needs (45 R206). -/
theorem length_lt_of_decodePayload_error {cmd tgt : Byte} {n need : Nat} {bs : List Byte} {e : DecodeError}
    (h : decodePayload cmd tgt n bs = .error e) (hneed : payloadNeed cmd n = some need) : bs.length < need := by
  unfold decodePayload at h
  split at h
  case h_1 hc =>
    obtain rfl : 3 * n = need := by simpa [payloadNeed, hc] using hneed
    split at h
    · cases h
    · exact length_lt_of_takeRgb_eq_none ‹_›
  case h_2 hc =>
    obtain rfl : 3 = need := by simpa [payloadNeed, hc] using hneed
    match bs with
    | [] | [_] | [_, _] => simp only [List.length_cons, List.length_nil]; omega
    | _ :: _ :: _ :: _ => cases h
  case h_4 hc =>
    obtain rfl : 4 * n = need := by simpa [payloadNeed, hc] using hneed
    split at h
    · cases h
    · exact length_lt_of_takeRgba_eq_none ‹_›
  all_goals cases h

/-- Settles O4: an accepted payload has the length `need`, and a rejected one is shorter. -/
theorem recordLengthIsTwoPlusNeed : Obligations.RecordLengthIsTwoPlusNeed := by
  intro cfg cmd tgt bs n need hn hneed
  rw [decodeRecordHead_of_ledCount hn]
  cases h : decodePayload cmd tgt n bs with
  | ok p =>
    obtain ⟨hfits, rfl, -, rfl⟩ := decodePayload_ok h
    have hlen := recordPayload_length hfits hneed
    exact ⟨fun _ => ⟨p.1, by rw [← hlen, List.drop_left]⟩, fun hlt => absurd hlt (by simp [hlen])⟩
  | error e =>
    have hlt := length_lt_of_decodePayload_error h hneed
    exact ⟨fun hge => absurd hge (by omega), fun _ => by rw [decodePayload_error h]⟩

/-! ### The control decoder -/

/-- A mode byte is the code of the mode it names (30 R89). -/
theorem modeOfByte_eq_some {b : Byte} {m : StripMode} : modeOfByte b = some m ↔ b = m.code := by
  constructor
  · intro h
    unfold modeOfByte at h
    split at h <;> cases h
    all_goals exact BitVec.eq_of_toNat_eq ‹_›
  · rintro rfl
    cases m <;> rfl

/-- What the control decoder accepts is a message's encoding (30 R88, R89). -/
theorem encode_of_decodeControlMsg {bs : List Byte} {m : ControlMsg} (h : decodeControlMsg bs = .ok m) :
    encode m.toInstr = some bs := by
  unfold decodeControlMsg at h
  split at h
  case h_1 => cases h
  case h_2 ty args =>
    split at h
    case h_1 hty =>
      obtain rfl : ty = 0 := BitVec.eq_of_toNat_eq hty
      split at h
      · split at h <;> cases h
        next hmode => rw [modeOfByte_eq_some.1 hmode]; rfl
      · cases h
    case h_2 hty =>
      obtain rfl : ty = 1 := BitVec.eq_of_toNat_eq hty
      split at h <;> cases h
      rfl
    case h_3 => cases h

/-- Settles O3: each kind of message reads back its own bytes, and no other bytes are accepted. -/
theorem controlDecodesExactlyItsEncodings : Obligations.ControlDecodesExactlyItsEncodings := by
  refine fun bs m => ⟨encode_of_decodeControlMsg, fun h => ?_⟩
  cases m with
  | setStripMode idx mode =>
    obtain rfl := Option.some.inj h
    simp [decodeControlMsg, modeOfByte_eq_some.2 (rfl : mode.code = mode.code)]
  | shiftEffectMode delta =>
    obtain rfl := Option.some.inj h
    rfl

/-! ### Sample words -/

/-- Settles O5, by running the decoders on the eight words. -/
theorem sampleWordsDecode : Obligations.SampleWordsDecode := by
  unfold Obligations.SampleWordsDecode
  decide

/-! ### The bit encoder -/

/-- Number `7 - k` of a byte's bits, most significant first, is bit `k` (20 R65). -/
theorem bitsMsbFirst_getElem? (v : Byte) {k : Nat} (hk : k < 8) : (bitsMsbFirst v)[7 - k]? = some (v.getLsbD k) := by
  interval_cases k <;> rfl

/-- Settles O18: the two instructions hand over `encodeBit` and `encodeByte`, and the symbols follow the byte's bits. -/
theorem bitsEncodeMostSignificantFirst : Obligations.BitsEncodeMostSignificantFirst := by
  refine fun s b v => ⟨rfl, encodeByte s.cfg v, rfl, encodeByte_length s.cfg v, fun k hk => ?_⟩
  rw [encodeByte, List.getElem?_map, bitsMsbFirst_getElem? v hk]
  rfl

end Sys2Proof.Machine

/-! PROOFS of the family 40_color_datapath: premultiplying (O13); blending, at its corners (O14) and within the unit
range (O15); the formulas the operations hand over (O11); `b2f` (O12); and `to_rgb8` (O17). -/

namespace Sys2Proof.Machine

/-! ### Premultiplying -/

/-- Settles O13: 1.0 is neutral for a unit channel and zero absorbs it, and a product of unit channels is at most its
second factor. -/
theorem premultiplyBoundedByAlpha : Obligations.PremultiplyBoundedByAlpha := by
  intro r g b a hr hg hb ha
  refine ⟨?_, ?_, rgbaNew_premultiplied hr hg hb ha⟩
  · rw [rgbaNew, fmul_one hr, fmul_one hg, fmul_one hb]
  · rw [rgbaNew, fmul_zero hr, fmul_zero hg, fmul_zero hb]

/-! ### Blending at the corners -/

theorem exec_blendOver (fg bg : RgbaF32) (s : State) :
    exec (.blendOver fg bg) s = .next { s with out := .colour (blendOver fg bg) } := rfl

/-- A foreground of alpha 1.0 overwrites: `1.0 - 1.0` is zero, so the background adds nothing (40 R104). -/
theorem blendOver_opaque {fg bg : RgbaF32} (hfg : unitColour fg = true) (hbg : unitColour bg = true)
    (ha : fg.a = 0x3F800000) : blendOver fg bg = fg := by
  obtain ⟨ur, ug, ub, ua⟩ := unitColour_iff.1 hfg
  obtain ⟨vr, vg, vb, va⟩ := unitColour_iff.1 hbg
  have hsub : fsub fone 0x3F800000 = 0x00000000 := by decide +kernel
  simp only [blendOver, ha ▸ hsub, fmul_zero vr, fmul_zero vg, fmul_zero vb, fmul_zero va, fadd_zero ur,
    fadd_zero ug, fadd_zero ub, fadd_zero ua]

/-- A foreground of zeros passes the background through: `1.0 - 0.0` is 1.0 (40 R104). -/
theorem blendOver_transparent {bg : RgbaF32} (hbg : unitColour bg = true) :
    blendOver ⟨0x00000000, 0x00000000, 0x00000000, 0x00000000⟩ bg = bg := by
  obtain ⟨vr, vg, vb, va⟩ := unitColour_iff.1 hbg
  have hsub : fsub fone 0x00000000 = 0x3F800000 := by decide +kernel
  simp only [blendOver, hsub, fmul_one vr, fmul_one vg, fmul_one vb, fmul_one va, zero_fadd vr, zero_fadd vg,
    zero_fadd vb, zero_fadd va]

/-- Settles O14: the instruction hands over `blendOver`, which is the foreground or the background. -/
theorem blendCornersAreExact : Obligations.BlendCornersAreExact := by
  intro s fg bg hfg hbg
  refine ⟨fun ha => ?_, fun hzero => ?_⟩
  · rw [exec_blendOver, blendOver_opaque hfg hbg ha]
  · rw [exec_blendOver, hzero, blendOver_transparent hbg]

/-! ### Blending within the unit range -/

/-- A byte's channel and its complement add up to at most 1.0, both roundings included (40 R107, by evaluation). -/
theorem bits_fadd_one_sub_b2f_le : ∀ c : Byte, F32.bits (fadd (b2f c) (fsub fone (b2f c))) ≤ 0x3F800000 := by
  decide +kernel

/-- Blending is monotone in the foreground channel `x` and the background channel `y`, so it is bounded by its value at
`x = a` and `y = 1.0` (40 R107). -/
theorem blend_unit {x y : F32} {c : Byte} (hx : unitChannel x = true) (hxa : F32.bits x ≤ F32.bits (b2f c))
    (hy : unitChannel y = true) : unitChannel (fadd x (fmul y (fsub fone (b2f c)))) = true := by
  have ht := one_sub_unit (b2f_unit c)
  obtain ⟨hyt, hle, -⟩ := fmul_unit hy ht
  have hneg : F32.neg (fadd x (fmul y (fsub fone (b2f c)))) = false := by rw [fadd_unit hx hyt, F32.neg_round]
  exact unitChannel_iff.2 ⟨hneg, (fadd_mono hx hyt (b2f_unit c) ht hxa hle).trans (bits_fadd_one_sub_b2f_le c)⟩

/-- Settles O15: a premultiplied channel is at most its alpha, and so is alpha itself. -/
theorem blendStaysInUnitRange : Obligations.BlendStaysInUnitRange := by
  intro p bg hbg
  obtain ⟨hr, hg, hb, ha⟩ := unitColour_iff.1 hbg
  have premultiplied_channel (c : Byte) {y : F32} (hy : unitChannel y = true) :
      unitChannel (fadd (fmul (b2f c) (b2f p.a)) (fmul y (fsub fone (b2f p.a)))) = true := by
    obtain ⟨hx, hxa, -⟩ := fmul_unit (b2f_unit c) (b2f_unit p.a)
    exact blend_unit hx hxa hy
  exact unitColour_iff.2 ⟨premultiplied_channel p.r hr, premultiplied_channel p.g hg, premultiplied_channel p.b hb,
    blend_unit (b2f_unit p.a) le_rfl ha⟩

/-! ### The formulas -/

/-- Settles O11: each meaning yields its formula by definition. -/
theorem colourOperationsYieldTheirFormulas : Obligations.ColourOperationsYieldTheirFormulas := by
  intro s c x y z w p fg bg
  exact ⟨rfl, rfl, rfl, rfl, exec_blendOver fg bg s⟩

/-! ### Bytes to channels -/

/-- Each byte's channel is below the next one's (40 R100, by evaluation). -/
theorem mag_b2f_lt_succ : ∀ i : Fin 255,
    F32.mag (b2f (BitVec.ofFin i.castSucc)) < F32.mag (b2f (BitVec.ofFin i.succ)) := by
  decide +kernel

theorem mag_b2f_strictMono : StrictMono fun i : Fin 256 => F32.mag (b2f (BitVec.ofFin i)) :=
  Fin.strictMono_iff_lt_succ.2 mag_b2f_lt_succ

/-- Settles O12: the ends are evaluated, and what grows from each byte to the next is strictly increasing. -/
theorem byteToChannelIsIncreasing : Obligations.ByteToChannelIsIncreasing := by
  have hzero : b2f 0 = 0x00000000 := by decide +kernel
  have hone : b2f 255 = 0x3F800000 := by decide +kernel
  exact ⟨hzero, hone, b2f_unit, fun c d hcd => mag_b2f_strictMono (show c.toFin < d.toFin from hcd)⟩

/-! ### `to_rgb8` -/

theorem exec_toRgb8 {v : RgbaF32} {p : Rgb8} (h : toRgb8 v = some p) (s : State) :
    exec (.toRgb8 v) s = .next { s with out := .pixel p } := by
  show execToRgb8 v s = _
  rw [execToRgb8, h]
  rfl

theorem exec_toRgb8_of_none {v : RgbaF32} (h : toRgb8 v = none) (s : State) :
    exec (.toRgb8 v) s = .next (faulted s .unmodelled) := by
  show execToRgb8 v s = _
  rw [execToRgb8, h]
  rfl

theorem toByte_of_nan {x : F32} (h : F32.isNaN x = true) : toByte x = none := if_pos h

theorem toRgb8_of_toByte {v : RgbaF32} {r g b : Byte} (hr : toByte v.r = some r) (hg : toByte v.g = some g)
    (hb : toByte v.b = some b) : toRgb8 v = some ⟨r, g, b⟩ := by
  rw [toRgb8, hr, hg, hb]

/-- One NaN among the colour channels leaves no pixel (40 R107). -/
theorem toRgb8_of_nan {v : RgbaF32} (h : F32.isNaN v.r = true ∨ F32.isNaN v.g = true ∨ F32.isNaN v.b = true) :
    toRgb8 v = none := by
  rw [toRgb8]
  split
  next hr hg hb =>
    rcases h with h | h | h
    · cases (toByte_of_nan h).symm.trans hr
    · cases (toByte_of_nan h).symm.trans hg
    · cases (toByte_of_nan h).symm.trans hb
  next => rfl

/-- Settles O17: `toRgb8` reads `toByte` of the three colour channels and nothing else. -/
theorem toRgb8DropsAlpha : Obligations.ToRgb8DropsAlpha :=
  fun s _ _ _ _ => ⟨fun hr hg hb => exec_toRgb8 (toRgb8_of_toByte hr hg hb) s,
    fun hnan => exec_toRgb8_of_none (toRgb8_of_nan hnan) s⟩

end Sys2Proof.Machine

/-! PROOFS of the family 41_render: what an eligible strip's buffer gets (O26), and that a strip without the lock or out
of the precondition gets nothing (O27). -/

namespace Sys2Proof.Machine

/-- `render_strip` acts on a strip exactly when it is eligible (41 R120 precondition, R124). -/
theorem renderIfEligible_of_eligible {a : Agent} {i : Nat} {s : State} {e : Bool} (he : eligible a i s = .ok e) :
    renderIfEligible a i s = if e then renderStrip a i s else .ok s := by
  rw [renderIfEligible, he, ok_bind]

/-- An eligible strip that renders without a fault: the instruction answers the rendered state. -/
theorem exec_renderStrip_of_ok {a : Agent} {i : Nat} {s t : State} (he : eligible a i s = .ok true)
    (ht : renderStrip a i s = .ok t) : exec (.renderStrip a i) s = .next t := by
  show commit s (renderIfEligible a i s) = _
  rw [renderIfEligible_of_eligible he, if_pos rfl, ht, commit_ok]

theorem exec_renderStrip_of_ineligible {a : Agent} {i : Nat} {s : State} (he : eligible a i s = .ok false) :
    exec (.renderStrip a i) s = .next s := by
  show commit s (renderIfEligible a i s) = _
  rw [renderIfEligible_of_eligible he, if_neg Bool.false_ne_true, commit_ok]

/-- Eligibility reads the mode under the lock, also for a strip of no LEDs (43 R159). -/
theorem eligible_of_not_holder {a : Agent} {i n : Nat} {s : State} (h : s.lk.holder ≠ some a)
    (hn : s.cfg.ledCount? i = some n) : eligible a i s = .error .accessWithoutLock := by
  rw [eligible, leds_eq_ok.2 hn, ok_bind]
  exact bind_of_error (readMode_of_not_holder h i) _

/-- Settles O26: the strip is eligible, its stored colours compose to `n` pixels without a fault, and rendering fills the
buffer before the sentinel with their encodings. -/
theorem renderStripEncodesTheComposition : Obligations.RenderStripEncodesTheComposition := by
  intro s i n info m c buf hwf hh hinfo hn hpos hm hoff hd hc hb hpre
  have hled : s.cfg.ledCount? i = some n := hn ▸ info_ledCount hinfo
  have helig : eligible .tx i s = .ok true :=
    eligible_eq_ok.2 ⟨hh, n, m, false, hled, hm, hd, by simp [hpos, hoff]⟩
  obtain ⟨c', hc', hclen⟩ := cb_of_wf hwf hled
  obtain rfl : c = c' := Option.some.inj (hc.symm.trans hc')
  obtain ⟨buf', hb', hblen⟩ := tb_of_wf hwf hled
  obtain rfl : buf = buf' := Option.some.inj (hb.symm.trans hb')
  have hcur : i < s.tx.cur.length := by
    obtain ⟨-, -, -, hlen, -, -⟩ := memory_wf_iff.1 hwf
    exact hlen ▸ lt_nStrips_of_ledCount hled
  obtain ⟨w, hwlen, hcomp, hpixels⟩ := composeStrip_ok hh hinfo hoff hc (hclen.trans hn.symm)
    fun v hv => (premultiplied_iff.1 (hpre v hv)).1
  have hw : w.length = n := hwlen.trans hn
  exact ⟨w, hw, exec_renderStrip_of_ok helig (renderStrip_fills hh hled hm hcomp hw hb hblen hcur), hpixels⟩

/-- Settles O27: the lock is tested by eligibility, and each of the three conditions makes it false. -/
theorem ineligibleStripsAreNotRendered : Obligations.IneligibleStripsAreNotRendered := by
  intro s i n m d hn
  refine ⟨fun h => commit_of_error (bind_of_error (eligible_of_not_holder h hn) _), fun hh hm hd hinel => ?_⟩
  have hfalse : false = (decide (1 ≤ n) && m != .off && !d) := by
    rcases hinel with rfl | rfl | rfl <;> simp
  exact exec_renderStrip_of_ineligible (eligible_eq_ok.2 ⟨hh, n, m, d, hn, hm, hd, hfalse⟩)

end Sys2Proof.Machine

/-! PROOFS of the family 42_encoder: the encoder's operations, `construct` (O19), `flush` (O20) and `write_color` (O21); a
flush followed by colours (O23); the sentinels (O24); and the waveform of a buffer (O25). -/

namespace Sys2Proof.Machine

/-! ### The sentinels -/

/-- Settles O24: no effect changes a sentinel slot, whatever the instruction. -/
theorem sentinelsAreKept : Obligations.SentinelsAreKept :=
  fun _ _ _ _ hs h => (exec_effect h).sentinelsOk hs

/-! ### The encoder's operations -/

/-- An operation without a fault ends its step in the state it answers. -/
theorem commit_of_ok {s t : State} {e : Except FaultKind State} (h : e = .ok t) : commit s e = .next t := by
  rw [h, commit_ok]

/-- A strip's cursor exists in a state of the right shape (10 R39). -/
theorem cur_of_wf {s : State} {i n : Nat} (hw : Memory.wf s = true) (hn : s.cfg.ledCount? i = some n) :
    i < s.tx.cur.length := by
  obtain ⟨-, -, -, hlen, -, -⟩ := memory_wf_iff.1 hw
  exact hlen ▸ lt_nStrips_of_ledCount hn

/-- Settles O19: the strip has a buffer and a cursor, and the new buffer is `freshBuffer` of its `n` LEDs. -/
theorem constructBuildsEncoder : Obligations.ConstructBuildsEncoder := by
  intro s i n hwf hn
  obtain ⟨buf, hb, -⟩ := tb_of_wf hwf hn
  have hi : i < s.tx.tb.length := (List.getElem?_eq_some_iff.1 hb).1
  exact ⟨freshBuffer s.cfg s.draws n, freshBuffer_length .., freshBuffer_sentinel ..,
    commit_of_ok (construct_eq_ok.2 ⟨n, hn, hi, cur_of_wf hwf hn, rfl⟩)⟩

/-- Settles O20: `TX` owns the transmit path, so the cursor's write goes through. -/
theorem flushResetsCursorOnly : Obligations.FlushResetsCursorOnly :=
  fun _ _ hi => commit_of_ok (flush_eq_ok.2 ⟨rfl, hi, rfl⟩)

/-- When every element gives a block of `m` elements, the block of element number `q` begins at `m q`. -/
theorem getElem?_flatMap_block {α β : Type} {f : α → List β} {m : Nat} (hf : ∀ x, (f x).length = m) {x : α} {k : Nat}
    (hk : k < m) : ∀ {xs : List α} {q : Nat}, xs[q]? = some x → (xs.flatMap f)[m * q + k]? = (f x)[k]?
  | y :: ys, 0, h => by
    obtain rfl : y = x := by simpa using h
    rw [List.flatMap_cons, List.getElem?_append_left (by rw [hf]; omega), Nat.mul_zero, Nat.zero_add]
  | y :: ys, q + 1, h => by
    rw [List.flatMap_cons, Nat.mul_succ, List.getElem?_append_right (by rw [hf]; omega), hf,
      show m * q + m + k - m = m * q + k by omega]
    exact getElem?_flatMap_block hf hk h

/-- Bit `k` of the channel at wire position `q` is symbol number `8 q + (7 - k)` of a colour's 24 (42 R135, 20 R65). -/
theorem encodeColor_getElem? {cfg : Config} {p : Rgb8} {q k : Nat} {v : Byte} (hk : k < 8)
    (hv : (wireChannels cfg.wireOrder p)[q]? = some v) :
    (encodeColor cfg p)[8 * q + (7 - k)]? = some (encodeBit cfg (v.getLsbD k)) := by
  rw [encodeColor, getElem?_flatMap_block (encodeByte_length cfg) (by omega) hv, encodeByte, List.getElem?_map,
    bitsMsbFirst_getElem? v hk, Option.map_some]

theorem writeColor_of_no_room {s : State} {i n c : Nat} (p : Rgb8) (hn : s.cfg.ledCount? i = some n)
    (hc : s.tx.cur[i]? = some c) (h : 24 * n < c + 24) : writeColor .tx i p s = .error .encoderOverflow := by
  rw [writeColor, readCur_eq_ok.2 ⟨rfl, hc⟩, ok_bind, leds_eq_ok.2 hn, ok_bind, if_pos h]

/-- Settles O21: with room, the buffer is spliced with the colour's 24 symbols at the cursor; without, the bound is tested
before the first write. -/
theorem writeColorAppendsTwentyFour : Obligations.WriteColorAppendsTwentyFour := by
  intro s i n c p buf hn hc hb hlen
  refine ⟨fun hroom => ?_, fun hfull => commit_of_error (writeColor_of_no_room p hn hc hfull)⟩
  have hfit : c + (encodeColor s.cfg p).length ≤ buf.length := by rw [encodeColor_length]; omega
  refine ⟨splice buf c (encodeColor s.cfg p), commit_of_ok (writeColor_eq_ok.2 ?_), splice_length hfit, fun j hj => ?_,
    fun q k v hk hv => ?_⟩
  · exact ⟨rfl, c, n, buf, hc, hn, hroom, hb, by omega, rfl⟩
  · exact splice_outside hfit (by rwa [encodeColor_length])
  · have hsym : (encodeColor s.cfg p)[8 * q + (7 - k)]? = some (encodeBit s.cfg (v.getLsbD k)) :=
      encodeColor_getElem? hk hv
    rw [Nat.add_assoc, splice_inside hfit (List.getElem?_eq_some_iff.1 hsym).1, hsym]
    rfl

/-- Settles O23: the flushed cursor stands at 0, and the colours fill the buffer from there. -/
theorem flushThenColoursFillThePrefix : Obligations.FlushThenColoursFillThePrefix := by
  intro s i n ps buf hn hb hlen hi hle
  rw [flush_eq_ok.2 ⟨rfl, hi, rfl⟩, ok_bind, writeColors_fill (m := 0) (n := n) (pre := []) (suf := buf)]
  · simp [State.withEncoders]
  · exact hn
  · simp [hi]
  · exact hb
  · rfl
  · exact hlen
  · omega

/-! ### The waveform -/

/-- Without `End` among them, symbols do not stop the output of those that follow (42 R139). -/
theorem waveform_append {ys : List Symbol} (h : .endMark ∉ ys) (zs : List Symbol) :
    waveform (ys ++ zs) = waveform ys ++ waveform zs := by
  induction ys with
  | nil => rfl
  | cons y ys ih =>
    cases y with
    | pulse hi lo => simp [ih (List.not_mem_of_not_mem_cons h)]
    | endMark => simp at h

theorem waveTicks_append {ys : List Symbol} (h : .endMark ∉ ys) (zs : List Symbol) :
    waveTicks (ys ++ zs) = waveTicks ys + waveTicks zs := by
  simp [waveTicks, waveform_append h]

theorem waveform_length {ys : List Symbol} (h : .endMark ∉ ys) : (waveform ys).length = 2 * ys.length := by
  induction ys with
  | nil => rfl
  | cons y ys ih =>
    cases y with
    | pulse hi lo =>
      simp only [waveform_pulse, List.length_cons, ih (List.not_mem_of_not_mem_cons h)]
      omega
    | endMark => simp at h

/-- Some pulses give two levels each, and the levels of the symbols after them follow. -/
theorem waveform_append_getElem? {ys : List Symbol} (h : .endMark ∉ ys) (zs : List Symbol) (k : Nat) :
    (waveform (ys ++ zs))[2 * ys.length + k]? = (waveform zs)[k]? := by
  rw [waveform_append h, ← waveform_length h, List.getElem?_append_right (Nat.le_add_right ..), Nat.add_sub_cancel_left]

/-- Once the output of some pulses is over, the line follows the symbols after them. -/
theorem lineLevel_append {ys : List Symbol} (h : .endMark ∉ ys) (zs : List Symbol) (d : Nat) :
    lineLevel (ys ++ zs) (waveTicks ys + d) = lineLevel zs d := by
  induction ys with
  | nil => exact congrArg (lineLevel zs) (Nat.zero_add d)
  | cons y ys ih =>
    cases y with
    | pulse hi lo =>
      rw [List.cons_append, waveTicks_pulse, Nat.add_assoc (hi + lo), lineLevel_after,
        ih (List.not_mem_of_not_mem_cons h)]
    | endMark => simp at h

/-- Each symbol lasts as long as a `LO` bit or a `HI` bit (42 R140). -/
theorem waveTicks_bounds {cfg : Config} {ys : List Symbol} (h : ∀ y ∈ ys, y = cfg.lo ∨ y = cfg.hi) :
    ys.length * min (cfg.t0h + cfg.t0l) (cfg.t1h + cfg.t1l) ≤ waveTicks ys ∧
      waveTicks ys ≤ ys.length * max (cfg.t0h + cfg.t0l) (cfg.t1h + cfg.t1l) := by
  induction ys with
  | nil => simp [waveTicks, waveform]
  | cons y ys ih =>
    obtain ⟨hy, hys⟩ := List.forall_mem_cons.1 h
    obtain ⟨hmin, hmax⟩ := ih hys
    rcases hy with rfl | rfl <;>
      simp only [Config.lo, Config.hi, waveTicks_pulse, List.length_cons, Nat.succ_mul] <;> omega

theorem endMark_notMem_of_bits {cfg : Config} {ys : List Symbol} (h : ∀ y ∈ ys, y = cfg.lo ∨ y = cfg.hi) :
    .endMark ∉ ys := fun hend => by
  rcases h _ hend with h | h <;> cases h

/-- Settles O25: the pulses before symbol `j` put its two levels at numbers `2 j` and `2 j + 1` and its first tick at their
duration; after all pulses the line follows `End`. -/
theorem waveformDurationIsBounded : Obligations.WaveformDurationIsBounded := by
  intro cfg ys rest hys out
  have hpulses : Symbol.endMark ∉ ys := endMark_notMem_of_bits hys
  have hticks : waveTicks out = waveTicks ys := by
    rw [waveTicks_append hpulses, waveTicks_endMark, Nat.add_zero]
  refine ⟨?_, fun j hi lo hj => ?_, fun d hd => ?_, hticks ▸ waveTicks_bounds hys⟩
  · rw [waveform_append hpulses, waveform_endMark, List.append_nil, waveform_length hpulses]
  · obtain ⟨hlt, hget⟩ := List.getElem?_eq_some_iff.1 hj
    have hbefore : Symbol.endMark ∉ ys.take j := fun h => hpulses (List.mem_of_mem_take h)
    have hsplit : out = ys.take j ++ .pulse hi lo :: (ys.drop (j + 1) ++ .endMark :: rest) := by
      rw [← hget, ← List.cons_append, ← List.append_assoc, List.cons_getElem_drop_succ, List.take_append_drop]
    have hlevels := waveform_append_getElem? hbefore (.pulse hi lo :: (ys.drop (j + 1) ++ .endMark :: rest))
    rw [List.length_take_of_le hlt.le] at hlevels
    rw [hsplit]
    refine ⟨hlevels 0, hlevels 1, fun d hd => ?_, fun d hd hd' => ?_⟩
    · rw [lineLevel_append hbefore, lineLevel_high _ hd]
    · rw [lineLevel_append hbefore, lineLevel_low _ hd hd']
  · obtain ⟨e, rfl⟩ := Nat.exists_eq_add_of_le (hticks ▸ hd)
    rw [lineLevel_append hpulses, lineLevel_endMark]

end Sys2Proof.Machine

/-! PROOFS of the family 43_transmit_controller: the latch (O36); the steps of `TX` that read no time, `tx_lock` (O29),
`tx_render` (O30), `tx_unlock` (O31) and `tx_submit` (O32); `tx_wake` (O35); and that the ports wait while one core
transmits (O10). -/

namespace Sys2Proof.Machine

/-! ### The latch -/

/-- Settles O36: of all effects only `tx_waitcalc` enters `T_SLEEP` and only `tx_wake` enters `T_START`, and both keep the
latch. -/
theorem latchIsKept : Obligations.LatchIsKept := fun _ _ _ hl h => (exec_effect h).latchOk hl

/-! ### `tx_render` -/

/-- Past the last strip the pass ends (43 R153). -/
theorem txRender_past_end {s : State} (hk : s.cfg.nStrips ≤ s.tx.k) : txRender s = .ok (s.setTxPhase .tUnlock) := by
  rw [txRender, if_neg (Nat.not_lt.2 hk)]

/-- A strip that is not eligible is skipped (43 R153). -/
theorem txRender_of_ineligible {s : State} (hk : s.tx.k < s.cfg.nStrips) (he : eligible .tx s.tx.k s = .ok false) :
    txRender s = .ok (s.setK (s.tx.k + 1)) := by
  rw [txRender, if_pos hk, he, ok_bind, if_neg Bool.false_ne_true]

/-- An eligible strip that renders without a fault, its flag in range: the flag is set and the pass goes on (43 R153). -/
theorem txRender_of_eligible {s s1 : State} (hk : s.tx.k < s.cfg.nStrips) (he : eligible .tx s.tx.k s = .ok true)
    (hren : renderStrip .tx s.tx.k s = .ok s1) (hflag : s.tx.k < s1.tx.rendered.length) :
    txRender s = .ok { s1 with
      tx := { s1.tx with rendered := s1.tx.rendered.set s.tx.k true, k := s.tx.k + 1 } } := by
  rw [txRender, if_pos hk, he, ok_bind, if_pos rfl, hren, ok_bind, setFlag_eq_ok.2 ⟨hflag, rfl⟩]
  rfl

/-- Settles O30: `k` is past the end or names a strip; that strip's eligibility is the stated condition, and an eligible
strip of a state of the right shape renders without a fault. -/
theorem txRenderTakesOneStrip : Obligations.TxRenderTakesOneStrip := by
  intro s hp hw hh hc
  have henabled : s.txAt .tRender = true := txAt_eq_true.2 hp
  refine ⟨fun hk => whenEnabled_of_ok henabled (txRender_past_end hk), fun n m d hn hm hd => ?_⟩
  have hk : s.tx.k < s.cfg.nStrips := lt_nStrips_of_ledCount hn
  refine ⟨fun hinel => whenEnabled_of_ok henabled (txRender_of_ineligible hk ?_), fun hpos hoff hnd => ?_⟩
  · exact eligible_eq_ok.2 ⟨hh, n, m, d, hn, hm, hd, by rcases hinel with rfl | rfl | rfl <;> simp⟩
  · have he : eligible .tx s.tx.k s = .ok true :=
      eligible_eq_ok.2 ⟨hh, n, m, d, hn, hm, hd, by simp [hpos, hoff, hnd]⟩
    obtain ⟨-, -, -, -, hlen, -⟩ := memory_wf_iff.1 hw
    obtain ⟨w, buf, -, -, hren⟩ := renderStrip_of_eligible hw hc he
    exact ⟨_, exec_renderStrip_of_ok he hren, rfl,
      whenEnabled_of_ok henabled (txRender_of_eligible hk he hren (hlen ▸ hk))⟩

/-! ### `tx_submit` -/

/-- A set flag in range with none set before it is the one found. -/
theorem leastSet_of_least {start n i : Nat} {flags : List Bool} (hs : start ≤ i) (hn : i < n)
    (hi : flags[i]? = some true) (hmin : ∀ j, start ≤ j → j < i → flags[j]? ≠ some true) :
    leastSet start n flags = some i := by
  cases hl : leastSet start n flags with
  | none => exact absurd hi (leastSet_eq_none.1 hl i hs hn)
  | some j =>
    obtain ⟨hj, -, hset, hjmin⟩ := leastSet_eq_some hl
    have h1 : ¬j < i := fun h => hmin j hj h hset
    have h2 : ¬i < j := fun h => hjmin i hs h hi
    rw [show j = i by omega]

/-- Settles O32: the search for the next rendered strip finds the stated one or none, and the sequence handed over is the
whole buffer, whose length is the one submitted. -/
theorem txSubmitHandsOverTheNextRenderedStrip : Obligations.TxSubmitHandsOverTheNextRenderedStrip := by
  intro s hp
  have henabled : s.txAt .tSubmit = true := txAt_eq_true.2 hp
  refine ⟨fun i n buf hk hr hmin hn hb hlen => whenEnabled_of_ok henabled ?_,
    fun hnone => whenEnabled_of_ok henabled ?_⟩
  · have hread : s.readTb .tx i (24 * n + 1) = .ok buf :=
      readTb_eq_ok.2 ⟨rfl, buf, hb, hlen.ge, (List.take_of_length_le hlen.le).symm⟩
    simp only [txSubmit, leastSet_of_least hk (lt_nStrips_of_ledCount hn) hr hmin, leds_eq_ok.2 hn, hread, ok_bind]
    rfl
  · simp only [txSubmit, leastSet_eq_none.2 hnone]
    rfl

/-! ### `tx_lock`, `tx_unlock` and `tx_wake` -/

/-- Settles O29: a free lock is the other half of the step's enabling condition. -/
theorem txLockAcquiresOrWaits : Obligations.TxLockAcquiresOrWaits := by
  intro s hp
  refine ⟨fun hfree => whenEnabled_of_ok ?_ rfl, fun hheld => whenEnabled_false ?_ s _⟩
  · rw [txAt_eq_true.2 hp, lockFree_eq_true.2 hfree, Bool.and_self]
  · rw [Bool.eq_false_iff.2 (mt lockFree_eq_true.1 hheld), Bool.and_false]

/-- Settles O31: `TX` holds the lock, so its release raises no fault. -/
theorem txUnlockReleases : Obligations.TxUnlockReleases := by
  intro s hp hh
  refine whenEnabled_of_ok (txAt_eq_true.2 hp) ?_
  rw [release_eq_ok.2 ⟨hh, rfl⟩]
  rfl

/-- Settles O35: the deadline is part of the step's enabling condition. -/
theorem txWakesAtDeadline : Obligations.TxWakesAtDeadline := by
  intro s t hp
  refine ⟨fun ht hd => whenEnabled_of_ok ?_ rfl, fun hd => whenEnabled_false ?_ s _⟩
  · rw [txAt_and_mayRead hp ht, decide_eq_true hd, Bool.and_self]
  · rw [decide_eq_false (Nat.not_le.2 hd), Bool.and_false]

/-! ### One core -/

/-- With one core no port may step while `TX` transmits (44 R191). -/
theorem mayStep_eq_false {s : State} {a : Agent} (ha : a ≠ .tx) (hc : s.cfg.cores = 1) (hp : s.tx.phase = .tXmit) :
    s.mayStep a = false := by
  simp [State.mayStep, ha, hc, hp]

theorem execRecord_of_not_parsing {s : State} (h : s.parsing = false) (r : Record) : execRecord r s = .next s := by
  cases r <;> exact whenEnabled_false h s _

theorem execIngParse_of_not_parsing {s : State} (h : s.parsing = false) : execIngParse s = .next s := by
  unfold execIngParse
  split
  · exact execRecord_of_not_parsing h _
  · exact whenEnabled_false h s _

theorem exec_ingStep_waits {s : State} {i : Instr} (hi : ingStep i = true) (hm : s.mayStep .ing = false) :
    exec i s = .next s := by
  have hparsing : s.parsing = false := by rw [State.parsing, hm, Bool.false_and]
  cases i with
  | sbm | sbs | rsv2 | sbma | rsv4 | unrec => exact whenEnabled_false hparsing s _
  | ingParse => exact execIngParse_of_not_parsing hparsing
  | ingReceive | ingLock | ingUnlock => exact whenEnabled_false (by simp [hm]) s _
  | _ => cases hi

theorem exec_ctlStep_waits {s : State} {i : Instr} (hi : ctlStep i = true) (hm : s.mayStep .ctl = false) :
    exec i s = .next s := by
  cases i with
  | ssm | sem => exact whenEnabled_false (by rw [State.applying, hm, Bool.false_and]) s _
  | ctlReceive | ctlLock | ctlUnlock => exact whenEnabled_false (by simp [hm]) s _
  | _ => cases hi

/-- Settles O10: that the port may step is a conjunct of the enabling condition of each of its steps. -/
theorem singleCoreTransmissionRunsAlone : Obligations.SingleCoreTransmissionRunsAlone := by
  intro s i hc hp hi
  rcases hi with hi | hi
  · exact exec_ingStep_waits hi (mayStep_eq_false (by decide) hc hp)
  · exact exec_ctlStep_waits hi (mayStep_eq_false (by decide) hc hp)

end Sys2Proof.Machine

/-! PROOFS of the family 44_lock: the lock discipline (O38); the four outcomes of the bare acquire and release (O37); and
that the transmit path is `TX`'s alone (O22). -/

namespace Sys2Proof.Machine

/-! ### The lock discipline -/

/-- The lock discipline says nothing of the choices drawn. -/
theorem LockDiscipline.drawn {s : State} (hl : LockDiscipline s) : LockDiscipline s.drawn := by
  obtain ⟨cs, d, hd⟩ := drawn_eq s
  rw [hd]
  exact hl

/-- Settles O38: drawing a choice touches neither the lock nor a phase, and in each agent's step the lock passes with the
phases that hold it. -/
theorem lockDisciplineIsKept : Obligations.LockDisciplineIsKept := by
  intro s t hl h
  rcases step_eq_next h with rfl | ⟨i, hi, h⟩
  · exact hl.drawn
  · exact (exec_effect h).lockDiscipline hi hl.drawn

/-! ### Acquire and release -/

/-- Settles O37: that the lock is free is the enabling condition of an acquire, and that the agent is the holder is what a
release tests. -/
theorem lockIsTakenFreeAndReleasedByItsHolder : Obligations.LockIsTakenFreeAndReleasedByItsHolder := by
  intro s a
  refine ⟨fun hfree => ?_, fun hheld => ?_, fun hholder => ?_, fun hother => ?_⟩
  · exact whenEnabled_of_ok (lockFree_eq_true.2 hfree) rfl
  · exact whenEnabled_false (Bool.eq_false_iff.2 (mt lockFree_eq_true.1 hheld)) s _
  · exact commit_of_ok (release_eq_ok.2 ⟨hholder, rfl⟩)
  · exact commit_of_error (release_of_not_holder hother)

/-! ### The transmit path -/

theorem writeCur_of_port {a : Agent} (ha : a ≠ .tx) (s : State) (i c : Nat) :
    s.writeCur a i c = .error .ownershipViolation := bind_of_error (owned_of_port ha) _

theorem readCur_of_port {a : Agent} (ha : a ≠ .tx) (s : State) (i : Nat) :
    s.readCur a i = .error .ownershipViolation := bind_of_error (owned_of_port ha) _

/-- Settles O22: each operation begins with an access to the strip's cursor, and the owner is tested before all else. -/
theorem transmitPathIsOwnedByTx : Obligations.TransmitPathIsOwnedByTx := by
  intro s a i p ha
  constructor
  · exact commit_of_error (writeCur_of_port ha s i 0)
  · exact commit_of_error (bind_of_error (readCur_of_port ha s i) _)

end Sys2Proof.Machine

/-! PROOFS of the family 45_ingestion: the colours a record stores on a target that accepts data (O43, O44, O45); the
two aborts, for a bad target (O46) and for a transport error (O47); and the port's own steps (O41, O42). -/

namespace Sys2Proof.Machine

/-! ### The target check -/

theorem acceptsData_eq_true {m : StripMode} : acceptsData m = true ↔ m = .dynamic ∨ m = .hybrid := by
  cases m <;> decide

theorem acceptsData_eq_false {m : StripMode} : acceptsData m = false ↔ m = .off ∨ m = .effects := by
  cases m <;> decide

/-- `ING` is at a parse step, and its target of `n` LEDs passes the target check (45 R204). -/
structure AcceptsTarget (s : State) (tgt : Byte) (n : Nat) : Prop where
  parsing : s.parsing = true
  holder : s.lk.holder = some .ing
  leds : s.cfg.ledCount? tgt.toNat = some n
  mode : ∃ m, s.mode[tgt.toNat]? = some m ∧ acceptsData m = true

/-- The target fails the check by its range or, read under the lock, by its mode (45 R204). -/
def RejectsTarget (s : State) (tgt : Byte) : Prop :=
  s.cfg.nStrips ≤ tgt.toNat ∨ s.lk.holder = some .ing ∧ ∃ m, s.mode[tgt.toNat]? = some m ∧ acceptsData m = false

theorem acceptsTarget_of_mode {s : State} {tgt : Byte} {n : Nat} {m : StripMode} (hstep : s.mayStep .ing = true)
    (hp : s.ing.phase = .iParse) (hh : s.lk.holder = some .ing) (hn : s.cfg.ledCount? tgt.toNat = some n)
    (hm : s.mode[tgt.toNat]? = some m) (ha : m = .dynamic ∨ m = .hybrid) : AcceptsTarget s tgt n :=
  ⟨parsing_eq_true.2 ⟨hstep, hp⟩, hh, hn, m, hm, acceptsData_eq_true.2 ha⟩

theorem onTarget_of_accepts {s t : State} {tgt : Byte} {n : Nat} (h : AcceptsTarget s tgt n)
    {body : Nat → Except FaultKind State} (hbody : body n = .ok t) : onTarget s tgt body = .ok t := by
  obtain ⟨m, hm, ha⟩ := h.mode
  exact onTarget_eq_ok.2 (.inr ⟨n, m, h.leds, h.holder, hm, (if_pos ha).mpr hbody⟩)

/-- The range is tested before the mode, and either failure is the same abort. -/
theorem onTarget_of_rejects {s : State} {tgt : Byte} (h : RejectsTarget s tgt) (body : Nat → Except FaultKind State) :
    onTarget s tgt body = .ok (aborted s .protocolRangeError) := by
  cases hn : s.cfg.ledCount? tgt.toNat with
  | none => exact onTarget_eq_ok.2 (.inl ⟨hn, rfl⟩)
  | some n =>
    obtain hrange | ⟨hh, m, hm, ha⟩ := h
    · exact absurd (lt_nStrips_of_ledCount hn) (Nat.not_lt.2 hrange)
    · exact onTarget_eq_ok.2 (.inr ⟨n, m, hn, hh, hm, (if_neg (Bool.eq_false_iff.1 ha)).mpr rfl⟩)

/-- Every record's meaning is a target check with a body of its own. -/
theorem execRecord_eq_onTarget (r : Record) (s : State) :
    ∃ body, execRecord r s = whenEnabled s.parsing s (onTarget s (recordTarget r) body) := by
  cases r <;> exact ⟨_, rfl⟩

/-! ### The stored colours -/

/-- An alpha of 1.0 leaves the channels as they are (40 R101). -/
theorem opaqueColour_eq (p : Rgb8) : opaqueColour p = ⟨b2f p.r, b2f p.g, b2f p.b, 0x3F800000⟩ := by
  simp only [opaqueColour, rgbaNew, fone, fmul_one (b2f_unit _)]

/-- The outcome `o` is that of a record that stored the colours `vs` as its target's whole buffer and had a payload of
`need` bytes, under either granularity (45 R213, R217). -/
def StoresColours (s : State) (cmd tgt : Byte) (need : Nat) (vs : List RgbaF32) (o : Outcome) : Prop :=
  (s.cfg.atomicity = .perDatagram → o = .next { s with
      cb := s.cb.set tgt.toNat vs, hist := s.hist ++ [.apply cmd tgt]
      ing := { s.ing with c := s.ing.c + 2 + need } }) ∧
    (s.cfg.atomicity = .perRecord → o = .next { s with
      cb := s.cb.set tgt.toNat vs, hist := s.hist ++ [.apply cmd tgt, .release .ing], lk := ⟨none⟩
      ing := { s.ing with c := s.ing.c + 2 + need, phase := .iLock } })

/-- One colour per LED replaces the whole buffer (10 R28). -/
theorem writeCb_whole {s : State} {a : Agent} {i n : Nat} {vs : List RgbaF32} (hw : Memory.wf s = true)
    (hh : s.lk.holder = some a) (hn : s.cfg.ledCount? i = some n) (hl : vs.length = n) :
    s.writeCb a i vs = .ok { s with cb := s.cb.set i vs } := by
  obtain ⟨old, ho, hold⟩ := cb_of_wf hw hn
  refine writeCb_eq_ok.2 ⟨hh, old, ho, (hl.trans hold.symm).le, ?_⟩
  rw [List.drop_of_length_le (hold.trans hl.symm).le, List.append_nil]

/-- A record with enough payload and one colour per LED is applied on a target that accepts data (45 R206 to R209). -/
theorem storesColours_of_accepts {s : State} {cmd tgt : Byte} {n : Nat} {need avail : Nat → Nat}
    {vs : Nat → List RgbaF32} {stored : List RgbaF32} (h : AcceptsTarget s tgt n) (hw : Memory.wf s = true)
    (hle : need n ≤ avail n) (hvs : vs n = stored) (hl : stored.length = n) :
    StoresColours s cmd tgt (need n) stored
      (whenEnabled s.parsing s (onTarget s tgt fun n => s.applyRecord cmd tgt (need n) (avail n) (vs n))) := by
  subst hvs
  have runs {t : State} (hend : { s with cb := s.cb.set tgt.toNat (vs n) }.endRecord cmd tgt (need n) = .ok t) :
      whenEnabled s.parsing s (onTarget s tgt fun n => s.applyRecord cmd tgt (need n) (avail n) (vs n)) = .next t :=
    whenEnabled_of_ok h.parsing
      (onTarget_of_accepts h (applyRecord_eq_ok.2 (.inr ⟨hle, _, writeCb_whole hw h.holder h.leds hl, hend⟩)))
  constructor
  · exact fun ha => runs (endRecord_eq_ok.2 (.inl ⟨ha, rfl⟩))
  · exact fun ha => runs (endRecord_eq_ok.2 (.inr ⟨ha, h.holder, by simp⟩))

/-- Settles O43: a payload of one triple per LED is stored whole, and an opaque colour keeps its channels. -/
theorem setBufferToManyStoresEveryPixel : Obligations.SetBufferToManyStoresEveryPixel := by
  intro s tgt px n m hstep hp hh hw hn hm ha hpx
  have hvs : (px.take n).map opaqueColour = px.map fun p => ⟨b2f p.r, b2f p.g, b2f p.b, 0x3F800000⟩ := by
    rw [← hpx, List.take_length, funext opaqueColour_eq]
  exact storesColours_of_accepts (cmd := 0) (need := (3 * ·)) (avail := fun _ => 3 * px.length)
    (acceptsTarget_of_mode hstep hp hh hn hm ha) hw (by simp [hpx]) hvs (by simp [hpx])

/-- Settles O44: the one colour is stored once per LED, so as often as there are LEDs, none included. -/
theorem setBufferToSingleFills : Obligations.SetBufferToSingleFills := by
  intro s tgt p n m hstep hp hh hw hn hm ha
  exact storesColours_of_accepts (cmd := 1) (need := fun _ => 3) (avail := fun _ => 3)
    (vs := fun n => List.replicate n (opaqueColour p)) (acceptsTarget_of_mode hstep hp hh hn hm ha) hw le_rfl
    (by rw [opaqueColour_eq]) List.length_replicate

/-- Settles O45: a payload of one quad per LED is stored whole, and `alphaColour` premultiplies by definition. -/
theorem setBufferToManyAlphaPremultiplies : Obligations.SetBufferToManyAlphaPremultiplies := by
  intro s tgt px n m hstep hp hh hw hn hm ha hpx
  have hvs : (px.take n).map alphaColour = px.map fun p =>
      ⟨fmul (b2f p.r) (b2f p.a), fmul (b2f p.g) (b2f p.a), fmul (b2f p.b) (b2f p.a), b2f p.a⟩ := by
    rw [← hpx, List.take_length]
    rfl
  exact storesColours_of_accepts (cmd := 3) (need := (4 * ·)) (avail := fun _ => 4 * px.length)
    (acceptsTarget_of_mode hstep hp hh hn hm ha) hw (by simp [hpx]) hvs (by simp [hpx])

/-! ### The parse step -/

theorem execIngParse_of_ok {s : State} {r : Record} {rest : List Byte}
    (h : decodeRecordHead s.cfg s.remaining = .ok (r, rest)) : execIngParse s = execRecord r s := by
  rw [execIngParse, h]

theorem execIngParse_of_error {s : State} {e : DecodeError} (h : decodeRecordHead s.cfg s.remaining = .error e) :
    execIngParse s = whenEnabled s.parsing s (parseFailure e s) := by
  rw [execIngParse, h]

theorem decodeRecordHead_of_short (cfg : Config) {bs : List Byte} (h : bs.length < 2) :
    decodeRecordHead cfg bs = .error .tooShort := by
  match bs with
  | [] | [_] => rfl
  | _ :: _ :: _ => simp at h

theorem decodeRecordHead_of_out_of_range {cfg : Config} {tgt : Byte} (h : cfg.ledCount? tgt.toNat = none) (cmd : Byte)
    (bs : List Byte) : decodeRecordHead cfg (cmd :: tgt :: bs) = .error .targetOutOfRange := by
  rw [decodeRecordHead, h]

/-- With two header bytes at the cursor the parse step is a target check, whether or not the record decodes (60 R259). -/
theorem execIngParse_eq_onTarget {s : State} {cmd tgt : Byte} {bs : List Byte} (hrem : s.remaining = cmd :: tgt :: bs) :
    ∃ body, execIngParse s = whenEnabled s.parsing s (onTarget s tgt body) := by
  cases hn : s.cfg.ledCount? tgt.toNat with
  | none =>
    have habort (body) : onTarget s tgt body = .ok (s.abort .protocolRangeError) :=
      onTarget_eq_ok.2 (.inl ⟨hn, rfl⟩)
    refine ⟨fun _ => .ok s, ?_⟩
    rw [habort, execIngParse_of_error (hrem ▸ decodeRecordHead_of_out_of_range hn cmd bs)]
    rfl
  | some n =>
    have hdec : decodeRecordHead s.cfg s.remaining = decodePayload cmd tgt n bs :=
      hrem ▸ decodeRecordHead_of_ledCount hn cmd bs
    cases hd : decodePayload cmd tgt n bs with
    | ok p =>
      obtain ⟨-, -, rfl, -⟩ := decodePayload_ok hd
      obtain ⟨body, hbody⟩ := execRecord_eq_onTarget p.1 s
      exact ⟨body, (execIngParse_of_ok (hdec.trans hd)).trans hbody⟩
    | error e =>
      obtain rfl := decodePayload_error hd
      exact ⟨_, execIngParse_of_error (hdec.trans hd)⟩

/-- A code with no payload length, or a payload shorter than the command needs, runs as an unknown command (45 R205,
R206, R210 to R212). -/
theorem execIngParse_of_unreadable {s : State} {cmd tgt : Byte} {n : Nat} {bs : List Byte}
    (hrem : s.remaining = cmd :: tgt :: bs) (hn : s.cfg.ledCount? tgt.toNat = some n)
    (hneed : payloadNeed cmd n = none ∨ ∃ need, payloadNeed cmd n = some need ∧ bs.length < need) :
    execIngParse s = whenEnabled s.parsing s (unknownCommand tgt s) := by
  have hdec : decodeRecordHead s.cfg s.remaining = decodePayload cmd tgt n bs :=
    hrem ▸ decodeRecordHead_of_ledCount hn cmd bs
  cases hd : decodePayload cmd tgt n bs with
  | error e =>
    obtain rfl := decodePayload_error hd
    exact execIngParse_of_error (hdec.trans hd)
  | ok p =>
    rw [execIngParse_of_ok (hdec.trans hd)]
    obtain ⟨r, rest⟩ := p
    obtain ⟨hfits, rfl, rfl, rfl⟩ := decodePayload_ok hd
    obtain hnone | ⟨need, hsome, hlt⟩ := hneed
    · cases r with
      | rsv2 | rsv4 | unrec => rfl
      | sbm | sbs | sbma => cases hnone
    · have hlen := recordPayload_length hfits hsome
      rw [List.length_append] at hlt
      omega

/-- Settles O46: every record, and the parse step whatever its command and payload, is a target check first. -/
theorem rejectedTargetAborts : Obligations.RejectedTargetAborts := by
  intro s r hstep hp
  have aborts {tgt : Byte} (h : RejectsTarget s tgt) (body) :
      whenEnabled s.parsing s (onTarget s tgt body) = .next (aborted s .protocolRangeError) :=
    whenEnabled_of_ok (parsing_eq_true.2 ⟨hstep, hp⟩) (onTarget_of_rejects h body)
  have record (h : RejectsTarget s (recordTarget r)) : exec r.toInstr s = .next (aborted s .protocolRangeError) := by
    obtain ⟨body, hbody⟩ := execRecord_eq_onTarget r s
    exact (exec_toInstr_record r s).trans (hbody.trans (aborts h body))
  refine ⟨fun hrange => record (.inl hrange), fun m _ hh hm hbad => ?_, fun cmd tgt bs hrem hbad => ?_⟩
  · exact record (.inr ⟨hh, m, hm, acceptsData_eq_false.2 hbad⟩)
  · obtain ⟨body, hbody⟩ := execIngParse_eq_onTarget hrem
    refine hbody.trans (aborts (hbad.imp_right fun ⟨hh, hm⟩ => ⟨hh, ?_⟩) body)
    exact hm.elim (⟨_, ·, rfl⟩) (⟨_, ·, rfl⟩)

/-- Settles O47: past the target check, an unknown command aborts, a payload too short is not applied, and the parse step
runs every unreadable record as an unknown command. -/
theorem transportErrorsAbort : Obligations.TransportErrorsAbort := by
  intro s tgt cmd n m hstep hp hh hn hm ha
  have haccepts := acceptsTarget_of_mode hstep hp hh hn hm ha
  have aborts {body : Nat → Except FaultKind State} (hbody : body n = .ok (aborted s .transportError)) :
      whenEnabled s.parsing s (onTarget s tgt body) = .next (aborted s .transportError) :=
    whenEnabled_of_ok haccepts.parsing (onTarget_of_accepts haccepts hbody)
  have unknown : whenEnabled s.parsing s (unknownCommand tgt s) = .next (aborted s .transportError) := aborts rfl
  refine ⟨unknown, unknown, fun _ => unknown, fun px hpx => aborts ?_, fun px hpx => aborts ?_,
    fun bs hrem hneed => ?_⟩
  · exact applyRecord_eq_ok.2 (.inl ⟨by omega, rfl⟩)
  · exact applyRecord_eq_ok.2 (.inl ⟨by omega, rfl⟩)
  · exact (execIngParse_of_unreadable hrem hn hneed).trans unknown

/-! ### The port's own steps -/

/-- Settles O41: each step is enabled in its phase, `ing_lock` only with the lock free, and the holder's release raises
no fault. -/
theorem ingestionPortSteps : Obligations.IngestionPortSteps := by
  intro s hstep
  refine ⟨fun bytes hp hl => ?_, fun hp hfree => ?_, fun hp hheld => ?_, fun hp hh => ?_⟩
  · exact whenEnabled_of_ok (by simp [hstep, hp, hl]) rfl
  · exact whenEnabled_of_ok (by simp [hstep, hp, lockFree_eq_true.2 hfree]) rfl
  · exact whenEnabled_false (by rw [Bool.eq_false_iff.2 (mt lockFree_eq_true.1 hheld), Bool.and_false]) s _
  · refine whenEnabled_of_ok (by simp [hstep, hp]) ?_
    rw [release_eq_ok.2 ⟨hh, rfl⟩]
    rfl

/-- Settles O42: with under two bytes left the decoder answers `tooShort`, which ends the datagram; else the parse step
runs what it decodes. -/
theorem parseStepRunsTheRecordAtTheCursor : Obligations.ParseStepRunsTheRecordAtTheCursor := by
  intro s hstep hp
  refine ⟨fun hshort => ?_, fun i rest hd => exec_ingParse_of_decodeRecord hd⟩
  have hlen : s.remaining.length < 2 := by
    rw [State.remaining, List.length_drop]
    omega
  exact (execIngParse_of_error (decodeRecordHead_of_short s.cfg hlen)).trans
    (whenEnabled_of_ok (parsing_eq_true.2 ⟨hstep, hp⟩) rfl)

end Sys2Proof.Machine

/-! PROOFS of the family 46_control: the selector's moves add up, so `N_EFFECTS` moves return to the start (O52) and a
shift is repeated moves (O53); the port's own steps (O48); the two messages (O49, O50); and the selector operations of the
lock's holder (O51). -/

namespace Sys2Proof.Machine

/-! ### The selector's arithmetic -/

theorem coe_shiftedSel {n : Nat} (hn : 0 < n) (sel : Nat) (d : Int) :
    (shiftedSel sel d n : Int) = ((sel : Int) + d) % (n : Int) :=
  Int.toNat_of_nonneg (Int.emod_nonneg _ (by omega))

/-- A shift by a multiple of `N_EFFECTS` is none. -/
theorem shiftedSel_of_dvd {n sel : Nat} {d : Int} (h : sel < n) (hd : (n : Int) ∣ d) : shiftedSel sel d n = sel := by
  obtain ⟨q, rfl⟩ := hd
  rw [shiftedSel, Int.add_mul_emod_self_left, Int.emod_eq_of_lt (by omega) (by omega), Int.toNat_natCast]

/-- Shifts add up: wrapping between two of them loses nothing. -/
theorem shiftedSel_shiftedSel {n : Nat} (hn : 0 < n) (sel : Nat) (d e : Int) :
    shiftedSel (shiftedSel sel d n) e n = shiftedSel sel (d + e) n := by
  rw [shiftedSel, coe_shiftedSel hn, Int.emod_add_emod, add_assoc, ← shiftedSel]

/-- `next_effect` moves the selector by 1 (46 R235). -/
theorem succ_mod_eq_shiftedSel (sel n : Nat) : (sel + 1) % n = shiftedSel sel 1 n := by
  rw [shiftedSel, ← Nat.cast_succ, ← Int.natCast_emod, Int.toNat_natCast]

/-- `prev_effect` moves a selector in range by -1 (46 R236). -/
theorem pred_wrap_eq_shiftedSel {sel n : Nat} (h : sel < n) :
    (if sel = 0 then n - 1 else sel - 1) = shiftedSel sel (-1) n := by
  split
  · have hmod : ((sel : Int) + -1) % n = ((sel : Int) + -1 + n) % n := (Int.add_emod_right _ _).symm
    rw [shiftedSel, hmod, Int.emod_eq_of_lt (by omega) (by omega)]
    omega
  · rw [shiftedSel, Int.emod_eq_of_lt (by omega) (by omega)]
    omega

/-! ### Moves of the selector -/

/-- The state with the selector moved by `d`, with Euclidean wraparound (46 R234). -/
def State.shifted (s : State) (d : Int) : State := { s with sel := shiftedSel s.sel d s.cfg.nEffects }

theorem State.shifted_sel_lt {s : State} (hn : 0 < s.cfg.nEffects) (d : Int) :
    (s.shifted d).sel < (s.shifted d).cfg.nEffects := shiftedSel_lt hn _ _

theorem State.shifted_of_dvd {s : State} {d : Int} (h : s.sel < s.cfg.nEffects) (hd : (s.cfg.nEffects : Int) ∣ d) :
    s.shifted d = s := by
  rw [State.shifted, shiftedSel_of_dvd h hd]

theorem State.shifted_shifted {s : State} (hn : 0 < s.cfg.nEffects) (d e : Int) :
    (s.shifted d).shifted e = s.shifted (d + e) := by
  simp only [State.shifted, shiftedSel_shiftedSel hn]

theorem exec_nextEffect_of_holder {s : State} {a : Agent} (h : s.lk.holder = some a) :
    exec (.nextEffect a) s = .next { s with sel := (s.sel + 1) % s.cfg.nEffects } :=
  commit_of_ok (nextEffect_eq_ok.2 ⟨h, rfl⟩)

theorem exec_prevEffect_of_holder {s : State} {a : Agent} (h : s.lk.holder = some a) :
    exec (.prevEffect a) s = .next { s with sel := if s.sel = 0 then s.cfg.nEffects - 1 else s.sel - 1 } :=
  commit_of_ok (prevEffect_eq_ok.2 ⟨h, rfl⟩)

/-- Instruction `i`, by the lock's holder `a` and with the selector in range, moves the selector by `d`. -/
def Moves (a : Agent) (i : Instr) (d : Int) : Prop :=
  ∀ s : State, s.lk.holder = some a → s.sel < s.cfg.nEffects → exec i s = .next (s.shifted d)

theorem moves_nextEffect (a : Agent) : Moves a (.nextEffect a) 1 := by
  intro s hh _
  rw [exec_nextEffect_of_holder hh, succ_mod_eq_shiftedSel, State.shifted]

theorem moves_prevEffect (a : Agent) : Moves a (.prevEffect a) (-1) := by
  intro s hh hsel
  rw [exec_prevEffect_of_holder hh, pred_wrap_eq_shiftedSel hsel, State.shifted]

theorem execTimes_succ_of_next {i : Instr} {s t : State} (h : exec i s = .next t) (n : Nat) :
    execTimes (n + 1) i s = execTimes n i t := by
  rw [execTimes, h]

/-- `n` moves by `d` are one move by `n * d`: each keeps the lock's holder and leaves the selector in range. -/
theorem Moves.repeated {a : Agent} {i : Instr} {d : Int} (hi : Moves a i d) (n : Nat) {s : State}
    (hh : s.lk.holder = some a) (hsel : s.sel < s.cfg.nEffects) : execTimes n i s = .next (s.shifted (n * d)) := by
  have hn : 0 < s.cfg.nEffects := Nat.zero_lt_of_lt hsel
  induction n generalizing s with
  | zero => rw [State.shifted_of_dvd hsel (by simp)]; rfl
  | succ n ih =>
    have hsum : d + n * d = (n + 1 : Nat) * d := by push_cast; ring
    rw [execTimes_succ_of_next (hi s hh hsel), ih (s := s.shifted d) hh (State.shifted_sel_lt hn d) hn,
      State.shifted_shifted hn, hsum]

/-- Settles O52: `N_EFFECTS` moves by 1 are a move by a multiple of `N_EFFECTS`, and a move by 1 and one by -1 are a move
by 0. -/
theorem nextEffectCycles : Obligations.NextEffectCycles := by
  intro s a hh hsel
  have hn : 0 < s.cfg.nEffects := Nat.zero_lt_of_lt hsel
  refine ⟨?_, s.shifted 1, moves_nextEffect a s hh hsel, ?_⟩
  · rw [(moves_nextEffect a).repeated _ hh hsel, State.shifted_of_dvd hsel (Dvd.intro _ rfl)]
  · rw [moves_prevEffect a (s.shifted 1) hh (State.shifted_sel_lt hn 1), State.shifted_shifted hn,
      State.shifted_of_dvd hsel (by simp)]

/-! ### The two messages -/

theorem exec_sem_of_holder {s : State} {d : Byte} (hstep : s.mayStep .ctl = true) (hp : s.ctl.phase = .cApply)
    (hh : s.lk.holder = some .ctl) :
    exec (.sem d) s = .next { s.shifted d.toInt with
      hist := s.hist ++ [.select (s.shifted d.toInt).sel], ctl := { s.ctl with phase := .cUnlock } } := by
  refine whenEnabled_of_ok (applying_eq_true.2 ⟨hstep, hp⟩) ?_
  rw [applyShiftEffectMode, shiftSel_eq_ok.2 ⟨hh, rfl⟩]
  rfl

/-- Settles O53: `|d|` moves by the sign of `d` are one move by `d`, which is the shift's. -/
theorem shiftIsRepeatedMoves : Obligations.ShiftIsRepeatedMoves := by
  intro s d hstep hp hh hsel
  refine ⟨s.shifted d.toInt, ?_, exec_sem_of_holder hstep hp hh⟩
  split
  · have habs : (d.toInt.natAbs : Int) * 1 = d.toInt := by omega
    rw [(moves_nextEffect .ctl).repeated _ hh hsel, habs]
  · have habs : (d.toInt.natAbs : Int) * -1 = d.toInt := by omega
    rw [(moves_prevEffect .ctl).repeated _ hh hsel, habs]

/-- Settles O50: the new selector is the residue of `sel + d`. -/
theorem shiftEffectModeWraps : Obligations.ShiftEffectModeWraps := by
  intro s d hstep hp hh hn
  refine ⟨shiftedSel s.sel d.toInt s.cfg.nEffects, shiftedSel_lt hn _ _, ?_, exec_sem_of_holder hstep hp hh⟩
  rw [coe_shiftedSel hn, Int.emod_sub_emod, sub_self, Int.zero_emod]

/-- Settles O49: with the lock held, an index in range is written without a fault, and any other is not looked up. -/
theorem setStripModeIsBoundsChecked : Obligations.SetStripModeIsBoundsChecked := by
  intro s idx m hstep hp hh hlen
  have henabled : s.applying = true := applying_eq_true.2 ⟨hstep, hp⟩
  refine ⟨fun hidx => whenEnabled_of_ok henabled ?_, fun hidx => whenEnabled_of_ok henabled ?_⟩
  · rw [applySetStripMode, if_pos hidx, writeMode_eq_ok.2 ⟨hh, hlen ▸ hidx, rfl⟩]
    rfl
  · rw [applySetStripMode, if_neg (Nat.not_lt.2 hidx)]
    rfl

/-! ### The port's own steps and the selector operations -/

theorem ctlReceive_of_encode {bytes : List Byte} {m : ControlMsg} (h : encode m.toInstr = some bytes) (s : State) :
    ctlReceive bytes s = { s with ctl := ⟨.cLock, some m⟩ } := by
  rw [ctlReceive, (controlDecodesExactlyItsEncodings bytes m).2 h]

theorem ctlReceive_of_no_message {bytes : List Byte} (h : ∀ m : ControlMsg, encode m.toInstr ≠ some bytes) (s : State) :
    ctlReceive bytes s = s := by
  unfold ctlReceive
  split
  next m hm => exact absurd (encode_of_decodeControlMsg hm) (h m)
  next => rfl

/-- Settles O48: each step is enabled in its phase, `ctl_lock` only with the lock free; the decoder accepts exactly the
encodings of messages; and the holder's release raises no fault. -/
theorem controlPortSteps : Obligations.ControlPortSteps := by
  intro s hstep
  refine ⟨fun bytes m hp hm => ?_, fun bytes hp hnone => ?_, fun hp hfree => ?_, fun hp hheld => ?_, fun hp hh => ?_⟩
  · exact whenEnabled_of_ok (by simp [hstep, hp]) (congrArg Except.ok (ctlReceive_of_encode hm s))
  · exact whenEnabled_of_ok (by simp [hstep, hp]) (congrArg Except.ok (ctlReceive_of_no_message hnone s))
  · exact whenEnabled_of_ok (by simp [hstep, hp, lockFree_eq_true.2 hfree]) rfl
  · exact whenEnabled_false (by rw [Bool.eq_false_iff.2 (mt lockFree_eq_true.1 hheld), Bool.and_false]) s _
  · refine whenEnabled_of_ok (by simp [hstep, hp]) ?_
    rw [release_eq_ok.2 ⟨hh, rfl⟩]
    rfl

/-- Settles O51: with the lock held, no access to the selector faults. -/
theorem selectorOperationsOfTheHolder : Obligations.SelectorOperationsOfTheHolder := by
  intro s a k hh
  refine ⟨exec_nextEffect_of_holder hh, exec_prevEffect_of_holder hh, commit_of_ok (writeSel_eq_ok.2 ⟨hh, rfl⟩),
    commit_of_ok ?_⟩
  have hread : currentEffect a s = .ok s.sel := readSel_eq_ok.2 ⟨hh, rfl⟩
  rw [hread]
  rfl

end Sys2Proof.Machine
